-- ==== Sys2Proof/Word.lean ====
section
/-! DEFINITION. The word types of HUFFCORE (spec/00_scope.md R6 to R9): every quantity is unsigned and bit 0
of a word is its least significant bit. -/

namespace Sys2Proof

/-- A Symbol, and one entry of SYMTAB, IBUF and OBUF: 8 bits (R6, R44, R49, R50). -/
abbrev Byte := BitVec 8

/-- A bus data word and a host-visible register: 32 bits, `W_REG` (R8). -/
abbrev Word := BitVec 32

/-- A host bus byte address: 28 bits, `W_ADDR` (R8, R78). -/
abbrev Addr := BitVec 28

/-- A node index: 9 bits, `W_IDX` (R7, R8). -/
abbrev NodeIdx := BitVec 9

/-- A node's frequency: 40 bits, `W_NFREQ` (R8, R40). -/
abbrev Freq := BitVec 40

end Sys2Proof
end

