-- ==== Sys2Proof/Config.lean ====
section
/-! DEFINITION. What a machine fixes once and for all (spec/00_scope.md R6 to R8), and the free values the
spec leaves open (spec/93_implementation_defined.md). -/

namespace Sys2Proof

/-- The two parameters the spec leaves OPEN (R8, decision D4): the capacities of the buffers in bytes. They are
a model argument; a machine state carries its configuration beside it and no step changes it (log entry 1). -/
structure Config where
  /-- `IBUF_BYTES`, the capacity of the input buffer. -/
  ibufBytes : Nat
  /-- `OBUF_BYTES`, the capacity of the output buffer. -/
  obufBytes : Nat
  deriving DecidableEq, Repr

namespace Config

/-- The default capacities of R8. -/
def default : Config := { ibufBytes := 65536, obufBytes := 65536 }

/-- `MAX_SYMS`: the largest number of distinct symbols (R6). -/
def maxSyms : Nat := 256

/-- `MAX_NODES`: the number of NODE entries (R7). -/
def maxNodes : Nat := 511

/-- `MAX_CODE_LEN`: the largest number of digits of a code (R7). -/
def maxCodeLen : Nat := 255

/-- FREE VALUE. Bits the spec leaves unspecified: draw number `tag`, place `key` within the draw, width `w` (U1, U2,
U4, U6 and R323: 'an arbitrary value of its width, stable until written'). No body: nothing can be proved of a
value of it. No two places of the model ask for the same `w`, `tag` and `key`. Log entry 2. -/
opaque freeBits (w tag key : Nat) : BitVec w

end Config
end Sys2Proof
end

