-- ==== Sys2Proof/Syntax.lean ====
section
/-! DEFINITION. The commands of HUFFCORE (spec/30_encoding.md R104), one constructor for each row of
spec/opcode_table.json, and the fields of the one command format `CW` (R101). No command has an operand in its
word (R102): every operand is a fixed register, table or buffer (R105). -/

namespace Sys2Proof

/-- The seven commands (R104). The suffixes of DECODE name the MODE bit (R103, R119). -/
inductive Instr where
  /-- ANALYZE, 0x00000001 (R131). -/
  | analyze
  /-- BUILD, 0x00000002 (R161). -/
  | build
  /-- GENCODES, 0x00000003 (R181). -/
  | gencodes
  /-- ENCODE, 0x00000004 (R196). -/
  | encode
  /-- DECODE.B, 0x00000005: the end of data is given by BITCOUNT (R216). -/
  | decodeB
  /-- DECODE.S, 0x00000105: the end of data is given by SYMCOUNT (R224). -/
  | decodeS
  /-- CLEAR, 0x00000006 (R250). -/
  | clear
  deriving DecidableEq, Repr

/-- The fields of a command word (R101). -/
structure CommandFields where
  /-- Bits 7:0, the operation code. -/
  opc : BitVec 8
  /-- Bit 8. -/
  mode : BitVec 1
  /-- Bits 31:9, reserved. -/
  rsv : BitVec 23
  deriving DecidableEq, Repr

end Sys2Proof
end

