-- ==== Sys2Proof/WellFormed.lean ====
section
/-! DEFINITION. The checks on what is given to the machine: the fields of a command word
(spec/30_encoding.md R101, R106) and the configuration (spec/00_scope.md R8). -/

namespace Sys2Proof

/-- The reserved field must be 0 (R101). -/
def CommandFields.rsvOk (f : CommandFields) : Bool := f.rsv == 0

/-- MODE must be 0 for every OPC but 0x05 (R101). -/
def CommandFields.modeOk (f : CommandFields) : Bool := f.mode == 0 || f.opc == 0x05

/-- The assigned operation codes are 0x01 to 0x06 (R104, R106). -/
def CommandFields.opcOk (f : CommandFields) : Bool := 1 ≤ f.opc.toNat && f.opc.toNat ≤ 6

/-- A command word's fields are legal: all three checks hold (R106). -/
def CommandFields.wellFormed (f : CommandFields) : Bool := f.rsvOk && f.modeOk && f.opcOk

/-- The fields of a command's word (the table of R104). -/
def Instr.fields : Instr → CommandFields
  | .analyze => { opc := 0x01, mode := 0, rsv := 0 }
  | .build => { opc := 0x02, mode := 0, rsv := 0 }
  | .gencodes => { opc := 0x03, mode := 0, rsv := 0 }
  | .encode => { opc := 0x04, mode := 0, rsv := 0 }
  | .decodeB => { opc := 0x05, mode := 0, rsv := 0 }
  | .decodeS => { opc := 0x05, mode := 1, rsv := 0 }
  | .clear => { opc := 0x06, mode := 0, rsv := 0 }

/-- A command is well-formed when its word's fields are. A command has no operand that could be out of range
(R102), so every command is. -/
def Instr.wellFormed (i : Instr) : Bool := i.fields.wellFormed

/-- The input capacity is in range: `1 <= IBUF_BYTES <= 2^24` (R8). -/
def Config.ibufOk (c : Config) : Bool := 1 ≤ c.ibufBytes && c.ibufBytes ≤ 2 ^ 24

/-- The output capacity is in range: `1 <= OBUF_BYTES <= 2^24` (R8). -/
def Config.obufOk (c : Config) : Bool := 1 ≤ c.obufBytes && c.obufBytes ≤ 2 ^ 24

/-- Both capacities are in range (R8). -/
def Config.wellFormed (c : Config) : Bool := c.ibufOk && c.obufOk

end Sys2Proof
end

