-- ==== Sys2Proof/Decode.lean ====
section
/-! DEFINITION. The command decoder (spec/30_encoding.md R107), total on every 32-bit word and rejecting by
name, and the encoder (R104). -/

namespace Sys2Proof

/-- Why a word is ILLEGAL, one constructor per clause of R106 in the order R107 tests them. -/
inductive Illegal where
  /-- A bit of RSV, 31:9, is set. -/
  | reservedBits
  /-- MODE is 1 and OPC is not 0x05. -/
  | modeNotAllowed
  /-- OPC is 0x00 or 0x07 to 0xFF. -/
  | unassignedOpc
  deriving DecidableEq, Repr

/-- The fields of a word (R101). -/
def fieldsOf (w : Word) : CommandFields :=
  { opc := w.extractLsb' 0 8, mode := w.extractLsb' 8 1, rsv := w.extractLsb' 9 23 }

/-- Which command the fields name (R107). -/
def decodeFields (f : CommandFields) : Except Illegal Instr :=
  if f.rsv ≠ 0 then .error .reservedBits
  else if f.mode = 1 ∧ f.opc ≠ 0x05 then .error .modeNotAllowed
  else if f.opc = 0x01 then .ok .analyze
  else if f.opc = 0x02 then .ok .build
  else if f.opc = 0x03 then .ok .gencodes
  else if f.opc = 0x04 then .ok .encode
  else if f.opc = 0x05 then .ok (if f.mode = 0 then .decodeB else .decodeS)
  else if f.opc = 0x06 then .ok .clear
  else .error .unassignedOpc

/-- `decode_cmd` with the reason of a rejection (R107). -/
def decodeWord (w : Word) : Except Illegal Instr := decodeFields (fieldsOf w)

/-- `decode_cmd` (R107): `none` is ILLEGAL. -/
def decodeCmd (w : Word) : Option Instr :=
  match decodeWord w with
  | .ok i => some i
  | .error _ => none

/-- The word of the fields (R101): RSV in bits 31:9, MODE in bit 8, OPC in bits 7:0. -/
def wordOf (f : CommandFields) : Word := f.rsv ++ (f.mode ++ f.opc)

/-- The command word of a command, `cw(m)` (R104, R117). -/
def encodeCmd (i : Instr) : Word := wordOf i.fields

/-- The decoder on a row of spec/opcode_table.json: a command is one 32-bit word on the bus, so the row's number
is the word; a number that does not fit in the row's bits is no word. -/
def decodeTableWord (nbits w : Nat) : Option Instr :=
  if w < 2 ^ nbits ∧ w < 2 ^ 32 then decodeCmd (BitVec.ofNat 32 w) else none

end Sys2Proof
end

