-- ==== Sys2Proof/Machine/State.lean ====
section
/-! DEFINITION. The state of HUFFCORE (spec/10_state.md R21), the reasons a step can stop, and the state after
reset (R57, R320). State is plain data. -/

namespace Sys2Proof.Machine

/-- Why the machine stops with a fault. -/
inductive Fault where
  /-- Raised by GENCODES only, when the traversal of R181 has visited 511 nodes and its stack is not empty: the
  NODE entries reachable from ROOT are no tree. No run reaches such a state, since only BUILD writes NODE and
  ROOT while TREE_VALID is 1 (R43, R249); there the pseudocode would not end. Safe: the model stops. Log
  entry 3. -/
  | traversalDiverges
  deriving DecidableEq, Repr

/-- Why an instruction has no meaning. -/
inductive Refusal where
  /-- Raised by an arm of `exec` whose instruction has no meaning yet; no arm is left. Safe: the model stops. -/
  | notModelled (mnemonic : String)
  deriving DecidableEq, Repr

/-- One entry of the NODE memory (R40). -/
structure NodeEntry where
  /-- true for a leaf, false for an internal node. -/
  leaf : Bool
  /-- The leaf's Symbol; 0 in an internal node. -/
  sym : Byte
  /-- The node's frequency. -/
  freq : Freq
  /-- Index of the left child; 0 in a leaf. -/
  left : NodeIdx
  /-- Index of the right child; 0 in a leaf. -/
  right : NodeIdx
  deriving DecidableEq, Repr

/-- One entry of the CODE table (R46): `dig[0]`, the digit nearest the root, is the most significant bit. -/
structure CodeEntry where
  /-- The number of digits; 0 means that the symbol has no entry. -/
  len : BitVec 8
  /-- `dig[0 .. 254]`, first digit in the most significant bit. -/
  dig : BitVec 255
  deriving DecidableEq, Repr

/-- What the entries a memory does not list read as. -/
inductive Fill where
  /-- Every bit 0. -/
  | zero
  /-- An unspecified value for each entry, stable until the entry is written: draw number `tag` of
  `Config.freeBits` (U1, U2). -/
  | free (tag : Nat)
  deriving DecidableEq, Repr

/-- A memory indexed by entry number (R51, R84): what its unlisted entries read as, and its listed entries, keys
strictly rising. With `α = Byte` an element of `cells` is a `Host.Cell`. -/
structure Memory (α : Type) where
  fill : Fill
  cells : List (Nat × α)
  deriving DecidableEq, Repr

/-- The sequencer state `SEQ` (R30). `RUN(op)` is held as the accepted command word, of which `op` is
`decode_cmd` (log entry 4). MODEL: `polls` counts the STATUS reads made in this run, on which depends how far the
run has come when the host looks (log entry 7). -/
inductive Seq where
  | idle
  | run (w : Word) (polls : Nat)
  deriving DecidableEq, Repr

/-- A request on the host bus (R71): `req_write`, `req_addr`, `req_wdata`. -/
structure BusRequest where
  write : Bool
  addr : Addr
  wdata : Word
  deriving DecidableEq, Repr

/-- A response on the host bus (R71): `rsp_rdata`, `rsp_err`. The data of the response to a successful write is a
free value (log entry 23). -/
structure BusResponse where
  rdata : Word
  err : Bool
  deriving DecidableEq, Repr

/-- What the world outside can do to the block: present a bus request (R71), or assert `rst` for one clock edge
(R320). -/
inductive HostAct where
  | request (r : BusRequest)
  | reset
  deriving DecidableEq, Repr

/-- One act of the host and where it lands: `during` says that it comes while the running command, if there is
one, still runs; otherwise the command ends first. How many cycles a command takes is unspecified (R299, R340),
so this is the host's choice, as data (log entry 5). -/
structure HostInput where
  during : Bool
  act : HostAct
  deriving DecidableEq, Repr

/-- The hidden working state (R31, R48, R52 to R56). Each command sets what it uses before it reads it. The
positions of R31 are numbers, since none of them can wrap (R271). -/
structure Work where
  /-- `i`, the input byte index. -/
  i : Nat
  /-- `k`, the input bit index. -/
  k : Nat
  /-- `j`, the output byte index. -/
  j : Nat
  /-- `total`, the bits produced. -/
  total : Nat
  /-- `CUR`, the walk position (R54). -/
  cur : NodeIdx
  /-- `d`, the digit index. -/
  d : Nat
  /-- `n`, the symbols found. -/
  n : Nat
  /-- `ACC`, the output byte being assembled (R53). -/
  acc : Byte
  /-- `NB`, the number of digits in `ACC`, 0 to 7 (R53). -/
  nb : Nat
  /-- `HEAP[0 .. HEAP_N-1]`; `HEAP_N` is the length (R48, R142). -/
  heap : List NodeIdx
  /-- The traversal stack of GENCODES, top first (R55). -/
  stack : List (NodeIdx × List Bool)
  /-- The analyzer's symbol index: a symbol and its SYMTAB position (R56). -/
  symIndex : List (Byte × Nat)
  deriving DecidableEq, Repr

/-- The working state of the reset state. R57 leaves every part of it unspecified; no command reads a part that
it has not set (log entry 6). -/
def Work.init : Work :=
  { i := 0, k := 0, j := 0, total := 0, cur := 0, d := 0, n := 0, acc := 0, nb := 0, heap := [], stack := [],
    symIndex := [] }

/-- The whole state (R21), the configuration beside it, and the model's own fields `host`, `rsp` and
`draws`. STATUS.BUSY is not stored: it is 1 exactly when `seq` is `run` (R30). -/
structure State where
  /-- The configuration, which no step changes (R21, R58). -/
  config : Config
  /-- SEQ (R30). -/
  seq : Seq
  /-- STATUS.DONE (R32, R36). -/
  done : Bool
  /-- STATUS.ERR. -/
  err : Bool
  /-- STATUS.HAZ. -/
  haz : Bool
  /-- STATUS.TREE_VALID. -/
  treeValid : Bool
  /-- STATUS.CODES_VALID. -/
  codesValid : Bool
  /-- ERRCODE (R37). -/
  errCode : BitVec 8
  /-- ERRINFO (R38). -/
  errInfo : Word
  /-- IN_LEN (R23). -/
  inLen : Word
  /-- BITCOUNT (R24). -/
  bitCount : Word
  /-- SYMCOUNT (R25). -/
  symCount : Word
  /-- OUT_LEN (R26). -/
  outLen : Word
  /-- NSYM (R27). -/
  nSym : Word
  /-- ROOT (R28). -/
  root : NodeIdx
  /-- NNODES (R29). -/
  nNodes : BitVec 10
  /-- SYMTAB[0 .. 255] (R44). -/
  symtab : Memory Byte
  /-- FREQTAB[0 .. 255] (R45). -/
  freqtab : Memory Word
  /-- NODE[0 .. 510] (R40). -/
  node : Memory NodeEntry
  /-- CODE[0 .. 255] (R46). -/
  code : Memory CodeEntry
  /-- IBUF[0 .. IBUF_BYTES-1] (R49). -/
  ibuf : Memory Byte
  /-- OBUF[0 .. OBUF_BYTES-1] (R50). -/
  obuf : Memory Byte
  /-- The hidden working state (R31, R48, R52 to R56). -/
  work : Work
  /-- MODEL. What the host does next, first act first; empty when it does nothing more. -/
  host : List HostInput
  /-- MODEL. The response channel (R71): the response to the last request, none before the first one and after
  reset. -/
  rsp : Option BusResponse
  /-- MODEL. How many free values have been drawn. -/
  draws : Nat
  deriving DecidableEq, Repr

/-- A memory none of whose entries is specified, draw number `tag`. -/
def Memory.unspecified {α : Type} (tag : Nat) : Memory α := { fill := .free tag, cells := [] }

/-- The reset state (R57, R320) of a machine with this configuration, with draw numbers from `draws` on for the
six memories, whose entries are unspecified, and with this much left of what the host does. -/
def State.resetWith (config : Config) (draws : Nat) (host : List HostInput) : State :=
  { config
    seq := .idle
    done := false
    err := false
    haz := false
    treeValid := false
    codesValid := false
    errCode := 0
    errInfo := 0
    inLen := 0
    bitCount := 0
    symCount := 0
    outLen := 0
    nSym := 0
    root := 0
    nNodes := 0
    symtab := Memory.unspecified draws
    freqtab := Memory.unspecified (draws + 1)
    node := Memory.unspecified (draws + 2)
    code := Memory.unspecified (draws + 3)
    ibuf := Memory.unspecified (draws + 4)
    obuf := Memory.unspecified (draws + 5)
    work := Work.init
    host
    rsp := none
    draws := draws + 6 }

/-- The machine right after reset (R57), with the default capacities (R8) and a host that has not acted yet
(R322). -/
def State.reset : State := State.resetWith Config.default 0 []

end Sys2Proof.Machine
end

