-- ==== Sys2Proof/Machine/Ops.lean ====
section
/-! DEFINITION. The shared operations: reading and writing one entry of a memory (spec/20_memory.md R70, R84),
how a command starts, completes and fails (spec/46_command_control.md R243 to R245, spec/60_exceptions.md R290),
and the failure post-state of the commands that write OBUF (R292). -/

namespace Sys2Proof.Machine

/-- The outcome of a step of this machine. -/
abbrev Result := Host.Outcome State Fault Refusal

/-! ### Memories -/

/-- The bits an unlisted entry reads as: the ONE place that says it. -/
def Fill.bits (f : Fill) (w a : Nat) : BitVec w :=
  match f with
  | .zero => 0
  | .free tag => Config.freeBits w tag a

/-- A NODE entry from its 67 bits: `leaf`, `sym`, `freq`, `left`, `right` from the low end (the widths of R40). -/
def NodeEntry.ofBits (b : BitVec 67) : NodeEntry :=
  { leaf := b.getLsbD 0, sym := b.extractLsb' 1 8, freq := b.extractLsb' 9 40, left := b.extractLsb' 49 9,
    right := b.extractLsb' 58 9 }

/-- A CODE entry from its 263 bits: `len` in the low 8, the digits above (the widths of R46). -/
def CodeEntry.ofBits (b : BitVec 263) : CodeEntry :=
  { len := b.extractLsb' 0 8, dig := b.extractLsb' 8 255 }

/-- What an unlisted entry of SYMTAB, IBUF or OBUF reads as. -/
def byteFill (f : Fill) (a : Nat) : Byte := f.bits 8 a

/-- What an unlisted entry of FREQTAB reads as. -/
def wordFill (f : Fill) (a : Nat) : Word := f.bits 32 a

/-- What an unlisted entry of NODE reads as. -/
def nodeFill (f : Fill) (a : Nat) : NodeEntry := NodeEntry.ofBits (f.bits 67 a)

/-- What an unlisted entry of CODE reads as. -/
def codeFill (f : Fill) (a : Nat) : CodeEntry := CodeEntry.ofBits (f.bits 263 a)

/-- The listed value of entry `a`, if there is one. -/
def cellAt {α : Type} (a : Nat) : List (Nat × α) → Option α
  | [] => none
  | (b, v) :: t => if a = b then some v else cellAt a t

/-- The list with entry `a` set to `v`, keys kept rising. -/
def insertCell {α : Type} (a : Nat) (v : α) : List (Nat × α) → List (Nat × α)
  | [] => [(a, v)]
  | (b, w) :: t =>
    if a < b then (a, v) :: (b, w) :: t
    else if a = b then (a, v) :: t
    else (b, w) :: insertCell a v t

/-- The list without entry `a`. -/
def eraseCell {α : Type} (a : Nat) : List (Nat × α) → List (Nat × α)
  | [] => []
  | (b, w) :: t => if a = b then eraseCell a t else (b, w) :: eraseCell a t

/-- Read entry `a`, where `view` says what an unlisted entry reads as. -/
def Memory.get {α : Type} (view : Fill → Nat → α) (m : Memory α) (a : Nat) : α :=
  match cellAt a m.cells with
  | some v => v
  | none => view m.fill a

/-- Write entry `a`. In a zero-filled memory a zero is not listed, so that equal contents are equal data. -/
def Memory.put {α : Type} [DecidableEq α] (view : Fill → Nat → α) (m : Memory α) (a : Nat) (v : α) : Memory α :=
  if m.fill = .zero ∧ v = view .zero a then { m with cells := eraseCell a m.cells }
  else { m with cells := insertCell a v m.cells }

/-- The keys of the list rise strictly. -/
def risingCells {α : Type} : List (Nat × α) → Bool
  | [] => true
  | [_] => true
  | x :: y :: t => x.1 < y.1 && risingCells (y :: t)

/-- The canonical form of a memory of `cap` entries: keys rise strictly and are below `cap`, and a zero-filled
memory lists no zero. -/
def Memory.wf {α : Type} [DecidableEq α] (view : Fill → Nat → α) (cap : Nat) (m : Memory α) : Bool :=
  risingCells m.cells && m.cells.all (fun c => decide (c.1 < cap)) &&
    (decide (m.fill ≠ .zero) || m.cells.all (fun c => decide (c.2 ≠ view .zero c.1)))

/-- Entry `a` of SYMTAB, IBUF or OBUF. -/
def Memory.byte (m : Memory Byte) (a : Nat) : Byte := m.get byteFill a

/-- Write entry `a` of SYMTAB, IBUF or OBUF. -/
def Memory.setByte (m : Memory Byte) (a : Nat) (v : Byte) : Memory Byte := m.put byteFill a v

/-- Entry `a` of FREQTAB. -/
def Memory.word (m : Memory Word) (a : Nat) : Word := m.get wordFill a

/-- Write entry `a` of FREQTAB. -/
def Memory.setWord (m : Memory Word) (a : Nat) (v : Word) : Memory Word := m.put wordFill a v

/-- Entry `k` of NODE. -/
def Memory.node (m : Memory NodeEntry) (k : Nat) : NodeEntry := m.get nodeFill k

/-- Write entry `k` of NODE. -/
def Memory.setNode (m : Memory NodeEntry) (k : Nat) (e : NodeEntry) : Memory NodeEntry := m.put nodeFill k e

/-- Entry `s` of CODE. -/
def Memory.code (m : Memory CodeEntry) (s : Nat) : CodeEntry := m.get codeFill s

/-- Write entry `s` of CODE. -/
def Memory.setCode (m : Memory CodeEntry) (s : Nat) (e : CodeEntry) : Memory CodeEntry := m.put codeFill s e

/-- The CODE table in which every entry is absent, `len = 0` and all digits 0 (R181). -/
def noCodes : Memory CodeEntry := { fill := .zero, cells := [] }

/-! ### How a command starts and ends -/

/-- The ten error kinds (R281). -/
inductive ErrKind where
  | emptyInput
  | heapUnderflow
  | missingCodeForSymbol
  | truncatedOrCorruptBitstream
  | illegalCommand
  | badParameter
  | duplicateSymbol
  | noTree
  | noCodes
  | outputOverflow
  deriving DecidableEq, Repr

/-- The ERRCODE of an error kind (R281). -/
def ErrKind.code : ErrKind → BitVec 8
  | .emptyInput => 0x01
  | .heapUnderflow => 0x02
  | .missingCodeForSymbol => 0x03
  | .truncatedOrCorruptBitstream => 0x04
  | .illegalCommand => 0x10
  | .badParameter => 0x11
  | .duplicateSymbol => 0x12
  | .noTree => 0x13
  | .noCodes => 0x14
  | .outputOverflow => 0x15

/-- How a loop of a command's pseudocode ends: it runs out, or it executes `raise E(info)`. The positions it has
reached stand in `st` either way. -/
inductive Ended (σ : Type) where
  | done (st : σ)
  | raised (st : σ) (e : ErrKind) (info : Word)
  deriving DecidableEq, Repr

/-- STATUS.BUSY, 1 exactly when SEQ is RUN (R30, R32). -/
def State.busy (s : State) : Bool :=
  match s.seq with
  | .idle => false
  | .run _ _ => true

/-- Acceptance of the command word `w` (R245): `BUSY <- 1`, `DONE <- 0`, `SEQ <- RUN(c)`. The free values that say how
fast this run is seen to advance are a draw of their own (log entry 7). -/
def State.accept (s : State) (w : Word) : State :=
  { s with seq := .run w 0, done := false, draws := s.draws + 1 }

/-- `complete` (R243): `BUSY <- 0`, `DONE <- 1`, `SEQ <- IDLE`. -/
def State.complete (s : State) : State := { s with seq := .idle, done := true }

/-- Taking an exception, `raise E(info)` (R244, R290): ERRCODE, ERRINFO and ERR are written, `BUSY <- 0` and
`SEQ <- IDLE`; DONE stays as acceptance left it. The failure post-state of the command (R292) is applied to `s`
before. -/
def State.raise (s : State) (e : ErrKind) (info : Word) : State :=
  { s with errCode := e.code, errInfo := info, err := true, seq := .idle }

/-- Leaving the error state and the session (R250, R300): what CLEAR does to the registers and flags before it
completes. -/
def State.discardSession (s : State) : State :=
  { s with
    treeValid := false, codesValid := false, err := false, haz := false, errCode := 0, errInfo := 0, inLen := 0,
    bitCount := 0, symCount := 0, outLen := 0, nSym := 0, root := 0, nNodes := 0 }

/-- The failure post-state of ENCODE, DECODE.B and DECODE.S (R292): `OUT_LEN <- 0` and every byte of OBUF
unspecified, a fresh draw. -/
def State.loseOutput (s : State) : State :=
  { s with outLen := 0, obuf := Memory.unspecified s.draws, draws := s.draws + 1 }

/-- A failing ENCODE, DECODE.B or DECODE.S: R292, then R290. -/
def State.failTransfer (s : State) (e : ErrKind) (info : Word) : State := s.loseOutput.raise e info

/-- What BUILD does first, in every case (R161): `TREE_VALID <- 0`, `CODES_VALID <- 0`. -/
def State.invalidate (s : State) : State := { s with treeValid := false, codesValid := false }

end Sys2Proof.Machine
end

