-- ==== Sys2Proof/Machine/Operands.lean ====
section
/-! DEFINITION. The operand forms: the entries a command reads (spec/20_memory.md R82, R84), the locations of the
host bus and their addresses (R78), and the words of the table windows (spec/30_encoding.md R110, R112). -/

namespace Sys2Proof.Machine

/-! ### Operands of the commands -/

/-- Bit `k` of the packed input, `inbit(k)` (R82): bit `7 - (k & 7)` of `IBUF[k >> 3]`. -/
def State.inbit (s : State) (k : Nat) : Bool := (s.ibuf.byte (k / 8)).getLsbD (7 - k % 8)

/-- Digit `i` of a code (R46): false for 0, true for 1. -/
def CodeEntry.digit (c : CodeEntry) (i : Nat) : Bool := c.dig.getMsbD i

/-- The digits as stored in a CODE entry: the first in the most significant bit, 0 beyond the last. -/
def digitBits : List Bool → BitVec 255
  | [] => 0
  | b :: t => (if b then BitVec.twoPow 255 254 else 0) ||| (digitBits t >>> 1)

/-- The CODE entry of a digit string (R181). -/
def CodeEntry.ofDigits (ds : List Bool) : CodeEntry := { len := BitVec.ofNat 8 ds.length, dig := digitBits ds }

/-! ### The windows of NODE and CODE -/

/-- Word `w` of a NODE entry (R110). -/
def NodeEntry.window (e : NodeEntry) (w : Nat) : Word :=
  match w with
  | 0 => e.freq.extractLsb' 0 32
  | 1 => (e.freq.extractLsb' 32 8).setWidth 32
  | 2 => (0 : BitVec 16) ++ (e.sym ++ ((0 : BitVec 7) ++ BitVec.ofBool e.leaf))
  | 3 => (0 : BitVec 7) ++ (e.right ++ ((0 : BitVec 7) ++ e.left))
  | _ => 0

/-- Word `w` of a CODE entry (R112): `len` in word 0, digit `i` in bit `31 - (i & 31)` of word `1 + (i >> 5)`, 0 in
words 9 to 15 and in bit 0 of word 8. -/
def CodeEntry.window (c : CodeEntry) (w : Nat) : Word :=
  if w = 0 then c.len.setWidth 32
  else if w ≤ 8 then (c.dig ++ (0 : BitVec 1)).extractLsb' (32 * (8 - w)) 32
  else 0

/-! ### The locations of the host bus -/

/-- The locations of the address map (R78). -/
inductive Loc where
  | id
  | cmd
  | status
  | errCode
  | errInfo
  | inLen
  | bitCount
  | symCount
  | outLen
  | nSym
  | root
  | nNodes
  | ibufCap
  | obufCap
  | symtab (i : Nat)
  | freqtab (i : Nat)
  | node (k w : Nat)
  | code (s w : Nat)
  | ibuf (i : Nat)
  | obuf (j : Nat)
  deriving DecidableEq, Repr

/-- The register at word `n` of the register block, addresses 0x000 to 0x034 (R78). -/
def regAt (n : Nat) : Option Loc :=
  match n with
  | 0 => some .id
  | 1 => some .cmd
  | 2 => some .status
  | 3 => some .errCode
  | 4 => some .errInfo
  | 5 => some .inLen
  | 6 => some .bitCount
  | 7 => some .symCount
  | 8 => some .outLen
  | 9 => some .nSym
  | 10 => some .root
  | 11 => some .nNodes
  | 12 => some .ibufCap
  | 13 => some .obufCap
  | _ => none

/-- The location at a byte address (R75, R76, R78): none where the address is misaligned or unmapped. -/
def locate (c : Config) (addr : Addr) : Option Loc :=
  let a := addr.toNat
  if a % 4 ≠ 0 then none
  else if a < 0x400 then regAt (a / 4)
  else if a < 0x800 then some (.symtab ((a - 0x400) / 4))
  else if a < 0xC00 then some (.freqtab ((a - 0x800) / 4))
  else if a < 0x2000 then none
  else if a < 0x3FF0 then some (.node ((a - 0x2000) / 16) ((a - 0x2000) / 4 % 4))
  else if a < 0x4000 then none
  else if a < 0x8000 then some (.code ((a - 0x4000) / 64) ((a - 0x4000) / 4 % 16))
  else if a < 0x1000000 then none
  else if a < 0x8000000 then
    (if (a - 0x1000000) / 4 < c.ibufBytes then some (.ibuf ((a - 0x1000000) / 4)) else none)
  else if (a - 0x8000000) / 4 < c.obufBytes then some (.obuf ((a - 0x8000000) / 4))
  else none

/-- The byte address of a location, `addr(loc)` (R78, R117). -/
def Loc.addr : Loc → Addr
  | .id => 0x000
  | .cmd => 0x004
  | .status => 0x008
  | .errCode => 0x00C
  | .errInfo => 0x010
  | .inLen => 0x014
  | .bitCount => 0x018
  | .symCount => 0x01C
  | .outLen => 0x020
  | .nSym => 0x024
  | .root => 0x028
  | .nNodes => 0x02C
  | .ibufCap => 0x030
  | .obufCap => 0x034
  | .symtab i => BitVec.ofNat 28 (0x400 + 4 * i)
  | .freqtab i => BitVec.ofNat 28 (0x800 + 4 * i)
  | .node k w => BitVec.ofNat 28 (0x2000 + 16 * k + 4 * w)
  | .code s w => BitVec.ofNat 28 (0x4000 + 64 * s + 4 * w)
  | .ibuf i => BitVec.ofNat 28 (0x1000000 + 4 * i)
  | .obuf j => BitVec.ofNat 28 (0x8000000 + 4 * j)

/-- The location exists on a machine with this configuration (R78). -/
def Loc.mapped (c : Config) : Loc → Bool
  | .symtab i => i < 256
  | .freqtab i => i < 256
  | .node k w => k < 511 && w < 4
  | .code s w => s < 256 && w < 16
  | .ibuf i => i < c.ibufBytes
  | .obuf j => j < c.obufBytes
  | _ => true

/-- The host may write the location (R74, R78); CMD counts, though it stores nothing. -/
def Loc.writable : Loc → Bool
  | .cmd | .inLen | .bitCount | .symCount | .nSym | .symtab _ | .freqtab _ | .ibuf _ => true
  | _ => false

/-- The bits of a written word that a location stores and a read returns (R77, R108). -/
def Loc.keep (l : Loc) (v : Word) : Word :=
  match l with
  | .symtab _ => (v.setWidth 8).setWidth 32
  | .ibuf _ => (v.setWidth 8).setWidth 32
  | _ => v

end Sys2Proof.Machine
end

