-- ==== Sys2Proof/Machine/Analyze.lean ====
section
/-! DEFINITION. The frequency analyzer: the ANALYZE command (spec/40_analyze.md). -/

namespace Sys2Proof.Machine

/-- What the loop of ANALYZE works on: SYMTAB, FREQTAB, `n` and the symbol index (R56, R131). -/
structure AnalyzeLoop where
  symtab : Memory Byte
  freqtab : Memory Word
  n : Nat
  index : List (Byte × Nat)
  deriving DecidableEq, Repr

/-- The SYMTAB position of a symbol in the symbol index (R56, R134). -/
def positionOf (b : Byte) : List (Byte × Nat) → Option Nat
  | [] => none
  | (c, p) :: t => if b = c then some p else positionOf b t

/-- The loop body of ANALYZE for one input byte (R131). -/
def analyzeByte (b : Byte) (st : AnalyzeLoop) : AnalyzeLoop :=
  match positionOf b st.index with
  | some p => { st with freqtab := st.freqtab.setWord p (st.freqtab.word p + 1) }
  | none =>
    { symtab := st.symtab.setByte st.n b, freqtab := st.freqtab.setWord st.n 1, n := st.n + 1,
      index := st.index ++ [(b, st.n)] }

/-- The loop of ANALYZE over `rem` input bytes from index `i` on (R131). -/
def analyzeLoop (ibuf : Memory Byte) : Nat → Nat → AnalyzeLoop → AnalyzeLoop
  | 0, _, st => st
  | rem + 1, i, st => analyzeLoop ibuf rem (i + 1) (analyzeByte (ibuf.byte i) st)

/-- What ANALYZE has done at its end, before `complete` (R131). -/
def State.analyzed (s : State) : State :=
  let st := analyzeLoop s.ibuf s.inLen.toNat 0
    { symtab := s.symtab, freqtab := s.freqtab, n := 0, index := [] }
  { s with
    symtab := st.symtab, freqtab := st.freqtab, nSym := BitVec.ofNat 32 st.n
    work := { s.work with i := s.inLen.toNat, n := st.n, symIndex := st.index } }

/-- ANALYZE (R131, R132, R298). -/
def execAnalyze (s : State) : Result :=
  if s.config.ibufBytes < s.inLen.toNat then .next (s.raise .badParameter s.inLen)
  else .next s.analyzed.complete

end Sys2Proof.Machine
end

