-- ==== Sys2Proof/Machine/MinHeap.lean ====
section
/-! DEFINITION. The priority queue inside the tree builder (spec/41_minheap.md): the order `less` and the four
operations, on the array `HEAP[0 .. HEAP_N-1]`, a list of node indices whose length is HEAP_N (R142). -/

namespace Sys2Proof.Machine

/-- `less(a, b)` (R141): ascending frequency, then ascending node index. -/
def less (node : Memory NodeEntry) (a b : NodeIdx) : Bool :=
  decide ((node.node a.toNat).freq < (node.node b.toNat).freq) ||
    (decide ((node.node a.toNat).freq = (node.node b.toNat).freq) && decide (a < b))

/-- `HEAP[p]`, for a position below HEAP_N. -/
def heapAt (h : List NodeIdx) (p : Nat) : NodeIdx := h.getD p 0

/-- `swap HEAP[p], HEAP[q]` (R143, R144). -/
def swapAt (h : List NodeIdx) (p q : Nat) : List NodeIdx := (h.set p (heapAt h q)).set q (heapAt h p)

/-- The lesser of position `m` and position `c`, where `c` counts only below HEAP_N: one of the two tests of
`siftDown` (R143). -/
def lesserPos (node : Memory NodeEntry) (h : List NodeIdx) (c m : Nat) : Nat :=
  if c < h.length ∧ less node (heapAt h c) (heapAt h m) = true then c else m

/-- `siftDown(p)` (R143), with at most `fuel` rounds; HEAP_N rounds are enough, since `p` rises each round. -/
def siftDown (node : Memory NodeEntry) : Nat → List NodeIdx → Nat → List NodeIdx
  | 0, h, _ => h
  | fuel + 1, h, p =>
    let m := lesserPos node h (2 * p + 2) (lesserPos node h (2 * p + 1) p)
    if m = p then h else siftDown node fuel (swapAt h p m) m

/-- `siftUp(p)` (R144), with at most `fuel` rounds; `p` rounds are enough, since `p` falls each round. -/
def siftUp (node : Memory NodeEntry) : Nat → List NodeIdx → Nat → List NodeIdx
  | 0, h, _ => h
  | fuel + 1, h, p =>
    if 0 < p ∧ less node (heapAt h p) (heapAt h ((p - 1) / 2)) = true then
      siftUp node fuel (swapAt h p ((p - 1) / 2)) ((p - 1) / 2)
    else h

/-- `siftDown(p)` for `p` from `c - 1` down to 0 (R145). -/
def heapify (node : Memory NodeEntry) : Nat → List NodeIdx → List NodeIdx
  | 0, h => h
  | p + 1, h => heapify node p (siftDown node h.length h p)

/-- `buildFromUnordered(nodes)` (R145). -/
def buildFromUnordered (node : Memory NodeEntry) (nodes : List NodeIdx) : List NodeIdx :=
  heapify node (nodes.length / 2) nodes

/-- `insert(k)` (R146). -/
def heapInsert (node : Memory NodeEntry) (h : List NodeIdx) (k : NodeIdx) : List NodeIdx :=
  siftUp node h.length (h ++ [k]) h.length

/-- `extractMin()` (R147): the node returned and the heap left, or none on an empty heap, where it raises
HeapUnderflow. -/
def extractMin (node : Memory NodeEntry) (h : List NodeIdx) : Option (NodeIdx × List NodeIdx) :=
  match h with
  | [] => none
  | r :: _ =>
    let left := (h.set 0 (heapAt h (h.length - 1))).dropLast
    some (r, siftDown node left.length left 0)

/-- `isSingleton()` (R148). -/
def isSingleton (h : List NodeIdx) : Bool := h.length == 1

end Sys2Proof.Machine
end

