-- ==== Sys2Proof/Machine/Build.lean ====
section
/-! DEFINITION. The tree builder: the BUILD command (spec/42_build.md). -/

namespace Sys2Proof.Machine

/-- What the merge loop of BUILD works on: NODE, NNODES and the heap (R161). -/
structure BuildLoop where
  node : Memory NodeEntry
  nNodes : Nat
  heap : List NodeIdx
  deriving DecidableEq, Repr

/-- The least `q < n` whose symbol stands at an earlier position too (R161, R162). -/
def firstDuplicate (symtab : Memory Byte) (n : Nat) : Option Nat :=
  (List.range n).find? fun q => (List.range q).any fun p => symtab.byte p == symtab.byte q

/-- The leaf made from position `p` of the table (R163). -/
def leafEntry (symtab : Memory Byte) (freqtab : Memory Word) (p : Nat) : NodeEntry :=
  { leaf := true, sym := symtab.byte p, freq := (freqtab.word p).setWidth 40, left := 0, right := 0 }

/-- The leaves at `NODE[0 .. n-1]` (R161, R163). -/
def placeLeaves (symtab : Memory Byte) (freqtab : Memory Word) : Nat → Memory NodeEntry → Memory NodeEntry
  | 0, node => node
  | p + 1, node => (placeLeaves symtab freqtab p node).setNode p (leafEntry symtab freqtab p)

/-- The internal node that merges `a`, extracted first, and `b`, extracted second (R164, R165). -/
def mergeEntry (node : Memory NodeEntry) (a b : NodeIdx) : NodeEntry :=
  { leaf := false, sym := 0, freq := (node.node a.toNat).freq + (node.node b.toNat).freq, left := a, right := b }

/-- The merge loop of BUILD (R161), with at most `fuel` rounds; it runs NSYM - 1 of them (R167). -/
def mergeLoop : Nat → BuildLoop → Ended BuildLoop
  | 0, st => .done st
  | fuel + 1, st =>
    if isSingleton st.heap then .done st
    else
      match extractMin st.node st.heap with
      | none => .raised st .heapUnderflow 0
      | some (a, h1) =>
        match extractMin st.node h1 with
        | none => .raised { st with heap := h1 } .heapUnderflow 0
        | some (b, h2) =>
          let node := st.node.setNode st.nNodes (mergeEntry st.node a b)
          mergeLoop fuel
            { node, nNodes := st.nNodes + 1, heap := heapInsert node h2 (BitVec.ofNat 9 st.nNodes) }

/-- The leaves placed and the heap built over them, before the merge loop (R161). -/
def State.leavesPlaced (s : State) : BuildLoop :=
  let n := s.nSym.toNat
  let node := placeLeaves s.symtab s.freqtab n s.node
  { node, nNodes := n, heap := buildFromUnordered node ((List.range n).map (BitVec.ofNat 9)) }

/-- How a BUILD with a legal table ends (R161): the root is read from the heap (R167). On HeapUnderflow, which
R170 shows unreachable, NODE, NNODES, ROOT and the heap are unspecified (R292), each a free value of its own: at
width 9 the heap's entries have the keys 0 to 255, its length the key 256 and ROOT the key 257 (log entry 2). -/
def State.merged (s : State) : Ended BuildLoop → State
  | .done st =>
    { s with
      node := st.node, nNodes := BitVec.ofNat 10 st.nNodes, root := heapAt st.heap 0, treeValid := true
      work := { s.work with heap := st.heap } }.complete
  | .raised _ e info =>
    { s with
      node := Memory.unspecified s.draws, nNodes := Config.freeBits 10 s.draws 0
      root := Config.freeBits 9 s.draws 257, draws := s.draws + 1
      work := { s.work with
        heap := (List.range (min 256 (Config.freeBits 9 s.draws 256).toNat)).map
          (Config.freeBits 9 s.draws) } }.raise e info

/-- BUILD after the two validity flags are cleared (R161, R298). -/
def State.buildTree (s : State) : State :=
  if 256 < s.nSym.toNat then s.raise .badParameter s.nSym
  else if s.nSym = 0 then s.raise .emptyInput 0
  else
    match firstDuplicate s.symtab s.nSym.toNat with
    | some q => s.raise .duplicateSymbol ((BitVec.ofNat 32 q <<< 8) ||| (s.symtab.byte q).setWidth 32)
    | none => s.merged (mergeLoop s.nSym.toNat s.leavesPlaced)

/-- BUILD (R161). -/
def execBuild (s : State) : Result := .next s.invalidate.buildTree

end Sys2Proof.Machine
end

