-- ==== Sys2Proof/Machine/Control.lean ====
section
/-! DEFINITION. The CLEAR command (spec/46_command_control.md R250). -/

namespace Sys2Proof.Machine

/-- CLEAR (R250): it cannot fail; the memories keep their contents. -/
def execClear (s : State) : Result := .next s.discardSession.complete

end Sys2Proof.Machine
end

