-- ==== Sys2Proof/Machine/GenCodes.lean ====
section
/-! DEFINITION. The code-table generator: the GENCODES command (spec/43_gencodes.md). -/

namespace Sys2Proof.Machine

/-- What the traversal of GENCODES works on: CODE, the stack, top first, and the digit index (R55, R181). -/
structure TraverseLoop where
  code : Memory CodeEntry
  stack : List (NodeIdx × List Bool)
  d : Nat
  deriving DecidableEq, Repr

/-- The visit of the pair popped from the stack (R181): a leaf records its path, an internal node pushes its
right child, then its left, which is popped first (R183). -/
def visit (node : Memory NodeEntry) (k : NodeIdx) (path : List Bool) (st : TraverseLoop) : TraverseLoop :=
  let e := node.node k.toNat
  if e.leaf then { st with code := st.code.setCode e.sym.toNat (CodeEntry.ofDigits path), d := path.length }
  else { st with stack := (e.left, path ++ [false]) :: (e.right, path ++ [true]) :: st.stack }

/-- The traversal loop (R181), with at most `fuel` visits; none when the stack is not empty after them. -/
def traverse (node : Memory NodeEntry) : Nat → TraverseLoop → Option TraverseLoop
  | fuel, st =>
    match st.stack with
    | [] => some st
    | (k, path) :: rest =>
      match fuel with
      | 0 => none
      | fuel + 1 => traverse node fuel (visit node k path { st with stack := rest })

/-- The code table generated from the tree at ROOT (R181, R184): in the single-leaf tree the one symbol gets the
code "0". At most 511 visits (R249). -/
def State.traversed (s : State) : Option TraverseLoop :=
  let e := s.node.node s.root.toNat
  if e.leaf then
    some { code := noCodes.setCode e.sym.toNat (CodeEntry.ofDigits [false]), stack := [], d := 1 }
  else traverse s.node Config.maxNodes { code := noCodes, stack := [(s.root, [])], d := 0 }

/-- GENCODES (R181). -/
def execGencodes (s : State) : Result :=
  if s.treeValid = false then .next (s.raise .noTree 0)
  else
    match s.traversed with
    | none => .fault .traversalDiverges
    | some st =>
      .next { s with
        code := st.code, codesValid := true, work := { s.work with stack := st.stack, d := st.d } }.complete

end Sys2Proof.Machine
end

