-- ==== Sys2Proof/Machine/Pack.lean ====
section
/-! DEFINITION. The bit-packer: the ENCODE command (spec/44_encode.md). -/

namespace Sys2Proof.Machine

/-- What the loops of ENCODE work on (R196, R197): OBUF, ACC, NB, `j`, `total`, and the indices `i` and `d`. -/
structure PackLoop where
  obuf : Memory Byte
  acc : Byte
  nb : Nat
  j : Nat
  total : Nat
  i : Nat
  d : Nat
  deriving DecidableEq, Repr

/-- Place one digit (R196, R197): at bit `7 - NB` of ACC, which is written out when it is full. -/
def packDigit (digit : Bool) (st : PackLoop) : PackLoop :=
  let acc := st.acc ||| ((BitVec.ofBool digit).setWidth 8 <<< (7 - st.nb))
  if st.nb = 7 then
    { st with obuf := st.obuf.setByte st.j acc, j := st.j + 1, acc := 0, nb := 0, total := st.total + 1
              d := st.d + 1 }
  else { st with acc, nb := st.nb + 1, total := st.total + 1, d := st.d + 1 }

/-- The inner loop of ENCODE (R196): `rem` digits of a code from the digit index on. -/
def packCode (c : CodeEntry) : Nat → PackLoop → PackLoop
  | 0, st => st
  | rem + 1, st => packCode c rem (packDigit (c.digit st.d) st)

/-- The outer loop of ENCODE (R196) over `rem` input bytes from index `st.i` on: for each byte first
MissingCodeForSymbol (R200), then OutputOverflow (R201). -/
def packLoop (cap : Nat) (ibuf : Memory Byte) (code : Memory CodeEntry) : Nat → PackLoop → Ended PackLoop
  | 0, st => .done st
  | rem + 1, st =>
    let sym := ibuf.byte st.i
    let c := code.code sym.toNat
    if c.len = 0 then .raised st .missingCodeForSymbol ((BitVec.ofNat 32 st.i <<< 8) ||| sym.setWidth 32)
    else if 8 * cap < st.total + c.len.toNat then .raised st .outputOverflow (BitVec.ofNat 32 st.i)
    else
      let st := packCode c c.len.toNat { st with d := 0 }
      packLoop cap ibuf code rem { st with i := st.i + 1 }

/-- The last, zero-padded byte, when a partial one is left (R196, R198). -/
def flushAcc (st : PackLoop) : PackLoop :=
  if 0 < st.nb then { st with obuf := st.obuf.setByte st.j st.acc, j := st.j + 1 } else st

/-- The working state ENCODE leaves (R31, R53). -/
def PackLoop.work (st : PackLoop) (w : Work) : Work :=
  { w with i := st.i, j := st.j, total := st.total, d := st.d, acc := st.acc, nb := st.nb }

/-- How the loops of ENCODE start (R196). -/
def State.packStart (s : State) : PackLoop :=
  { obuf := s.obuf, acc := 0, nb := 0, j := 0, total := 0, i := 0, d := 0 }

/-- How ENCODE ends after its loops (R196, R292). -/
def State.packed (s : State) : Ended PackLoop → State
  | .done st =>
    let st := flushAcc st
    { s with
      obuf := st.obuf, bitCount := BitVec.ofNat 32 st.total, symCount := s.inLen
      outLen := BitVec.ofNat 32 st.j, work := st.work s.work }.complete
  | .raised st e info => { s with work := st.work s.work }.failTransfer e info

/-- ENCODE (R196, R298). -/
def execEncode (s : State) : Result :=
  if s.codesValid = false then .next (s.failTransfer .noCodes 0)
  else if s.config.ibufBytes < s.inLen.toNat then .next (s.failTransfer .badParameter s.inLen)
  else .next (s.packed (packLoop s.config.obufBytes s.ibuf s.code s.inLen.toNat s.packStart))

end Sys2Proof.Machine
end

