-- ==== Sys2Proof/Machine/Unpack.lean ====
section
/-! DEFINITION. The bit-unpacker: the DECODE.B and DECODE.S commands (spec/45_decode.md). -/

namespace Sys2Proof.Machine

/-- What the walk of DECODE works on (R216, R224): OBUF, `j`, CUR and the bit index `k`. -/
structure WalkLoop where
  obuf : Memory Byte
  j : Nat
  cur : NodeIdx
  k : Nat
  deriving DecidableEq, Repr

/-- `emit(sym, k)` (R219). -/
def emit (cap : Nat) (sym : Byte) (st : WalkLoop) : Ended WalkLoop :=
  if cap ≤ st.j then .raised st .outputOverflow (BitVec.ofNat 32 st.k)
  else .done { st with obuf := st.obuf.setByte st.j sym, j := st.j + 1 }

/-- `walk(bit, k)` in a tree whose root is internal (R220). -/
def walkInner (cap : Nat) (node : Memory NodeEntry) (root : NodeIdx) (bit : Bool) (st : WalkLoop) :
    Ended WalkLoop :=
  let at' := node.node st.cur.toNat
  let cur := if bit then at'.right else at'.left
  let e := node.node cur.toNat
  if e.leaf then
    match emit cap e.sym { st with cur } with
    | .done st => .done { st with cur := root }
    | .raised st e info => .raised st e info
  else .done { st with cur }

/-- `walk(bit, k)` in the single-leaf tree (R221): a 1 bit is no symbol's code. -/
def walkLeaf (cap : Nat) (sym : Byte) (bit : Bool) (st : WalkLoop) : Ended WalkLoop :=
  if bit then .raised st .truncatedOrCorruptBitstream (BitVec.ofNat 32 st.k) else emit cap sym st

/-- `walk(bit, k)` for bit `st.k` of the packed input, and the step to the next bit (R216, R220, R221, R224). -/
def State.walkBit (s : State) (st : WalkLoop) : Ended WalkLoop :=
  let e := s.node.node s.root.toNat
  let bit := s.inbit st.k
  match (if e.leaf then walkLeaf s.config.obufBytes e.sym bit st
         else walkInner s.config.obufBytes s.node s.root bit st) with
  | .done st => .done { st with k := st.k + 1 }
  | .raised st e info => .raised st e info

/-- The loop of DECODE.B over `rem` bits (R216). -/
def State.walkBits (s : State) : Nat → WalkLoop → Ended WalkLoop
  | 0, st => .done st
  | rem + 1, st =>
    match s.walkBit st with
    | .done st => s.walkBits rem st
    | .raised st e info => .raised st e info

/-- The loop of DECODE.S (R224), `rem = 8 * IN_LEN - k` bits being left: it ends when SYMCOUNT symbols are out and
fails when the packed bytes run out before. -/
def State.walkSyms (s : State) : Nat → WalkLoop → Ended WalkLoop
  | 0, st =>
    if st.j < s.symCount.toNat then .raised st .truncatedOrCorruptBitstream (BitVec.ofNat 32 st.k) else .done st
  | rem + 1, st =>
    if st.j < s.symCount.toNat then
      match s.walkBit st with
      | .done st => s.walkSyms rem st
      | .raised st e info => .raised st e info
    else .done st

/-- How the walk starts (R216, R224). -/
def State.walkStart (s : State) : WalkLoop := { obuf := s.obuf, j := 0, cur := s.root, k := 0 }

/-- The working state DECODE leaves (R31, R54). -/
def WalkLoop.work (st : WalkLoop) (w : Work) : Work := { w with j := st.j, k := st.k, cur := st.cur }

/-- How DECODE.B ends after its loop (R216): it fails when the last code is incomplete (R218). -/
def State.unpackedB (s : State) : Ended WalkLoop → State
  | .done st =>
    if st.cur ≠ s.root then
      { s with work := st.work s.work }.failTransfer .truncatedOrCorruptBitstream s.bitCount
    else
      { s with
        obuf := st.obuf, outLen := BitVec.ofNat 32 st.j, symCount := BitVec.ofNat 32 st.j
        work := st.work s.work }.complete
  | .raised st e info => { s with work := st.work s.work }.failTransfer e info

/-- How DECODE.S ends after its loop (R224). -/
def State.unpackedS (s : State) : Ended WalkLoop → State
  | .done st =>
    { s with
      obuf := st.obuf, outLen := BitVec.ofNat 32 st.j, bitCount := BitVec.ofNat 32 st.k
      work := st.work s.work }.complete
  | .raised st e info => { s with work := st.work s.work }.failTransfer e info

/-- DECODE.B (R216, R218, R298). -/
def execDecodeB (s : State) : Result :=
  if s.treeValid = false then .next (s.failTransfer .noTree 0)
  else if s.config.ibufBytes < s.inLen.toNat then .next (s.failTransfer .badParameter s.inLen)
  else if 8 * s.inLen.toNat < s.bitCount.toNat then
    .next (s.failTransfer .truncatedOrCorruptBitstream (BitVec.ofNat 32 (8 * s.inLen.toNat)))
  else .next (s.unpackedB (s.walkBits s.bitCount.toNat s.walkStart))

/-- DECODE.S (R224, R225, R298). -/
def execDecodeS (s : State) : Result :=
  if s.treeValid = false then .next (s.failTransfer .noTree 0)
  else if s.config.ibufBytes < s.inLen.toNat then .next (s.failTransfer .badParameter s.inLen)
  else .next (s.unpackedS (s.walkSyms (8 * s.inLen.toNat) s.walkStart))

end Sys2Proof.Machine
end

