-- ==== Sys2Proof/Machine/Dispatch.lean ====
section
/-! DEFINITION. The meaning of each command, one arm per constructor (spec/46_command_control.md R245, R247): the
state after `complete` or `raise` from the state at acceptance. -/

namespace Sys2Proof.Machine

def exec (i : Instr) (s : State) : Host.Outcome State Fault Refusal :=
  match i with
  | .analyze => Sys2Proof.Machine.execAnalyze s
  | .build => Sys2Proof.Machine.execBuild s
  | .gencodes => Sys2Proof.Machine.execGencodes s
  | .encode => Sys2Proof.Machine.execEncode s
  | .decodeB => Sys2Proof.Machine.execDecodeB s
  | .decodeS => Sys2Proof.Machine.execDecodeS s
  | .clear => Sys2Proof.Machine.execClear s

end Sys2Proof.Machine
end

