-- ==== Sys2Proof/Machine/Flags.lean ====
section
/-! DEFINITION. The status flags: the STATUS word (spec/10_state.md R32, R36), and how the flags are seen while a
command runs (spec/46_command_control.md R246). -/

namespace Sys2Proof.Machine

/-- The STATUS word (R36): BUSY, DONE, ERR, HAZ, TREE_VALID, CODES_VALID from bit 0 up; bits 31:6 read 0. -/
def statusWord (busy done err haz treeValid codesValid : Bool) : Word :=
  (0 : BitVec 26) ++ (BitVec.ofBool codesValid ++ (BitVec.ofBool treeValid ++ (BitVec.ofBool haz ++
    (BitVec.ofBool err ++ (BitVec.ofBool done ++ BitVec.ofBool busy)))))

/-- The flags that a running command writes before it ends (R32). -/
structure FlagView where
  err : Bool
  treeValid : Bool
  codesValid : Bool
  deriving DecidableEq, Repr

/-- These flags as the state holds them. -/
def State.flagView (s : State) : FlagView :=
  { err := s.err, treeValid := s.treeValid, codesValid := s.codesValid }

/-- The `n`-th of a list of views that follow `v`; the last one from there on. -/
def viewAt (v : FlagView) : List FlagView → Nat → FlagView
  | [], _ => v
  | _ :: _, 0 => v
  | u :: t, n + 1 => viewAt u t n

/-- How many of its flag writes a run has passed at the `polls`-th STATUS read. When a command writes a flag is a
matter of time (R340), so each read finds the run a free number of writes further than the read before it, 0 to 7
(log entry 7). -/
def passedWrites (draw : Nat) : Nat → Nat
  | 0 => 0
  | polls + 1 => passedWrites draw polls + (Config.freeBits 3 draw polls).toNat

end Sys2Proof.Machine
end

