-- ==== Sys2Proof/Machine/Running.lean ====
section
/-! DEFINITION. STATUS at all times, during a run too (spec/46_command_control.md R246), and the level outputs that
mirror it (spec/60_exceptions.md R296). -/

namespace Sys2Proof.Machine

/-- The flags between the flag writes of a command's pseudocode, in its order, without those before the first write
and those it ends with: BUILD (R161), GENCODES with a tree (R181), CLEAR (R250). -/
def State.midViews (s : State) (i : Instr) : List FlagView :=
  let v := s.flagView
  match i with
  | .analyze => []
  | .build => [{ v with treeValid := false }, { v with treeValid := false, codesValid := false }]
  | .gencodes => if s.treeValid then [{ v with codesValid := false }] else []
  | .encode => []
  | .decodeB => []
  | .decodeS => []
  | .clear => [{ v with treeValid := false }, { v with treeValid := false, codesValid := false }]

/-- The flags a command ends with: ERR set by `raise` (R290), a validity flag set at the end of a success (R161, R181),
ERR cleared by CLEAR (R250). Each is written before `BUSY <- 0`. -/
def State.lastViews (s : State) (i : Instr) : List FlagView :=
  match exec i s with
  | .next t => [t.flagView]
  | .fault _ => []
  | .refused _ => []

/-- The flags as they currently are (R246): in a run, those of one of the points its pseudocode passes, never an
earlier one than at the read before. -/
def State.currentView (s : State) : FlagView :=
  match s.seq with
  | .idle => s.flagView
  | .run w polls =>
    match decodeCmd w with
    | some i => viewAt s.flagView (s.midViews i ++ s.lastViews i) (passedWrites s.draws polls)
    | none => s.flagView

/-- STATUS (R36). BUSY is 1 and DONE 0 throughout a run, since `complete` sets DONE after it clears BUSY (R243); HAZ
falls when CLEAR completes (R32, log entry 22). -/
def State.status (s : State) : Word :=
  statusWord s.busy s.done s.currentView.err s.haz s.currentView.treeValid s.currentView.codesValid

/-- The level output `busy` (R296). -/
def State.busyOut (s : State) : Bool := s.status.getLsbD 0

/-- The level output `done` (R296). -/
def State.doneOut (s : State) : Bool := s.status.getLsbD 1

/-- The level output `err` (R296). -/
def State.errOut (s : State) : Bool := s.status.getLsbD 2

end Sys2Proof.Machine
end

