-- ==== Sys2Proof/Machine/Bus.lean ====
section
/-! DEFINITION. The host bus (spec/20_memory.md R71 to R78): what a read returns, what a write stores, and how a
command word is presented (spec/46_command_control.md R240 to R246). -/

namespace Sys2Proof.Machine

/-- The word a location reads as (R34 to R39, R72, R77, R108 to R112); CMD reads 0 (R35). -/
def State.readLoc (s : State) : Loc → Word
  | .id => 0x48554607
  | .cmd => 0
  | .status => s.status
  | .errCode => s.errCode.setWidth 32
  | .errInfo => s.errInfo
  | .inLen => s.inLen
  | .bitCount => s.bitCount
  | .symCount => s.symCount
  | .outLen => s.outLen
  | .nSym => s.nSym
  | .root => s.root.setWidth 32
  | .nNodes => s.nNodes.setWidth 32
  | .ibufCap => BitVec.ofNat 32 s.config.ibufBytes
  | .obufCap => BitVec.ofNat 32 s.config.obufBytes
  | .symtab i => (s.symtab.byte i).setWidth 32
  | .freqtab i => s.freqtab.word i
  | .node k w => (s.node.node k).window w
  | .code c w => (s.code.code c).window w
  | .ibuf i => (s.ibuf.byte i).setWidth 32
  | .obuf j => (s.obuf.byte j).setWidth 32

/-- The state after a word is stored at a location the host may write (R73, R77); none for a read-only one (R74).
CMD stores nothing. -/
def State.writeLoc (s : State) (v : Word) : Loc → Option State
  | .cmd => some s
  | .inLen => some { s with inLen := v }
  | .bitCount => some { s with bitCount := v }
  | .symCount => some { s with symCount := v }
  | .nSym => some { s with nSym := v }
  | .symtab i => some { s with symtab := s.symtab.setByte i (v.setWidth 8) }
  | .freqtab i => some { s with freqtab := s.freqtab.setWord i v }
  | .ibuf i => some { s with ibuf := s.ibuf.setByte i (v.setWidth 8) }
  | _ => none

/-- The bus answers with a word and `rsp_err = 0` (R72). -/
def State.respond (s : State) (v : Word) : State := { s with rsp := some { rdata := v, err := false } }

/-- The bus answers a successful write with `rsp_err = 0` (R73, R245). No rule gives `rsp_rdata` there, so it is a free
value (log entry 23). -/
def State.respondWrite (s : State) : State :=
  { s with rsp := some { rdata := Config.freeBits 32 s.draws 0, err := false }, draws := s.draws + 1 }

/-- The bus refuses the access: `rsp_rdata = 0`, `rsp_err = 1`, nothing stored (R74 to R76). -/
def State.refuse (s : State) : State := { s with rsp := some { rdata := 0, err := true } }

/-- The access breaks a lockout: it is refused and `HAZ <- 1` (R241, R242, R246, R304). -/
def State.refuseLockout (s : State) : State := { s.refuse with haz := true }

/-- A command word written to CMD while `BUSY = 0` (R240): dropped while `ERR = 1` unless it is CLEAR (R242);
otherwise accepted (R245), and an illegal word fails at once (R106). -/
def State.present (s : State) (w : Word) : State :=
  if s.err = true ∧ decodeCmd w ≠ some .clear then s.refuseLockout
  else
    match decodeCmd w with
    | some _ => s.respondWrite.accept w
    | none => (s.respondWrite.accept w).raise .illegalCommand w

/-- The access is the one a host may make while a command runs (R246): a read of STATUS. -/
def BusRequest.readsStatus (r : BusRequest) : Bool := !r.write && r.addr == Loc.status.addr

/-- A STATUS read in a run of the command word `w`: it is counted, and finds the run where it then is. -/
def State.poll (s : State) (w : Word) (polls : Nat) : State :=
  let t := { s with seq := .run w (polls + 1) }
  t.respond t.status

/-- A request in a run of the command word `w` (R241, R246). -/
def State.serveBusy (s : State) (w : Word) (polls : Nat) (r : BusRequest) : State :=
  if r.readsStatus then s.poll w polls else s.refuseLockout

/-- A request while no command runs (R72 to R76, R240). -/
def State.serveIdle (s : State) (r : BusRequest) : State :=
  match locate s.config r.addr with
  | none => s.refuse
  | some l =>
    if r.write then
      match l, s.writeLoc r.wdata l with
      | .cmd, _ => s.present r.wdata
      | _, some s' => s'.respondWrite
      | _, none => s.refuse
    else s.respond (s.readLoc l)

/-- One request of the host (R71). -/
def State.serve (s : State) (r : BusRequest) : State :=
  match s.seq with
  | .run w polls => s.serveBusy w polls r
  | .idle => s.serveIdle r

/-- One act of the host: a request, or one clock edge with `rst = 1`, at which the state becomes the reset state
and a running command is abandoned (R320, R321). -/
def State.hostAct (s : State) : HostAct → State
  | .request r => s.serve r
  | .reset => State.resetWith s.config s.draws s.host

end Sys2Proof.Machine
end

