-- ==== Sys2Proof/Machine/Step.lean ====
section
/-! DEFINITION. One step of the block (spec/10_state.md R20, R30; spec/46_command_control.md R247): the sequencer
runs an accepted command to its end, or the host acts, or nothing happens (spec/70_reset_and_hazards.md R322). -/

namespace Sys2Proof.Machine

/-- The sequencer runs the accepted command word to its end (R245, R247). -/
def runWord (w : Word) (s : State) : Host.Outcome State Fault Refusal :=
  match decodeCmd w with
  | some i => exec i s
  | none => .next (s.raise .illegalCommand w)

/-- One step: while a command runs, the sequencer moves unless the host's next act comes during the run; while
none runs, the host's next act is performed. -/
def step (s : State) : Host.Outcome State Fault Refusal :=
  match s.seq, s.host with
  | .idle, [] => .next s
  | .idle, x :: rest => .next ({ s with host := rest }.hostAct x.act)
  | .run w _, [] => runWord w s
  | .run w _, x :: rest => if x.during then .next ({ s with host := rest }.hostAct x.act) else runWord w s

/-- `s` with the command word `w` accepted (R245) and the host waiting, so that the very next step runs it. A
command reaches SEQ only by a host write to CMD (R240); this stands for that write (log entry 8). -/
def State.withFetchWord (s : State) (nbits w : Nat) : State :=
  { s.accept (BitVec.ofNat 32 (w % 2 ^ nbits)) with host := [] }

end Sys2Proof.Machine
end

