-- ==== Sys2Proof/Machine/Script.lean ====
section
/-! DEFINITION. The host script notation (spec/30_encoding.md R117, R118): statements, pseudo-statements and the
acts of the host they stand for. -/

namespace Sys2Proof.Machine

/-- The statements of R117, executed in order. When an access lands is said beside the script (`landing`). `wait`
carries how many of its STATUS reads come while the command still runs; one more, which finds `BUSY = 0`, ends it. -/
inductive Stmt where
  | wr (l : Loc) (v : Word)
  | rd (l : Loc)
  | cmd (i : Instr)
  | wait (polls : Nat)
  deriving DecidableEq, Repr

/-- `MemRead(addr, 4)` as an act of the host (R72). -/
def readInput (during : Bool) (l : Loc) : HostInput :=
  { during, act := .request { write := false, addr := l.addr, wdata := 0 } }

/-- `MemWrite(addr, 4, v)` as an act of the host (R73). -/
def writeInput (during : Bool) (l : Loc) (v : Word) : HostInput :=
  { during, act := .request { write := true, addr := l.addr, wdata := v } }

/-- The bus accesses of a statement (R117), each after the end of a run but for the polls of a `WAIT`: the landing of
a host that waits after every command. -/
def Stmt.inputs : Stmt → List HostInput
  | .wr l v => [writeInput false l v]
  | .rd l => [readInput false l]
  | .cmd i => [writeInput false .cmd (encodeCmd i)]
  | .wait polls => List.replicate polls (readInput true .status) ++ [readInput false .status]

/-- The bus accesses of a script, in order (R117). -/
def scriptInputs (script : List Stmt) : List HostInput := script.flatMap Stmt.inputs

/-- The accesses with the landing of the first of them given instead. An access that follows `CMD` with no `WAIT` may
land in the run or after it (R299, R340), and so may any later one: the timing says which (log entry 21). -/
def landing : List Bool → List HostInput → List HostInput
  | during :: timing, x :: rest => { x with during } :: landing timing rest
  | _, inputs => inputs

/-- `RUN m` (R118), with the polls of its `WAIT`. -/
def runStmts (i : Instr) (polls : Nat) : List Stmt := [.cmd i, .wait polls]

/-- `LOAD b0 b1 ...` (R118). -/
def loadStmts (bytes : List Byte) : List Stmt :=
  bytes.mapIdx (fun i b => .wr (.ibuf i) (b.setWidth 32)) ++ [.wr .inLen (BitVec.ofNat 32 bytes.length)]

/-- `SETTAB s0:f0 s1:f1 ...` (R118). -/
def setTabStmts (table : List (Byte × Word)) : List Stmt :=
  (table.mapIdx fun i e => [.wr (.symtab i) (e.1.setWidth 32), .wr (.freqtab i) e.2]).flatten ++
    [.wr .nSym (BitVec.ofNat 32 table.length)]

/-- `COMPRESS` (R118). How often each of its four `WAIT`s polls is open (R340), so each has a count of its own
(log entry 21). -/
def compressStmts (analyzePolls buildPolls gencodesPolls encodePolls : Nat) : List Stmt :=
  runStmts .analyze analyzePolls ++ runStmts .build buildPolls ++ runStmts .gencodes gencodesPolls ++
    runStmts .encode encodePolls

/-- `COPYBACK` (R118) for a host that finds these bytes in `OBUF[0 .. OUT_LEN-1]`. -/
def copyBackStmts (bytes : List Byte) : List Stmt :=
  (bytes.mapIdx fun j b => [.rd (.obuf j), .wr (.ibuf j) (b.setWidth 32)]).flatten ++
    [.wr .inLen (BitVec.ofNat 32 bytes.length)]

/-- `EXPAND` (R118). -/
def expandStmts (polls : Nat) : List Stmt := runStmts .decodeB polls

/-- The state with this script as what the host does next, its accesses landing as `timing` says. -/
def State.withScript (s : State) (script : List Stmt) (timing : List Bool) : State :=
  { s with host := landing timing (scriptInputs script) }

end Sys2Proof.Machine
end

