-- ==== Sys2Proof/Safety.lean ====
section
/-! DEFINITION. What the claims speak of: the tree that NODE holds (spec/10_state.md R40 to R43), its codes (R47,
spec/43_gencodes.md R182, R184), the heap order (spec/41_minheap.md R142), and the invariants that every step
keeps (R33, R41, R43, R47). -/

namespace Sys2Proof.Machine

/-! ### The tree -/

/-- A binary tree of node indices: the shape that `left` and `right` give the NODE memory from a root (R40, R43). -/
inductive Tree where
  | leaf (k : Nat)
  | node (k : Nat) (l r : Tree)
  deriving DecidableEq, Repr

/-- The index at the top. -/
def Tree.root : Tree → Nat
  | .leaf k => k
  | .node k _ _ => k

/-- Every index of the tree, top first. -/
def Tree.indices : Tree → List Nat
  | .leaf k => [k]
  | .node k l r => k :: (l.indices ++ r.indices)

/-- The indices of the leaves, left to right. -/
def Tree.leaves : Tree → List Nat
  | .leaf k => [k]
  | .node _ l r => l.leaves ++ r.leaves

/-- The NODE memory holds this tree, every entry with the legal values of R41: of a leaf's frequency, that it is a
32-bit value zero-extended. -/
def Tree.stored (m : Memory NodeEntry) : Tree → Bool
  | .leaf k =>
    (m.node k).leaf && (m.node k).left == 0 && (m.node k).right == 0 && decide ((m.node k).freq.toNat < 2 ^ 32)
  | .node k l r =>
    !(m.node k).leaf && (m.node k).sym == 0 && (m.node k).left.toNat == l.root && (m.node k).right.toNat == r.root &&
      (m.node k).freq.toNat == (m.node l.root).freq.toNat + (m.node r.root).freq.toNat &&
      decide (l.root < k) && decide (r.root < k) && l.stored m && r.stored m

/-- The symbols of the leaves, left to right. -/
def Tree.symbols (m : Memory NodeEntry) (t : Tree) : List Byte := t.leaves.map fun k => (m.node k).sym

/-- The path from the top to the leaf of a symbol, 0 = left = false, 1 = right = true (R182). -/
def Tree.pathTo (m : Memory NodeEntry) (c : Byte) : Tree → Option (List Bool)
  | .leaf k => if (m.node k).sym = c then some [] else none
  | .node _ l r =>
    match l.pathTo m c with
    | some p => some (false :: p)
    | none =>
      match r.pathTo m c with
      | some p => some (true :: p)
      | none => none

/-- The code of a symbol in a tree (R182): its path, but "0" in the single-leaf tree (R184). -/
def Tree.codeOf (m : Memory NodeEntry) (c : Byte) : Tree → Option (List Bool)
  | .leaf k => if (m.node k).sym = c then some [false] else none
  | .node k l r => (Tree.node k l r).pathTo m c

/-- The codes of a symbol string, one after the other; none when a symbol has no code (R115). -/
def Tree.codesOf (m : Memory NodeEntry) (t : Tree) : List Byte → Option (List Bool)
  | [] => some []
  | c :: cs =>
    match t.codeOf m c, t.codesOf m cs with
    | some d, some ds => some (d ++ ds)
    | _, _ => none

/-- `T` is the tree of the state (R43): NODE holds it, its top is ROOT, it contains every entry below NNODES once,
no two of its leaves carry one symbol, and `NNODES <= 511` (R29). -/
abbrev State.HasTree (s : State) (t : Tree) : Prop :=
  t.stored s.node = true ∧ s.root.toNat = t.root ∧ t.indices.Perm (List.range s.nNodes.toNat) ∧
    (t.symbols s.node).Nodup ∧ s.nNodes.toNat ≤ 511

/-! ### The codes -/

/-- The digits of a CODE entry, the first `len` of them (R46). -/
def CodeEntry.digits (c : CodeEntry) : List Bool := (List.range c.len.toNat).map c.digit

/-- The CODE entry of a symbol that has this code, or none (R46). -/
def entryOf : Option (List Bool) → CodeEntry
  | some ds => CodeEntry.ofDigits ds
  | none => { len := 0, dig := 0 }

/-- CODE holds the table generated from the tree `T` (R36, R47). -/
abbrev State.HasCodes (s : State) (t : Tree) : Prop :=
  ∀ c : Byte, s.code.code c.toNat = entryOf (t.codeOf s.node c)

/-- The first `n` bits of the packed input (R82). -/
def State.inputBits (s : State) (n : Nat) : List Bool := (List.range n).map s.inbit

/-- The first `n` bytes of IBUF. -/
def State.inputBytes (s : State) (n : Nat) : List Byte := (List.range n).map s.ibuf.byte

/-- Bit `t` of the packed output: bit `7 - (t & 7)` of `OBUF[t >> 3]` (R81). -/
def State.outbit (s : State) (t : Nat) : Bool := (s.obuf.byte (t / 8)).getLsbD (7 - t % 8)

/-- The digits of the codes of the first `n` input bytes, in order (R199). -/
def State.codeDigits (s : State) (n : Nat) : List Bool :=
  (s.inputBytes n).flatMap fun b => (s.code.code b.toNat).digits

/-! ### The heap -/

/-- The heap invariant (R142): no position is less than its parent. -/
abbrev HeapOk (m : Memory NodeEntry) (h : List NodeIdx) : Prop :=
  ∀ p < h.length, 0 < p → less m (heapAt h p) (heapAt h ((p - 1) / 2)) = false

/-! ### The invariants -/

/-- The capacities are in range (R8). -/
abbrev State.ConfigOk (s : State) : Prop := s.config.wellFormed = true

/-- A running command is a legal word, and CLEAR when ERR is 1 (R240, R242, R245). -/
def State.seqOk (s : State) : Bool :=
  match s.seq with
  | .idle => true
  | .run w _ => (decodeCmd w).isSome && (!s.err || decodeCmd w == some .clear)

/-- The ten codes of R281. -/
def errorCodes : List (BitVec 8) := [0x01, 0x02, 0x03, 0x04, 0x10, 0x11, 0x12, 0x13, 0x14, 0x15]

/-- The invariants of the flags (R33), of ERRCODE and ERRINFO (R37, R38, R281) and of SEQ. -/
abbrev State.FlagsOk (s : State) : Prop :=
  (s.codesValid = true → s.treeValid = true) ∧ (s.done = true → s.err = false ∧ s.busy = false) ∧
    (s.err = false → s.errCode = 0 ∧ s.errInfo = 0) ∧ (s.err = true → s.errCode ∈ errorCodes) ∧ s.seqOk = true

/-- Every memory is in its canonical form and within its size (R40, R44 to R46, R49, R50). -/
abbrev State.MemoriesOk (s : State) : Prop :=
  s.symtab.wf byteFill 256 = true ∧ s.freqtab.wf wordFill 256 = true ∧ s.node.wf nodeFill 511 = true ∧
    s.code.wf codeFill 256 = true ∧ s.ibuf.wf byteFill s.config.ibufBytes = true ∧
    s.obuf.wf byteFill s.config.obufBytes = true

/-- While TREE_VALID is 1 the tree invariants hold (R33, R41, R43). -/
def State.TreeOk (s : State) : Prop := s.treeValid = true → ∃ t : Tree, s.HasTree t

/-- While CODES_VALID is 1 CODE holds the table of the tree (R33, R47). -/
def State.CodesOk (s : State) : Prop := s.codesValid = true → ∃ t : Tree, s.HasTree t ∧ s.HasCodes t

/-- The invariant of the machine. -/
structure State.Inv (s : State) : Prop where
  config : s.ConfigOk
  flags : s.FlagsOk
  memories : s.MemoriesOk
  tree : s.TreeOk
  codes : s.CodesOk

/-- `t` is `s` after a failing ENCODE, DECODE.B or DECODE.S (R290, R292): the error is recorded, OUT_LEN is 0, OBUF
and the hidden working state are anything, and nothing else has changed. -/
abbrev FailedTransfer (s : State) (errCode : BitVec 8) (errInfo : Word) (t : State) : Prop :=
  t = { s with errCode, errInfo, err := true, seq := .idle, outLen := 0, obuf := t.obuf, work := t.work
               draws := t.draws }

/-- `t` is `s` after a failing command that writes no result (R290): only the error is recorded. -/
abbrev FailedPlain (s : State) (errCode : BitVec 8) (errInfo : Word) (t : State) : Prop :=
  t = { s with errCode, errInfo, err := true, seq := .idle }

/-- `ds` is the beginning of a code of the tree, but not all of it. -/
abbrev Tree.StopsInside (m : Memory NodeEntry) (t : Tree) (ds : List Bool) : Prop :=
  ∃ c d, t.codeOf m c = some d ∧ ds <+: d ∧ ds ≠ d

/-- The sequencer moves next: a command runs and the host makes no act during the run. -/
def State.sequencerTurn (s : State) : Bool :=
  match s.seq, s.host with
  | .idle, _ => false
  | .run _ _, [] => true
  | .run _ _, x :: _ => !x.during

/-- A run without a fault, as claims about results take it (R305): the machine is well and no error stands. -/
def State.safe (s : State) : Prop := s.Inv ∧ s.err = false

end Sys2Proof.Machine
end

