-- ==== Sys2Proof/Certificates/Slice0/Obligations.lean ====
section
/-! DEFINITION. The statements for the provers. Each says which rule of spec/ it formalises. -/

open Sys2Proof Sys2Proof.Machine

/-! ### Reset and the invariants -/

/-- R320: at a clock edge with `rst = 1`, whether a command runs or not, SEQ is IDLE and every flag and register is
0; of the memories the rule says nothing, and neither does this. The configuration stays (R57). -/
def Obligations.ResetEdgeGivesTheResetState : Prop :=
  ∀ (s : State) (x : HostInput) (rest : List HostInput),
    s.host = x :: rest → x.act = .reset → (x.during = true ∨ s.seq = .idle) →
    ∃ t, step s = .next t ∧ t.seq = .idle ∧ t.status = 0 ∧ t.errCode = 0 ∧ t.errInfo = 0 ∧ t.inLen = 0 ∧
      t.bitCount = 0 ∧ t.symCount = 0 ∧ t.outLen = 0 ∧ t.nSym = 0 ∧ t.root = 0 ∧ t.nNodes = 0 ∧
      t.config = s.config ∧ t.rsp = none ∧ t.host = rest

/-- R57, R33: the state after reset meets the invariant, and so does the reset state of every legal
configuration. -/
def Obligations.ResetStateMeetsTheInvariant : Prop :=
  State.reset.Inv ∧
    ∀ (c : Config) (draws : Nat) (host : List HostInput), c.wellFormed = true → (State.resetWith c draws host).Inv

/-- R33, R37, R38, R281: every step keeps the configuration and the invariants of the flags and of the error
registers. -/
def Obligations.StepKeepsTheFlagInvariant : Prop :=
  ∀ s t : State, s.Inv → step s = .next t → t.config = s.config ∧ t.FlagsOk

/-- R40, R44 to R46, R49, R50, R132, R151: every step keeps each memory in its canonical form and within its
size. -/
def Obligations.StepKeepsMemoriesCanonical : Prop :=
  ∀ s t : State, s.Inv → step s = .next t → t.MemoriesOk

/-- R33, R43: every step keeps the tree invariants: while TREE_VALID is 1, NODE and ROOT hold a tree that contains
every entry below NNODES once, with the legal values of R41 (a leaf's frequency a zero-extended 32-bit value) and
pairwise distinct symbols. -/
def Obligations.StepKeepsTheTree : Prop :=
  ∀ s t : State, s.Inv → step s = .next t → t.TreeOk

/-- R33, R36, R47: every step keeps the code-table invariant: while CODES_VALID is 1, CODE holds the table
generated from the tree. -/
def Obligations.StepKeepsTheCodeTable : Prop :=
  ∀ s t : State, s.Inv → step s = .next t → t.CodesOk

/-- R247, R249: every accepted command ends, in one step of the sequencer, with `BUSY = 0`. -/
def Obligations.AcceptedCommandEnds : Prop :=
  ∀ s : State, s.Inv → s.sequencerTurn = true → ∃ t, step s = .next t ∧ t.busy = false

/-! ### The step -/

/-- R245, R247: when the sequencer moves, the step is the command that the accepted word decodes to. -/
def Obligations.StepRunsTheDecodedCommand : Prop :=
  ∀ (s : State) (w : Word) (n : Nat) (i : Instr),
    s.seq = .run w n → s.sequencerTurn = true → decodeCmd w = some i → step s = exec i s

/-- R20, R71, R322: when no command runs, or the host's next act comes during the run, the step is that act, a
request being served; when no command runs and the host does nothing, nothing happens. -/
def Obligations.StepServesTheHost : Prop :=
  ∀ s : State,
    (∀ (x : HostInput) (rest : List HostInput) (r : BusRequest), s.host = x :: rest → x.act = .request r →
      (x.during = true ∨ s.seq = .idle) → step s = .next ({ s with host := rest }.serve r)) ∧
    (s.seq = .idle → s.host = [] → step s = .next s)

/-! ### The command word -/

/-- R104, R106, R107: what every 32-bit word decodes to, and that the encoder's word of a command is the one word that
decodes to it. -/
def Obligations.DecodeIsExactlyTheCommandMap : Prop :=
  (∀ w : Word, decodeCmd w =
    (if w.extractLsb' 9 23 ≠ 0 then none
     else if w.extractLsb' 8 1 = 1 ∧ w.extractLsb' 0 8 ≠ 0x05 then none
     else if w = 0x00000001 then some .analyze
     else if w = 0x00000002 then some .build
     else if w = 0x00000003 then some .gencodes
     else if w = 0x00000004 then some .encode
     else if w = 0x00000005 then some .decodeB
     else if w = 0x00000105 then some .decodeS
     else if w = 0x00000006 then some .clear
     else none)) ∧
  ∀ (w : Word) (i : Instr), decodeCmd w = some i ↔ w = encodeCmd i

/-- R104: the seven words of the command map, written out. -/
def Obligations.CommandWordsDecode : Prop :=
  decodeCmd 0x00000001 = some .analyze ∧ decodeCmd 0x00000002 = some .build ∧
    decodeCmd 0x00000003 = some .gencodes ∧ decodeCmd 0x00000004 = some .encode ∧
    decodeCmd 0x00000005 = some .decodeB ∧ decodeCmd 0x00000105 = some .decodeS ∧
    decodeCmd 0x00000006 = some .clear

/-! ### The host bus -/

/-- R34 to R39, R72, R78, R108, R296: what a read of each register, table entry and buffer entry returns while no
command runs, whatever `req_wdata` is, and what the level outputs then are. -/
def Obligations.RegisterReads : Prop :=
  ∀ (s : State) (x : Word), s.seq = .idle →
    (∀ av ∈ ([(0x000, 0x48554607), (0x004, 0),
        (0x008, BitVec.ofNat 32 (2 * s.done.toNat + 4 * s.err.toNat + 8 * s.haz.toNat + 16 * s.treeValid.toNat +
          32 * s.codesValid.toNat)),
        (0x00C, s.errCode.setWidth 32), (0x010, s.errInfo), (0x014, s.inLen), (0x018, s.bitCount),
        (0x01C, s.symCount), (0x020, s.outLen), (0x024, s.nSym), (0x028, s.root.setWidth 32),
        (0x02C, s.nNodes.setWidth 32), (0x030, BitVec.ofNat 32 s.config.ibufBytes),
        (0x034, BitVec.ofNat 32 s.config.obufBytes)] : List (Addr × Word)),
      s.serve { write := false, addr := av.1, wdata := x } =
        { s with rsp := some { rdata := av.2, err := false } }) ∧
    (∀ i < 256,
      s.serve { write := false, addr := BitVec.ofNat 28 (0x400 + 4 * i), wdata := x } =
        { s with rsp := some { rdata := (s.symtab.byte i).setWidth 32, err := false } } ∧
      s.serve { write := false, addr := BitVec.ofNat 28 (0x800 + 4 * i), wdata := x } =
        { s with rsp := some { rdata := s.freqtab.word i, err := false } }) ∧
    (s.ConfigOk →
      (∀ i < s.config.ibufBytes,
        s.serve { write := false, addr := BitVec.ofNat 28 (0x1000000 + 4 * i), wdata := x } =
          { s with rsp := some { rdata := (s.ibuf.byte i).setWidth 32, err := false } }) ∧
      ∀ j < s.config.obufBytes,
        s.serve { write := false, addr := BitVec.ofNat 28 (0x8000000 + 4 * j), wdata := x } =
          { s with rsp := some { rdata := (s.obuf.byte j).setWidth 32, err := false } }) ∧
    s.busyOut = false ∧ s.doneOut = s.done ∧ s.errOut = s.err

/-- R110: the four words of a NODE entry at `0x2000 + 16*k`, bit by bit. -/
def Obligations.NodeWindowBits : Prop :=
  ∀ (s : State) (k w : Nat) (x : Word), s.seq = .idle → k ≤ 510 → w ≤ 3 →
    ∃ v : Word,
      s.serve { write := false, addr := BitVec.ofNat 28 (0x2000 + 16 * k + 4 * w), wdata := x } =
        { s with rsp := some { rdata := v, err := false } } ∧
      ∀ b < 32, v.getLsbD b =
        (if w = 0 then (s.node.node k).freq.getLsbD b
         else if w = 1 then decide (b ≤ 7) && (s.node.node k).freq.getLsbD (32 + b)
         else if w = 2 then
           (if b = 0 then (s.node.node k).leaf
            else decide (8 ≤ b ∧ b ≤ 15) && (s.node.node k).sym.getLsbD (b - 8))
         else if b ≤ 8 then (s.node.node k).left.getLsbD b
         else decide (16 ≤ b ∧ b ≤ 24) && (s.node.node k).right.getLsbD (b - 16))

/-- R83, R112: the sixteen words of a CODE entry at `0x4000 + 64*s`, bit by bit. -/
def Obligations.CodeWindowBits : Prop :=
  ∀ (s : State) (c w : Nat) (x : Word), s.seq = .idle → c ≤ 255 → w ≤ 15 →
    ∃ v : Word,
      s.serve { write := false, addr := BitVec.ofNat 28 (0x4000 + 64 * c + 4 * w), wdata := x } =
        { s with rsp := some { rdata := v, err := false } } ∧
      (w = 0 → v = (s.code.code c).len.setWidth 32) ∧
      (∀ i < 255, w = 1 + i / 32 → v.getLsbD (31 - i % 32) = (s.code.code c).digit i) ∧
      (w = 8 → v.getLsbD 0 = false) ∧ (9 ≤ w → v = 0)

/-- R73, R77, R88: a write to a writable location other than CMD stores the bits the location keeps, answers with
`rsp_err = 0` and some data (log entry 23), and is what a read of it returns; every other location of the map reads as
before. -/
def Obligations.HostWriteThenRead : Prop :=
  ∀ (s : State) (a : Addr) (v : Word) (l : Loc), s.seq = .idle → locate s.config a = some l → l.writable = true →
    l ≠ .cmd →
    (∃ d, (s.serve { write := true, addr := a, wdata := v }).rsp = some { rdata := d, err := false }) ∧
    (∀ x, ((s.serve { write := true, addr := a, wdata := v }).serve { write := false, addr := a, wdata := x }).rsp =
      some { rdata := l.keep v, err := false }) ∧
    ∀ b x, b ≠ a →
      ((s.serve { write := true, addr := a, wdata := v }).serve { write := false, addr := b, wdata := x }).rsp =
        (s.serve { write := false, addr := b, wdata := x }).rsp

/-- R74 to R76: a request that is misaligned, to an address the map leaves unmapped, or that writes a read-only
location is refused while no command runs: data 0, `rsp_err = 1`, and nothing changes, HAZ neither. -/
def Obligations.RefusedAccessChangesNothing : Prop :=
  ∀ (s : State) (r : BusRequest), s.seq = .idle →
    (r.addr.toNat % 4 ≠ 0 ∨
      (0x38 ≤ r.addr.toNat ∧ r.addr.toNat < 0x400) ∨ (0xC00 ≤ r.addr.toNat ∧ r.addr.toNat < 0x2000) ∨
      (0x3FF0 ≤ r.addr.toNat ∧ r.addr.toNat < 0x4000) ∨ (0x8000 ≤ r.addr.toNat ∧ r.addr.toNat < 0x1000000) ∨
      (0x1000000 + 4 * s.config.ibufBytes ≤ r.addr.toNat ∧ r.addr.toNat < 0x8000000) ∨
      0x8000000 + 4 * s.config.obufBytes ≤ r.addr.toNat ∨
      (r.write = true ∧
        (r.addr ∈ ([0x000, 0x008, 0x00C, 0x010, 0x020, 0x028, 0x02C, 0x030, 0x034] : List Addr) ∨
          (0x2000 ≤ r.addr.toNat ∧ r.addr.toNat < 0x8000) ∨ 0x8000000 ≤ r.addr.toNat))) →
    s.serve r = { s with rsp := some { rdata := 0, err := true } }

/-- R86: a read has no side effect while no command runs: only the response changes. -/
def Obligations.ReadChangesOnlyTheResponse : Prop :=
  ∀ (s : State) (r : BusRequest), s.seq = .idle → r.write = false →
    s.serve r = { s with rsp := (s.serve r).rsp }

/-! ### Presenting a command -/

/-- R240, R245: a legal command word written to CMD while `BUSY = 0`, and `ERR = 0` or the word is CLEAR, is
accepted: `BUSY <- 1`, `DONE <- 0`, `SEQ <- RUN(c)`, `rsp_err = 0` and some data (log entry 23), and nothing else
changes but the model's count of free values. -/
def Obligations.LegalCommandIsAccepted : Prop :=
  ∀ (s : State) (i : Instr), s.seq = .idle → (s.err = false ∨ i = .clear) →
    ∃ d n, s.serve { write := true, addr := 0x004, wdata := encodeCmd i } =
      { s with
        seq := .run (encodeCmd i) 0, done := false, rsp := some { rdata := d, err := false }, draws := n }

/-- R106, R287: any other word, when `BUSY = 0` and `ERR = 0`, is accepted and fails at once with IllegalCommand,
ERRINFO the word; no state but the status registers changes. Beside them stand the response, whose data no rule
gives (log entry 23), and the model's count of free values. -/
def Obligations.IllegalWordFailsAtOnce : Prop :=
  ∀ (s : State) (w : Word), s.seq = .idle → s.err = false → (∀ i : Instr, w ≠ encodeCmd i) →
    ∃ d n, s.serve { write := true, addr := 0x004, wdata := w } =
      { s with done := false, err := true, errCode := 0x10, errInfo := w
               rsp := some { rdata := d, err := false }, draws := n }

/-- R242: while `ERR = 1` every word but CLEAR is dropped: `rsp_err = 1`, `HAZ <- 1`, and nothing else changes. -/
def Obligations.CommandDroppedWhileInError : Prop :=
  ∀ (s : State) (w : Word), s.seq = .idle → s.err = true → w ≠ 0x00000006 →
    s.serve { write := true, addr := 0x004, wdata := w } =
      { s with haz := true, rsp := some { rdata := 0, err := true } }

/-- R241, R246: while a command runs every request but a read of STATUS, CMD writes of every word included, is
refused: data 0, `rsp_err = 1`, `HAZ <- 1`, and the running command is not disturbed. -/
def Obligations.AccessRefusedWhileBusy : Prop :=
  ∀ (s : State) (w : Word) (n : Nat) (r : BusRequest), s.seq = .run w n → (r.write = true ∨ r.addr ≠ 0x008) →
    s.serve r = { s with haz := true, rsp := some { rdata := 0, err := true } }

/-- R246, R296, R32: while a command runs a read of STATUS is answered with BUSY 1, the reserved bits 0, and each other
flag as it stands, or as the command has made it by then: no flag reads as what the command neither found nor makes
it. A CODES_VALID that has fallen in BUILD or CLEAR stays down at the next read. The level outputs mirror the word, and
nothing changes but the response and the model's count of reads (log entry 7). -/
def Obligations.StatusReadWhileBusy : Prop :=
  ∀ (s : State) (w x : Word) (n : Nat) (i : Instr), s.seq = .run w n → decodeCmd w = some i →
    ∃ (v v' : Word) (t : State),
      s.serve { write := false, addr := 0x008, wdata := x } = t ∧
      t = { s with seq := .run w (n + 1), rsp := some { rdata := v, err := false } } ∧
      (t.serve { write := false, addr := 0x008, wdata := x }).rsp = some { rdata := v', err := false } ∧
      v.getLsbD 0 = true ∧ v.getLsbD 1 = s.done ∧ v.getLsbD 3 = s.haz ∧ (∀ b, 6 ≤ b → v.getLsbD b = false) ∧
      (i = .analyze ∨ i = .encode ∨ i = .decodeB ∨ i = .decodeS →
        v.getLsbD 4 = s.treeValid ∧ v.getLsbD 5 = s.codesValid) ∧
      (i = .gencodes → v.getLsbD 4 = s.treeValid ∧ (s.treeValid = false → v.getLsbD 5 = s.codesValid)) ∧
      (i = .build →
        (v.getLsbD 4 = true → s.treeValid = true ∨ ∃ u, exec .build s = .next u ∧ u.treeValid = true) ∧
        (v.getLsbD 5 = true → s.codesValid = true)) ∧
      (i = .clear → (v.getLsbD 4 = true → s.treeValid = true) ∧ (v.getLsbD 5 = true → s.codesValid = true)) ∧
      (i ≠ .clear → s.err = true → v.getLsbD 2 = true) ∧
      (v.getLsbD 2 = true → s.err = true ∨ ∃ u, exec i s = .next u ∧ u.err = true) ∧
      (i ≠ .gencodes → v'.getLsbD 5 = true → v.getLsbD 5 = true) ∧
      t.busyOut = v.getLsbD 0 ∧ t.doneOut = v.getLsbD 1 ∧ t.errOut = v.getLsbD 2

/-- R341: a STATUS read during a run leaves no trace in what the run ends with, but for the response, which the next
access replaces; so runs that differ only in how often `WAIT` polled end alike. -/
def Obligations.PollsLeaveNoTrace : Prop :=
  ∀ (s t : State) (w x : Word) (n : Nat) (i : Instr), s.seq = .run w n → decodeCmd w = some i →
    exec i s = .next t →
    exec i (s.serve { write := false, addr := 0x008, wdata := x }) =
      .next { t with rsp := (s.serve { write := false, addr := 0x008, wdata := x }).rsp }

/-! ### Errors common to the commands -/

/-- R286: BadParameter, `IN_LEN > IBUF_BYTES` in ANALYZE, ENCODE and DECODE and `NSYM > 256` in BUILD, ERRINFO the
register; each command's failure post-state is that of R292. -/
def Obligations.BadParameterIsRaised : Prop :=
  ∀ s : State,
    (s.config.ibufBytes < s.inLen.toNat →
      (∃ t, exec .analyze s = .next t ∧ FailedPlain s 0x11 s.inLen t) ∧
      (s.codesValid = true → ∃ t, exec .encode s = .next t ∧ FailedTransfer s 0x11 s.inLen t) ∧
      (s.treeValid = true → ∃ t, exec .decodeB s = .next t ∧ FailedTransfer s 0x11 s.inLen t) ∧
      (s.treeValid = true → ∃ t, exec .decodeS s = .next t ∧ FailedTransfer s 0x11 s.inLen t)) ∧
    (256 < s.nSym.toNat →
      ∃ t, exec .build s = .next t ∧
        FailedPlain { s with treeValid := false, codesValid := false } 0x11 s.nSym t)

/-- R289: NoTree of GENCODES and DECODE without a valid tree, NoCodes of ENCODE without a valid code table. -/
def Obligations.NoTreeAndNoCodesAreRaised : Prop :=
  ∀ s : State,
    (s.treeValid = false →
      (∃ t, exec .gencodes s = .next t ∧ FailedPlain s 0x13 0 t) ∧
      (∃ t, exec .decodeB s = .next t ∧ FailedTransfer s 0x13 0 t) ∧
      (∃ t, exec .decodeS s = .next t ∧ FailedTransfer s 0x13 0 t)) ∧
    (s.codesValid = false → ∃ t, exec .encode s = .next t ∧ FailedTransfer s 0x14 0 t)

/-! ### ANALYZE -/

/-- R133 (a) to (f): ANALYZE of an input that fits completes, with the distinct symbols in first-occurrence order
and the count of each. -/
def Obligations.AnalyzeCountsTheInput : Prop :=
  ∀ s : State, s.inLen.toNat ≤ s.config.ibufBytes →
    ∃ t, exec .analyze s = .next t ∧ t.done = true ∧ t.seq = .idle ∧ t.nSym.toNat ≤ 256 ∧
      (∀ p q, p < q → q < t.nSym.toNat → t.symtab.byte p ≠ t.symtab.byte q) ∧
      (∀ b, (∃ p < t.nSym.toNat, t.symtab.byte p = b) ↔ ∃ i < s.inLen.toNat, s.ibuf.byte i = b) ∧
      (∀ p q, p < q → q < t.nSym.toNat →
        ∃ i < s.inLen.toNat, s.ibuf.byte i = t.symtab.byte p ∧ ∀ i' ≤ i, s.ibuf.byte i' ≠ t.symtab.byte q) ∧
      (∀ p < t.nSym.toNat,
        (t.freqtab.word p).toNat =
          ((List.range s.inLen.toNat).filter fun i => s.ibuf.byte i == t.symtab.byte p).length ∧
        1 ≤ (t.freqtab.word p).toNat) ∧
      ((List.range t.nSym.toNat).map fun p => (t.freqtab.word p).toNat).sum = s.inLen.toNat ∧
      t.ibuf = s.ibuf ∧ t.inLen = s.inLen

/-- R131, R132: what ANALYZE leaves unchanged, whether it completes or fails: everything but SYMTAB, FREQTAB, NSYM,
the status registers and the hidden working state; of SYMTAB and FREQTAB the entries at and above NSYM. -/
def Obligations.AnalyzeFrame : Prop :=
  ∀ s t : State, exec .analyze s = .next t →
    t = { s with
          symtab := t.symtab, freqtab := t.freqtab, nSym := t.nSym, done := t.done, err := t.err
          errCode := t.errCode, errInfo := t.errInfo, seq := .idle, work := t.work } ∧
    ∀ a, t.nSym.toNat ≤ a → t.symtab.byte a = s.symtab.byte a ∧ t.freqtab.word a = s.freqtab.word a

/-! ### The heap -/

/-- R141: `less` compares frequencies, then indices, and is a strict total order on node indices. -/
def Obligations.LessIsAStrictTotalOrder : Prop :=
  ∀ (m : Memory NodeEntry) (a b c : NodeIdx),
    (less m a b = true ↔ (m.node a.toNat).freq.toNat < (m.node b.toNat).freq.toNat ∨
      ((m.node a.toNat).freq = (m.node b.toNat).freq ∧ a.toNat < b.toNat)) ∧
    less m a a = false ∧ (less m a b = true → less m b c = true → less m a c = true) ∧
    (a ≠ b → (less m a b = true ↔ less m b a = false))

/-- R142, R145: `buildFromUnordered` establishes the heap invariant on exactly the given nodes. -/
def Obligations.BuildFromUnorderedMakesAHeap : Prop :=
  ∀ (m : Memory NodeEntry) (nodes : List NodeIdx),
    HeapOk m (buildFromUnordered m nodes) ∧ (buildFromUnordered m nodes).Perm nodes

/-- R142, R146, R150: `insert` keeps the heap invariant and adds exactly the given node. -/
def Obligations.InsertKeepsTheHeap : Prop :=
  ∀ (m : Memory NodeEntry) (h : List NodeIdx) (k : NodeIdx), HeapOk m h →
    HeapOk m (heapInsert m h k) ∧ (heapInsert m h k).Perm (k :: h)

/-- R142, R147, R150: `extractMin` returns the least node of the heap, removes exactly it and keeps the heap
invariant; on an empty heap it fails. -/
def Obligations.ExtractMinReturnsTheLeast : Prop :=
  (∀ m : Memory NodeEntry, extractMin m [] = none) ∧
  ∀ (m : Memory NodeEntry) (h : List NodeIdx), h ≠ [] → h.Nodup → HeapOk m h →
    ∃ r left, extractMin m h = some (r, left) ∧ h.Perm (r :: left) ∧ HeapOk m left ∧
      ∀ x ∈ left, less m r x = true

/-! ### BUILD -/

/-- R161, R162, R282, R288: the three errors of BUILD in the order checked; each leaves everything but the two
validity flags, which are cleared, and the status registers. -/
def Obligations.BuildRejects : Prop :=
  ∀ s : State,
    (256 < s.nSym.toNat → ∃ t, exec .build s = .next t ∧
      FailedPlain { s with treeValid := false, codesValid := false } 0x11 s.nSym t) ∧
    (s.nSym = 0 → ∃ t, exec .build s = .next t ∧
      FailedPlain { s with treeValid := false, codesValid := false } 0x01 0 t) ∧
    (∀ p q, p < q → q < s.nSym.toNat → s.nSym.toNat ≤ 256 → s.symtab.byte p = s.symtab.byte q →
      (∀ p' q', p' < q' → q' < q → s.symtab.byte p' ≠ s.symtab.byte q') →
      ∃ t, exec .build s = .next t ∧
        FailedPlain { s with treeValid := false, codesValid := false } 0x12
          ((BitVec.ofNat 32 q <<< 8) ||| (s.symtab.byte q).setWidth 32) t)

/-- R160, R161, R147, R163, R166, R167, R168: BUILD of 1 to 256 distinct symbols completes: NNODES is `2n - 1`, ROOT is
`2n - 2`, the leaves stand in table order, every internal node has its two children below it and their frequencies'
sum, and every entry but ROOT is the child of exactly one internal node; NODE then holds a tree. Each internal node
`k` merges the two least of the nodes that are in the heap when it is made, its left child the least: every other
entry below `k` that is no child of an entry below `k` is more than both. -/
def Obligations.BuildMakesTheTree : Prop :=
  ∀ s : State, 1 ≤ s.nSym.toNat → s.nSym.toNat ≤ 256 →
    (∀ p q, p < q → q < s.nSym.toNat → s.symtab.byte p ≠ s.symtab.byte q) →
    ∃ t, exec .build s = .next t ∧ t.done = true ∧ t.seq = .idle ∧ t.treeValid = true ∧ t.codesValid = false ∧
      t.nNodes.toNat = 2 * s.nSym.toNat - 1 ∧ t.root.toNat = 2 * s.nSym.toNat - 2 ∧
      (∀ p < s.nSym.toNat, t.node.node p =
        { leaf := true, sym := s.symtab.byte p, freq := (s.freqtab.word p).setWidth 40, left := 0, right := 0 }) ∧
      (∀ k, s.nSym.toNat ≤ k → k ≤ 2 * s.nSym.toNat - 2 →
        (t.node.node k).leaf = false ∧ (t.node.node k).sym = 0 ∧ (t.node.node k).left.toNat < k ∧
        (t.node.node k).right.toNat < k ∧
        (t.node.node k).freq.toNat = (t.node.node (t.node.node k).left.toNat).freq.toNat +
          (t.node.node (t.node.node k).right.toNat).freq.toNat) ∧
      (∀ c < 2 * s.nSym.toNat - 2, ∃! k, s.nSym.toNat ≤ k ∧ k ≤ 2 * s.nSym.toNat - 2 ∧
        ((t.node.node k).left.toNat = c ∨ (t.node.node k).right.toNat = c)) ∧
      (∀ k, s.nSym.toNat ≤ k → k ≤ 2 * s.nSym.toNat - 2 →
        less t.node (t.node.node k).left (t.node.node k).right = true ∧
        ∀ c : NodeIdx, c.toNat < k → c ≠ (t.node.node k).left → c ≠ (t.node.node k).right →
          (∀ j, s.nSym.toNat ≤ j → j < k → (t.node.node j).left ≠ c ∧ (t.node.node j).right ≠ c) →
          less t.node (t.node.node k).left c = true ∧ less t.node (t.node.node k).right c = true) ∧
      ∃ T : Tree, t.HasTree T

/-- R164: the root's frequency is the sum of the first NSYM entries of FREQTAB, with no wrap-around. -/
def Obligations.RootFrequencyIsTheSum : Prop :=
  ∀ s t : State, exec .build s = .next t → t.treeValid = true →
    (t.node.node t.root.toNat).freq.toNat =
      ((List.range s.nSym.toNat).map fun p => (s.freqtab.word p).toNat).sum

/-- R165: within every internal node of the tree BUILD makes, the left child is the lesser. -/
def Obligations.LeftChildIsTheLesser : Prop :=
  ∀ s t : State, exec .build s = .next t → t.treeValid = true →
    ∀ k, s.nSym.toNat ≤ k → k ≤ 2 * s.nSym.toNat - 2 →
      less t.node (t.node.node k).left (t.node.node k).right = true

/-- R170: BUILD never raises HeapUnderflow. -/
def Obligations.BuildNeverUnderflows : Prop :=
  ∀ s t : State, s.errCode ≠ 0x02 → exec .build s = .next t → t.errCode ≠ 0x02

/-- R161, R168, R292: what BUILD leaves unchanged, whether it completes or fails: everything but NODE, NNODES, ROOT,
TREE_VALID, CODES_VALID, the status registers and the hidden working state; a failing BUILD leaves NODE, NNODES
and ROOT too, and a successful one the NODE entries from NNODES on. -/
def Obligations.BuildFrame : Prop :=
  ∀ s t : State, exec .build s = .next t →
    t = { s with
          node := t.node, nNodes := t.nNodes, root := t.root, treeValid := t.treeValid, codesValid := false
          done := t.done, err := t.err, errCode := t.errCode, errInfo := t.errInfo, seq := .idle
          work := t.work } ∧
    (t.treeValid = false → t.node = s.node ∧ t.nNodes = s.nNodes ∧ t.root = s.root ∧ t.err = true) ∧
    (t.treeValid = true → t.done = true ∧ t.err = s.err ∧
      ∀ k, t.nNodes.toNat ≤ k → t.node.node k = s.node.node k)

/-- R168, R332: the tree is a function of NSYM and the first NSYM entries of SYMTAB and FREQTAB: two states that
agree on these give the same outcome and the same NODE entries, node index for node index. -/
def Obligations.BuildDependsOnTheTableOnly : Prop :=
  ∀ s s' t t' : State, s.nSym = s'.nSym →
    (∀ p < s.nSym.toNat, s.symtab.byte p = s'.symtab.byte p ∧ s.freqtab.word p = s'.freqtab.word p) →
    exec .build s = .next t → exec .build s' = .next t' →
    t.treeValid = t'.treeValid ∧
      (t.treeValid = true → t.nNodes = t'.nNodes ∧ t.root = t'.root ∧
        ∀ k < t.nNodes.toNat, t.node.node k = t'.node.node k)

/-! ### GENCODES -/

/-- R181, R182, R184, R185: GENCODES of a valid tree completes; the CODE entry of every symbol is its root-to-leaf
path ("0" in the single-leaf tree), absent for a symbol of no leaf; nothing else changes but CODES_VALID, DONE, SEQ
and the hidden working state. -/
def Obligations.GencodesRecordsThePaths : Prop :=
  ∀ (s : State) (T : Tree), s.treeValid = true → s.HasTree T →
    ∃ t, exec .gencodes s = .next t ∧
      t = { s with code := t.code, codesValid := true, done := true, seq := .idle, work := t.work } ∧
      t.HasTree T ∧ t.HasCodes T

/-- R184: when the root is a leaf its symbol gets the one-digit code "0" and no other symbol has an entry. -/
def Obligations.SingleLeafGetsTheCodeZero : Prop :=
  ∀ s : State, s.treeValid = true → (s.node.node s.root.toNat).leaf = true →
    ∃ t, exec .gencodes s = .next t ∧ t.done = true ∧ t.codesValid = true ∧
      ∀ c : Byte, t.code.code c.toNat =
        (if c = (s.node.node s.root.toNat).sym then { len := 1, dig := 0 } else { len := 0, dig := 0 })

/-- R47, R262: while CODES_VALID is 1, for all pairs of distinct symbols in the code table, neither code is a prefix
of the other. -/
def Obligations.CodesArePrefixFree : Prop :=
  ∀ s : State, s.CodesOk → s.codesValid = true →
    ∀ c c' : Byte, c ≠ c' → (s.code.code c.toNat).len ≠ 0 → (s.code.code c'.toNat).len ≠ 0 →
      ¬ (s.code.code c.toNat).digits <+: (s.code.code c'.toNat).digits

/-- R47, R185: in the table of a tree exactly the symbols of its leaves have a code, of at least one digit and at
most one fewer than the leaves (one in the single-leaf tree), and the digits at and above `len` are 0. -/
def Obligations.CodeTableIsLegal : Prop :=
  ∀ (s : State) (T : Tree), s.HasTree T → s.HasCodes T →
    ∀ c : Byte, (1 ≤ (s.code.code c.toNat).len.toNat ↔ c ∈ T.symbols s.node) ∧
      (s.code.code c.toNat).len.toNat ≤ max 1 (T.leaves.length - 1) ∧
      ∀ i, (s.code.code c.toNat).len.toNat ≤ i → (s.code.code c.toNat).digit i = false

/-- In the code table of the tree that BUILD makes, a symbol of lower frequency never has a shorter code than one of
higher frequency. This is the strong form of R263, the spec's own inference from general knowledge and no normative
rule; the weak form, which R263 calls normative, is its case of the least and the greatest frequency. -/
def Obligations.RarerSymbolsHaveNoShorterCode : Prop :=
  ∀ s t u : State, exec .build s = .next t → t.treeValid = true → exec .gencodes t = .next u →
    ∀ p < s.nSym.toNat, ∀ q < s.nSym.toNat, s.freqtab.word p < s.freqtab.word q →
      (u.code.code (s.symtab.byte q).toNat).len ≤ (u.code.code (s.symtab.byte p).toNat).len

/-! ### ENCODE -/

/-- R198, R204: ENCODE of an input whose every byte has a code, with room for the result, completes: the digits of
the codes in order, MSB-first, zero pad bits, and the counts; nothing else changes but DONE, SEQ and the hidden
working state. -/
def Obligations.EncodePacksTheCodes : Prop :=
  ∀ s : State, s.ConfigOk → s.codesValid = true → s.inLen.toNat ≤ s.config.ibufBytes →
    (∀ i < s.inLen.toNat, (s.code.code (s.ibuf.byte i).toNat).len ≠ 0) →
    (s.codeDigits s.inLen.toNat).length ≤ 8 * s.config.obufBytes →
    ∃ t, exec .encode s = .next t ∧
      t = { s with
            obuf := t.obuf, outLen := t.outLen, bitCount := t.bitCount, symCount := s.inLen, done := true
            seq := .idle, work := t.work } ∧
      t.bitCount.toNat = (s.codeDigits s.inLen.toNat).length ∧
      t.outLen.toNat = (t.bitCount.toNat + 7) / 8 ∧ t.outLen.toNat ≤ s.config.obufBytes ∧
      (List.range t.bitCount.toNat).map t.outbit = s.codeDigits s.inLen.toNat ∧
      (∀ b, t.bitCount.toNat ≤ b → b < 8 * t.outLen.toNat → t.outbit b = false) ∧
      s.inLen.toNat ≤ t.bitCount.toNat ∧ t.bitCount.toNat ≤ 255 * s.inLen.toNat

/-- R200, R284: ENCODE fails with MissingCodeForSymbol at the first input byte without an entry, when the codes
before it fit; ERRINFO holds its index and the byte. -/
def Obligations.EncodeReportsTheMissingCode : Prop :=
  ∀ (s : State) (i : Nat), s.ConfigOk → s.codesValid = true → s.inLen.toNat ≤ s.config.ibufBytes →
    i < s.inLen.toNat → (s.code.code (s.ibuf.byte i).toNat).len = 0 →
    (∀ i' < i, (s.code.code (s.ibuf.byte i').toNat).len ≠ 0) →
    (s.codeDigits i).length ≤ 8 * s.config.obufBytes →
    ∃ t, exec .encode s = .next t ∧
      FailedTransfer s 0x03 ((BitVec.ofNat 32 i <<< 8) ||| (s.ibuf.byte i).setWidth 32) t

/-- R201: ENCODE fails with OutputOverflow at the first input index whose code would carry the bit total past
`8 * OBUF_BYTES`, every byte so far having a code; ERRINFO is the index. -/
def Obligations.EncodeReportsTheOverflow : Prop :=
  ∀ (s : State) (i : Nat), s.ConfigOk → s.codesValid = true → s.inLen.toNat ≤ s.config.ibufBytes →
    i < s.inLen.toNat → (∀ i' ≤ i, (s.code.code (s.ibuf.byte i').toNat).len ≠ 0) →
    (s.codeDigits i).length ≤ 8 * s.config.obufBytes → 8 * s.config.obufBytes < (s.codeDigits (i + 1)).length →
    ∃ t, exec .encode s = .next t ∧ FailedTransfer s 0x15 (BitVec.ofNat 32 i) t

/-! ### DECODE -/

/-- R216, R220, R221, R223: DECODE.B of a bit string that is the concatenation of codes of the tree completes and
gives back their symbols; nothing else changes but DONE, SEQ and the hidden working state. -/
def Obligations.DecodeBRecoversTheSymbols : Prop :=
  ∀ (s : State) (T : Tree) (cs : List Byte), s.ConfigOk → s.treeValid = true → s.HasTree T →
    s.inLen.toNat ≤ s.config.ibufBytes → s.bitCount.toNat ≤ 8 * s.inLen.toNat →
    T.codesOf s.node cs = some (s.inputBits s.bitCount.toNat) → cs.length ≤ s.config.obufBytes →
    ∃ t, exec .decodeB s = .next t ∧
      t = { s with
            obuf := t.obuf, outLen := BitVec.ofNat 32 cs.length, symCount := BitVec.ofNat 32 cs.length
            done := true, seq := .idle, work := t.work } ∧
      (List.range cs.length).map t.obuf.byte = cs ∧ ∀ a, cs.length ≤ a → t.obuf.byte a = s.obuf.byte a

/-- R224, R226: DECODE.S of packed bytes that begin with SYMCOUNT codes of the tree completes, gives back their
symbols, and writes BITCOUNT with the bits they take; nothing else changes but DONE, SEQ and the hidden working
state. -/
def Obligations.DecodeSRecoversTheSymbols : Prop :=
  ∀ (s : State) (T : Tree) (cs : List Byte) (ds : List Bool), s.ConfigOk → s.treeValid = true → s.HasTree T →
    s.inLen.toNat ≤ s.config.ibufBytes → s.symCount.toNat = cs.length → T.codesOf s.node cs = some ds →
    ds = s.inputBits ds.length → ds.length ≤ 8 * s.inLen.toNat → cs.length ≤ s.config.obufBytes →
    ∃ t, exec .decodeS s = .next t ∧
      t = { s with
            obuf := t.obuf, outLen := s.symCount, bitCount := BitVec.ofNat 32 ds.length, done := true
            seq := .idle, work := t.work } ∧
      (List.range cs.length).map t.obuf.byte = cs ∧ ∀ a, cs.length ≤ a → t.obuf.byte a = s.obuf.byte a

/-- R218, first row: a BITCOUNT larger than the packed bytes hold fails before any bit is read, ERRINFO
`8 * IN_LEN`. -/
def Obligations.DecodeBRefusesTooManyBits : Prop :=
  ∀ s : State, s.ConfigOk → s.treeValid = true → s.inLen.toNat ≤ s.config.ibufBytes →
    8 * s.inLen.toNat < s.bitCount.toNat →
    ∃ t, exec .decodeB s = .next t ∧ FailedTransfer s 0x04 (8 * s.inLen) t

/-- R218, third row: DECODE.B fails when the declared bits end inside a code, ERRINFO BITCOUNT. -/
def Obligations.DecodeBReportsAnIncompleteCode : Prop :=
  ∀ (s : State) (T : Tree) (cs : List Byte) (ds rest : List Bool), s.ConfigOk → s.treeValid = true →
    s.HasTree T → s.inLen.toNat ≤ s.config.ibufBytes → s.bitCount.toNat ≤ 8 * s.inLen.toNat →
    T.codesOf s.node cs = some ds → s.inputBits s.bitCount.toNat = ds ++ rest → rest ≠ [] →
    T.StopsInside s.node rest → cs.length ≤ s.config.obufBytes →
    ∃ t, exec .decodeB s = .next t ∧ FailedTransfer s 0x04 s.bitCount t

/-- R221: under a single-leaf tree both forms fail at the first 1 bit they consume, ERRINFO its index. -/
def Obligations.SingleLeafOneBitIsCorrupt : Prop :=
  ∀ (s : State) (k : Nat), s.ConfigOk → s.treeValid = true → (s.node.node s.root.toNat).leaf = true →
    s.inLen.toNat ≤ s.config.ibufBytes → (∀ k' < k, s.inbit k' = false) → s.inbit k = true →
    k ≤ s.config.obufBytes →
    (k < s.bitCount.toNat → s.bitCount.toNat ≤ 8 * s.inLen.toNat →
      ∃ t, exec .decodeB s = .next t ∧ FailedTransfer s 0x04 (BitVec.ofNat 32 k) t) ∧
    (k < s.symCount.toNat → k < 8 * s.inLen.toNat →
      ∃ t, exec .decodeS s = .next t ∧ FailedTransfer s 0x04 (BitVec.ofNat 32 k) t)

/-- R225: DECODE.S fails when the packed bytes run out before SYMCOUNT symbols are out, ERRINFO `8 * IN_LEN`. -/
def Obligations.DecodeSReportsMissingBits : Prop :=
  ∀ (s : State) (T : Tree) (cs : List Byte) (ds rest : List Bool), s.ConfigOk → s.treeValid = true →
    s.HasTree T → s.inLen.toNat ≤ s.config.ibufBytes → T.codesOf s.node cs = some ds →
    s.inputBits (8 * s.inLen.toNat) = ds ++ rest → T.StopsInside s.node rest →
    cs.length < s.symCount.toNat → cs.length ≤ s.config.obufBytes →
    ∃ t, exec .decodeS s = .next t ∧ FailedTransfer s 0x04 (8 * s.inLen) t

/-- R219: both forms fail with OutputOverflow at the symbol that does not fit in OBUF, ERRINFO the index of the bit
that completed it. -/
def Obligations.DecodeReportsTheOverflow : Prop :=
  ∀ (s : State) (T : Tree) (cs : List Byte) (c : Byte) (ds : List Bool), s.ConfigOk → s.treeValid = true →
    s.HasTree T → s.inLen.toNat ≤ s.config.ibufBytes → T.codesOf s.node (cs ++ [c]) = some ds →
    ds = s.inputBits ds.length → cs.length = s.config.obufBytes →
    (ds.length ≤ s.bitCount.toNat → s.bitCount.toNat ≤ 8 * s.inLen.toNat →
      ∃ t, exec .decodeB s = .next t ∧ FailedTransfer s 0x15 (BitVec.ofNat 32 (ds.length - 1)) t) ∧
    (cs.length < s.symCount.toNat → ds.length ≤ 8 * s.inLen.toNat →
      ∃ t, exec .decodeS s = .next t ∧ FailedTransfer s 0x15 (BitVec.ofNat 32 (ds.length - 1)) t)

/-- R217: DECODE.B reads no bit at or beyond BITCOUNT: with any other IBUF that agrees below it, it ends in the same
state but for IBUF. -/
def Obligations.DecodeBReadsNoBitBeyondTheCount : Prop :=
  ∀ (s t : State) (m : Memory Byte),
    (∀ k < s.bitCount.toNat, { s with ibuf := m }.inbit k = s.inbit k) → exec .decodeB s = .next t →
    exec .decodeB { s with ibuf := m } = .next { t with ibuf := m }

/-- R229: the two forms agree: a successful DECODE.B is matched by DECODE.S with the symbol count it wrote, and a
successful DECODE.S by DECODE.B with the bit count it wrote. -/
def Obligations.DecodeFormsAgree : Prop :=
  ∀ (s : State) (T : Tree), s.ConfigOk → s.treeValid = true → s.HasTree T → s.err = false →
    (∀ t, exec .decodeB s = .next t → t.err = false →
      ∃ v, exec .decodeS { s with symCount := t.symCount } = .next v ∧ v.err = false ∧
        v.bitCount = s.bitCount ∧ v.outLen = t.outLen ∧ v.obuf = t.obuf) ∧
    (∀ v, exec .decodeS s = .next v → v.err = false →
      ∃ t, exec .decodeB { s with bitCount := v.bitCount } = .next t ∧ t.err = false ∧
        t.symCount = s.symCount ∧ t.outLen = v.outLen ∧ t.obuf = v.obuf)

/-- R32, R292: what ENCODE, DECODE.B and DECODE.S leave unchanged, whether they complete or fail, and what a
failure leaves: OUT_LEN 0 and the count registers as they were. A success writes no byte of OBUF from OUT_LEN
on. -/
def Obligations.TransferFrame : Prop :=
  ∀ (s t : State) (i : Instr), i = .encode ∨ i = .decodeB ∨ i = .decodeS → exec i s = .next t →
    t = { s with
          obuf := t.obuf, outLen := t.outLen, bitCount := t.bitCount, symCount := t.symCount, done := t.done
          err := t.err, errCode := t.errCode, errInfo := t.errInfo, seq := .idle, work := t.work
          draws := t.draws } ∧
    (i = .decodeB → t.bitCount = s.bitCount) ∧ (i = .decodeS → t.symCount = s.symCount) ∧
    (s.err = false → t.err = true →
      t.outLen = 0 ∧ t.bitCount = s.bitCount ∧ t.symCount = s.symCount ∧ t.done = s.done) ∧
    (s.ConfigOk → s.err = false → t.err = false →
      t.done = true ∧ t.errCode = s.errCode ∧ t.errInfo = s.errInfo ∧
        ∀ a, t.outLen.toNat ≤ a → t.obuf.byte a = s.obuf.byte a)

/-! ### CLEAR, errors and the whole machine -/

/-- R250: CLEAR completes: the registers and flags it names are 0, DONE is 1, and everything else, the memories
among it, is as it was. -/
def Obligations.ClearDiscardsTheSession : Prop :=
  ∀ s : State, exec .clear s = .next { s with
    treeValid := false, codesValid := false, err := false, haz := false, errCode := 0, errInfo := 0, inLen := 0
    bitCount := 0, symCount := 0, outLen := 0, nSym := 0, root := 0, nNodes := 0, seq := .idle, done := true }

/-- R300: `ERR = 1` persists, with ERRCODE and ERRINFO, until CLEAR runs or reset is asserted. -/
def Obligations.ErrorPersistsUntilClearOrReset : Prop :=
  ∀ s t : State, s.FlagsOk → s.err = true → step s = .next t →
    (t.err = true ∧ t.errCode = s.errCode ∧ t.errInfo = s.errInfo) ∨
    (s.sequencerTurn = true ∧ ∃ n, s.seq = .run 0x00000006 n) ∨
    (s.sequencerTurn = false ∧ ∃ x rest, s.host = x :: rest ∧ x.act = .reset)

/-- R40, R46, R49, R50, R74, R91: only BUILD (and reset) changes NODE, only GENCODES (and reset) changes CODE, only
ENCODE and DECODE (and reset) change OBUF, and no command changes IBUF. -/
def Obligations.EachMemoryHasItsWriter : Prop :=
  ∀ s t : State, step s = .next t →
    (s.sequencerTurn = true →
      t.ibuf = s.ibuf ∧ (t.node = s.node ∨ ∃ n, s.seq = .run (encodeCmd .build) n) ∧
      (t.code = s.code ∨ ∃ n, s.seq = .run (encodeCmd .gencodes) n) ∧
      (t.obuf = s.obuf ∨ ∃ n, s.seq = .run (encodeCmd .encode) n ∨ s.seq = .run (encodeCmd .decodeB) n ∨
        s.seq = .run (encodeCmd .decodeS) n)) ∧
    (s.sequencerTurn = false → (∀ x rest, s.host = x :: rest → x.act ≠ .reset) →
      t.node = s.node ∧ t.code = s.code ∧ t.obuf = s.obuf ∧ t.root = s.root ∧ t.nNodes = s.nNodes ∧
      t.outLen = s.outLen ∧ t.treeValid = s.treeValid ∧ t.codesValid = s.codesValid)

/-- R231, R260, R261: the round trip. For every non-empty input that fits in IBUF, from every state without an
error: ANALYZE, BUILD and GENCODES complete; ENCODE completes when its digits fit in OBUF; and then, whatever else
IBUF holds behind the copied packed bytes, both forms of DECODE give back the input when the copy fits in IBUF and
the input in OBUF. -/
def Obligations.RoundTrip : Prop :=
  ∀ (s : State) (b : List Byte), s.ConfigOk → s.err = false → b ≠ [] → b.length ≤ s.config.ibufBytes →
    s.inLen.toNat = b.length → s.inputBytes b.length = b →
    ∃ t1 t2 t3, exec .analyze s = .next t1 ∧ exec .build t1 = .next t2 ∧ exec .gencodes t2 = .next t3 ∧
      t1.err = false ∧ t2.err = false ∧ t3.err = false ∧
      ((t3.codeDigits b.length).length ≤ 8 * s.config.obufBytes →
        ∃ t4, exec .encode t3 = .next t4 ∧ t4.err = false ∧
          (t4.outLen.toNat ≤ s.config.ibufBytes → b.length ≤ s.config.obufBytes →
            ∀ m : Memory Byte, (∀ j < t4.outLen.toNat, m.byte j = t4.obuf.byte j) →
              (∃ v, exec .decodeB { t4 with ibuf := m, inLen := t4.outLen } = .next v ∧ v.err = false ∧
                v.outLen.toNat = b.length ∧ (List.range b.length).map v.obuf.byte = b) ∧
              (∃ v, exec .decodeS { t4 with ibuf := m, inLen := t4.outLen } = .next v ∧ v.err = false ∧
                v.outLen.toNat = b.length ∧ (List.range b.length).map v.obuf.byte = b)))
end

