-- ==== Sys2Proof/Laws/Encoding.lean ====
section
/-! SUPPORT. The lemmas of the command word and of the STATUS word (spec/30_encoding.md R101, R107; spec/10_state.md
R36). -/

namespace Sys2Proof

/-- The bits of an assembled word (R101). -/
theorem getLsbD_wordOf (f : CommandFields) (i : Nat) :
    (wordOf f).getLsbD i =
      if i < 8 then f.opc.getLsbD i else if i < 9 then f.mode.getLsbD (i - 8) else f.rsv.getLsbD (i - 9) := by
  show (f.rsv ++ (f.mode ++ f.opc) : BitVec (23 + (1 + 8))).getLsbD i = _
  rw [BitVec.getLsbD_append, BitVec.getLsbD_append]
  by_cases h1 : i < 8
  · simp [h1, show i < 9 by omega]
  · by_cases h2 : i < 9
    · simp [h1, h2]
    · simp [h1, h2]

/-- The fields of an assembled word are those it was assembled from (R101). -/
theorem fieldsOf_wordOf (f : CommandFields) : fieldsOf (wordOf f) = f := by
  cases f with
  | mk opc mode rsv =>
    simp only [fieldsOf, CommandFields.mk.injEq]
    refine ⟨?_, ?_, ?_⟩ <;> apply BitVec.eq_of_getLsbD_eq <;> intro i hi <;>
      rw [BitVec.getLsbD_extractLsb', getLsbD_wordOf]
    · simp [hi]
    · have : i = 0 := by omega
      subst this
      simp
    · simp [hi, show ¬ 9 + i < 8 by omega, show ¬ 9 + i < 9 by omega]

/-- A word is assembled from its fields (R101). -/
theorem wordOf_fieldsOf (w : Word) : wordOf (fieldsOf w) = w := by
  apply BitVec.eq_of_getLsbD_eq
  intro i hi
  rw [getLsbD_wordOf]
  simp only [fieldsOf, BitVec.getLsbD_extractLsb']
  by_cases h1 : i < 8
  · simp [h1]
  · by_cases h2 : i < 9
    · have : i = 8 := by omega
      subst this
      simp
    · simp [h1, h2, show i - 9 < 23 by omega, show 9 + (i - 9) = i by omega]

/-- What `decodeCmd` answers, through the reasons of a rejection. -/
theorem decodeCmd_eq_some_iff (w : Word) (i : Instr) : decodeCmd w = some i ↔ decodeWord w = .ok i := by
  unfold decodeCmd
  split
  · next j hj => simp [hj]
  · next e he => simp [he]

/-- A word decodes to something exactly when its fields are well-formed (R106). -/
theorem decodeWord_isOk_iff (w : Word) : (decodeCmd w).isSome = true ↔ (fieldsOf w).wellFormed = true := by
  rw [decodeCmd, decodeWord]
  generalize fieldsOf w = f
  obtain ⟨opc, mode, rsv⟩ := f
  simp only [decodeFields, CommandFields.wellFormed, CommandFields.rsvOk, CommandFields.modeOk, CommandFields.opcOk]
  by_cases hr : rsv = 0
  · rcases BitVec.eq_zero_or_eq_one mode with rfl | rfl
    · by_cases h1 : opc = 1
      · simp [hr, h1]
      by_cases h2 : opc = 2
      · simp [hr, h2]
      by_cases h3 : opc = 3
      · simp [hr, h3]
      by_cases h4 : opc = 4
      · simp [hr, h4]
      by_cases h5 : opc = 5
      · simp [hr, h5]
      by_cases h6 : opc = 6
      · simp [hr, h6]
      · have : ¬ (1 ≤ opc.toNat ∧ opc.toNat ≤ 6) := by
          simp only [BitVec.toNat_eq] at h1 h2 h3 h4 h5 h6
          simp at h1 h2 h3 h4 h5 h6
          omega
        simp_all
    · by_cases h5 : opc = 5
      · simp [hr, h5]
      · have h5 : ¬ opc = 5#8 := h5
        simp [hr, h5]
  · have hr : ¬ rsv = 0#23 := hr
    simp [hr]

namespace Machine

/-- The bits of the STATUS word (R36). -/
theorem getLsbD_statusWord (busy done err haz tv cv : Bool) :
    (statusWord busy done err haz tv cv).getLsbD 0 = busy ∧ (statusWord busy done err haz tv cv).getLsbD 1 = done ∧
    (statusWord busy done err haz tv cv).getLsbD 2 = err ∧ (statusWord busy done err haz tv cv).getLsbD 3 = haz ∧
    (statusWord busy done err haz tv cv).getLsbD 4 = tv ∧ (statusWord busy done err haz tv cv).getLsbD 5 = cv := by
  revert busy done err haz tv cv
  decide

/-- The reserved bits of the STATUS word read 0 (R36). -/
theorem getLsbD_statusWord_reserved (busy done err haz tv cv : Bool) {b : Nat} (h : 6 ≤ b) :
    (statusWord busy done err haz tv cv).getLsbD b = false := by
  simp only [statusWord, BitVec.getLsbD_append]
  repeat (rw [if_neg (by omega)])
  simp

end Machine
end Sys2Proof
end

