-- ==== Sys2Proof/Laws/Memory.lean ====
section
/-! SUPPORT. The laws of the memories: what a write changes, and that it keeps the canonical form (R70, R84). -/

namespace Sys2Proof.Machine

variable {α : Type}

/-! ### The list of cells -/

theorem cellAt_insertCell_same (a : Nat) (v : α) (l : List (Nat × α)) : cellAt a (insertCell a v l) = some v := by
  induction l with
  | nil => simp [insertCell, cellAt]
  | cons x t ih =>
    obtain ⟨b, w⟩ := x
    unfold insertCell
    split
    · simp [cellAt]
    · split
      · simp [cellAt]
      · simp [cellAt, *]

theorem cellAt_insertCell_other {a c : Nat} (h : c ≠ a) (v : α) (l : List (Nat × α)) :
    cellAt c (insertCell a v l) = cellAt c l := by
  induction l with
  | nil => simp [insertCell, cellAt, h]
  | cons x t ih =>
    obtain ⟨b, w⟩ := x
    unfold insertCell
    split
    · simp [cellAt, h]
    · split
      · next hab => subst hab; simp [cellAt, h]
      · simp [cellAt, ih]

theorem cellAt_eraseCell_same (a : Nat) (l : List (Nat × α)) : cellAt a (eraseCell a l) = none := by
  induction l with
  | nil => rfl
  | cons x t ih =>
    obtain ⟨b, w⟩ := x
    unfold eraseCell
    split
    · exact ih
    · simp [cellAt, *]

theorem cellAt_eraseCell_other {a c : Nat} (h : c ≠ a) (l : List (Nat × α)) :
    cellAt c (eraseCell a l) = cellAt c l := by
  induction l with
  | nil => rfl
  | cons x t ih =>
    obtain ⟨b, w⟩ := x
    unfold eraseCell
    split
    · next hab => subst hab; simp [cellAt, h, ih]
    · simp [cellAt, ih]

/-! ### Read after write -/

variable [DecidableEq α] (view : Fill → Nat → α)

@[simp] theorem Memory.put_fill (m : Memory α) (a : Nat) (v : α) : (m.put view a v).fill = m.fill := by
  unfold Memory.put
  split <;> rfl

theorem Memory.get_put_same (m : Memory α) (a : Nat) (v : α) : (m.put view a v).get view a = v := by
  unfold Memory.put
  split
  · next h => simp [Memory.get, cellAt_eraseCell_same, h.1, h.2]
  · simp [Memory.get, cellAt_insertCell_same]

theorem Memory.get_put_other {a c : Nat} (h : c ≠ a) (m : Memory α) (v : α) :
    (m.put view a v).get view c = m.get view c := by
  unfold Memory.put
  split <;> simp [Memory.get, cellAt_eraseCell_other h, cellAt_insertCell_other h]

/-- Everything a read can find after a write. -/
theorem Memory.get_put (m : Memory α) (a c : Nat) (v : α) :
    (m.put view a v).get view c = if c = a then v else m.get view c := by
  split
  · next h => subst h; exact m.get_put_same view c v
  · next h => exact m.get_put_other view h v

theorem Memory.byte_setByte (m : Memory Byte) (a c : Nat) (v : Byte) :
    (m.setByte a v).byte c = if c = a then v else m.byte c := m.get_put byteFill a c v

theorem Memory.word_setWord (m : Memory Word) (a c : Nat) (v : Word) :
    (m.setWord a v).word c = if c = a then v else m.word c := m.get_put wordFill a c v

theorem Memory.node_setNode (m : Memory NodeEntry) (a c : Nat) (v : NodeEntry) :
    (m.setNode a v).node c = if c = a then v else m.node c := m.get_put nodeFill a c v

theorem Memory.code_setCode (m : Memory CodeEntry) (a c : Nat) (v : CodeEntry) :
    (m.setCode a v).code c = if c = a then v else m.code c := m.get_put codeFill a c v

@[simp] theorem Memory.byte_setByte_same (m : Memory Byte) (a : Nat) (v : Byte) : (m.setByte a v).byte a = v :=
  m.get_put_same byteFill a v

@[simp] theorem Memory.word_setWord_same (m : Memory Word) (a : Nat) (v : Word) : (m.setWord a v).word a = v :=
  m.get_put_same wordFill a v

@[simp] theorem Memory.node_setNode_same (m : Memory NodeEntry) (a : Nat) (v : NodeEntry) :
    (m.setNode a v).node a = v := m.get_put_same nodeFill a v

@[simp] theorem Memory.code_setCode_same (m : Memory CodeEntry) (a : Nat) (v : CodeEntry) :
    (m.setCode a v).code a = v := m.get_put_same codeFill a v

/-- The table without codes has none (R181). -/
@[simp] theorem noCodes_code (a : Nat) : noCodes.code a = { len := 0, dig := 0 } := by
  simp [noCodes, Memory.code, Memory.get, cellAt, codeFill, Fill.bits, CodeEntry.ofBits]

/-! ### The canonical form -/

omit [DecidableEq α] in
theorem risingCells_cons (x : Nat × α) (l : List (Nat × α)) :
    risingCells (x :: l) = true ↔ (∀ y ∈ l.head?, x.1 < y.1) ∧ risingCells l = true := by
  cases l <;> simp [risingCells]

omit [DecidableEq α] in
theorem risingCells_cons_all {x : Nat × α} {l : List (Nat × α)} :
    risingCells (x :: l) = true ↔ (∀ y ∈ l, x.1 < y.1) ∧ risingCells l = true := by
  induction l generalizing x with
  | nil => simp [risingCells]
  | cons y t ih =>
    rw [risingCells_cons, ih]
    constructor
    · rintro ⟨h, hy, ht⟩
      refine ⟨?_, hy, ht⟩
      intro z hz
      have hxy := h y rfl
      rcases List.mem_cons.1 hz with rfl | hz
      · exact hxy
      · exact hxy.trans (hy z hz)
    · rintro ⟨h, hy, ht⟩
      refine ⟨?_, hy, ht⟩
      intro z hz
      exact h z (by simp at hz; simp [hz])

omit [DecidableEq α] in
theorem mem_insertCell {a : Nat} {v : α} {l : List (Nat × α)} {x : Nat × α} (h : x ∈ insertCell a v l) :
    x = (a, v) ∨ x ∈ l := by
  induction l with
  | nil => simpa [insertCell] using h
  | cons y t ih =>
    obtain ⟨b, w⟩ := y
    unfold insertCell at h
    split at h
    · simpa using h
    · split at h
      · rcases List.mem_cons.1 h with h | h <;> simp [h]
      · rcases List.mem_cons.1 h with h | h
        · simp [h]
        · rcases ih h with h | h <;> simp [h]

omit [DecidableEq α] in
theorem mem_eraseCell {a : Nat} {l : List (Nat × α)} {x : Nat × α} (h : x ∈ eraseCell a l) : x ∈ l := by
  induction l with
  | nil => simp [eraseCell] at h
  | cons y t ih =>
    obtain ⟨b, w⟩ := y
    unfold eraseCell at h
    split at h
    · exact List.mem_cons_of_mem _ (ih h)
    · rcases List.mem_cons.1 h with h | h
      · simp [h]
      · exact List.mem_cons_of_mem _ (ih h)

omit [DecidableEq α] in
theorem risingCells_insertCell (a : Nat) (v : α) (l : List (Nat × α)) (h : risingCells l = true) :
    risingCells (insertCell a v l) = true := by
  induction l with
  | nil => simp [insertCell, risingCells]
  | cons x t ih =>
    obtain ⟨b, w⟩ := x
    have hx := risingCells_cons_all.1 h
    unfold insertCell
    split
    · next hab =>
      refine risingCells_cons_all.2 ⟨?_, h⟩
      intro y hy
      rcases List.mem_cons.1 hy with rfl | hy
      · exact hab
      · exact hab.trans (hx.1 y hy)
    · split
      · next hab => subst hab; exact risingCells_cons_all.2 hx
      · next h1 h2 =>
        refine risingCells_cons_all.2 ⟨?_, ih hx.2⟩
        intro y hy
        rcases mem_insertCell hy with rfl | hy
        · dsimp only; omega
        · exact hx.1 y hy

omit [DecidableEq α] in
theorem risingCells_eraseCell (a : Nat) (l : List (Nat × α)) (h : risingCells l = true) :
    risingCells (eraseCell a l) = true := by
  induction l with
  | nil => rfl
  | cons x t ih =>
    obtain ⟨b, w⟩ := x
    have hx := risingCells_cons_all.1 h
    unfold eraseCell
    split
    · exact ih hx.2
    · exact risingCells_cons_all.2 ⟨fun y hy => hx.1 y (mem_eraseCell hy), ih hx.2⟩

/-- What the canonical form says. -/
theorem Memory.wf_iff (cap : Nat) (m : Memory α) :
    m.wf view cap = true ↔ risingCells m.cells = true ∧ (∀ c ∈ m.cells, c.1 < cap) ∧
      (m.fill = .zero → ∀ c ∈ m.cells, c.2 ≠ view .zero c.1) := by
  simp only [Memory.wf, Bool.and_eq_true, Bool.or_eq_true, List.all_eq_true, decide_eq_true_eq]
  constructor
  · rintro ⟨⟨h1, h2⟩, h3⟩
    refine ⟨h1, h2, fun hf => ?_⟩
    rcases h3 with h3 | h3
    · exact absurd hf h3
    · exact h3
  · rintro ⟨h1, h2, h3⟩
    refine ⟨⟨h1, h2⟩, ?_⟩
    by_cases hf : m.fill = .zero
    · exact .inr (h3 hf)
    · exact .inl hf

/-- A write within the size keeps the canonical form. -/
theorem Memory.wf_put {cap : Nat} {m : Memory α} (h : m.wf view cap = true) {a : Nat} (ha : a < cap) (v : α) :
    (m.put view a v).wf view cap = true := by
  rw [Memory.wf_iff] at h ⊢
  obtain ⟨h1, h2, h3⟩ := h
  unfold Memory.put
  split
  · exact ⟨risingCells_eraseCell a _ h1, fun c hc => h2 c (mem_eraseCell hc),
      fun hf c hc => h3 hf c (mem_eraseCell hc)⟩
  · next hv =>
    refine ⟨risingCells_insertCell a v _ h1, fun c hc => ?_, fun hf c hc => ?_⟩
    · rcases mem_insertCell hc with rfl | hc
      · exact ha
      · exact h2 c hc
    · rcases mem_insertCell hc with rfl | hc
      · exact fun he => hv ⟨hf, he⟩
      · exact h3 hf c hc

theorem Memory.wf_setByte {cap : Nat} {m : Memory Byte} (h : m.wf byteFill cap = true) {a : Nat} (ha : a < cap)
    (v : Byte) : (m.setByte a v).wf byteFill cap = true := Memory.wf_put byteFill h ha v

theorem Memory.wf_setWord {cap : Nat} {m : Memory Word} (h : m.wf wordFill cap = true) {a : Nat} (ha : a < cap)
    (v : Word) : (m.setWord a v).wf wordFill cap = true := Memory.wf_put wordFill h ha v

theorem Memory.wf_setNode {cap : Nat} {m : Memory NodeEntry} (h : m.wf nodeFill cap = true) {a : Nat} (ha : a < cap)
    (v : NodeEntry) : (m.setNode a v).wf nodeFill cap = true := Memory.wf_put nodeFill h ha v

theorem Memory.wf_setCode {cap : Nat} {m : Memory CodeEntry} (h : m.wf codeFill cap = true) {a : Nat} (ha : a < cap)
    (v : CodeEntry) : (m.setCode a v).wf codeFill cap = true := Memory.wf_put codeFill h ha v

/-- A memory none of whose entries is specified is in canonical form; so are the memories after reset. -/
@[simp] theorem Memory.wf_unspecified (cap tag : Nat) : (Memory.unspecified tag : Memory α).wf view cap = true := by
  simp [Memory.wf, Memory.unspecified, risingCells]

@[simp] theorem noCodes_wf (cap : Nat) : noCodes.wf codeFill cap = true := by
  simp [Memory.wf, noCodes, risingCells]

end Sys2Proof.Machine
end

