-- ==== Sys2Proof/Laws/Heap.lean ====
section
/-! SUPPORT. The lemmas of the priority queue and of the leaves that BUILD places: lengths, contents, and what one
round of each loop does (spec/41_minheap.md, spec/42_build.md R163). -/

namespace Sys2Proof.Machine

variable (m : Memory NodeEntry)

/-! ### Positions -/

@[simp] theorem swapAt_length (h : List NodeIdx) (p q : Nat) : (swapAt h p q).length = h.length := by
  simp [swapAt]

/-- What stands at a position below HEAP_N. -/
theorem heapAt_eq_getElem {h : List NodeIdx} {p : Nat} (hp : p < h.length) : heapAt h p = h[p] := by
  simp [heapAt, List.getD, hp]

/-- A swap exchanges what its two positions hold and leaves the rest. -/
theorem heapAt_swapAt {h : List NodeIdx} {x : Nat} (hx : x < h.length) (p q : Nat) :
    heapAt (swapAt h p q) x = if x = q then heapAt h p else if x = p then heapAt h q else heapAt h x := by
  rw [heapAt_eq_getElem (by simpa using hx)]
  simp only [swapAt, List.getElem_set]
  by_cases h1 : q = x
  · simp [h1]
  · by_cases h2 : p = x
    · simp [h1, h2, Ne.symm h1]
    · simp [h1, h2, Ne.symm h1, Ne.symm h2, heapAt_eq_getElem hx]

/-- A swap only rearranges. -/
theorem swapAt_perm {h : List NodeIdx} {p q : Nat} (hp : p < h.length) (hq : q < h.length) :
    (swapAt h p q).Perm h := by
  unfold swapAt
  rw [heapAt_eq_getElem hp, heapAt_eq_getElem hq]
  exact List.set_set_perm hp hq

/-- `lesserPos` answers one of its two positions, a proper one. -/
theorem lesserPos_cases (h : List NodeIdx) (c p : Nat) :
    lesserPos m h c p = p ∨ (lesserPos m h c p = c ∧ c < h.length ∧ less m (heapAt h c) (heapAt h p) = true) := by
  unfold lesserPos
  split
  · next hc => exact .inr ⟨rfl, hc⟩
  · exact .inl rfl

/-! ### Sifting -/

theorem siftDown_perm (fuel : Nat) (h : List NodeIdx) (p : Nat) (hp : p < h.length) :
    (siftDown m fuel h p).Perm h := by
  induction fuel generalizing h p with
  | zero => exact .refl _
  | succ n ih =>
    unfold siftDown
    dsimp only
    split
    · exact .refl _
    · have hm : lesserPos m h (2 * p + 2) (lesserPos m h (2 * p + 1) p) < h.length := by
        rcases lesserPos_cases m h (2 * p + 2) (lesserPos m h (2 * p + 1) p) with e | ⟨e, hl, -⟩
        · rw [e]
          rcases lesserPos_cases m h (2 * p + 1) p with e | ⟨e, hl, -⟩ <;> rw [e] <;> assumption
        · rw [e]; exact hl
      exact (ih _ _ (by simpa using hm)).trans (swapAt_perm hp hm)

@[simp] theorem siftDown_nil (fuel p : Nat) : siftDown m fuel [] p = [] := by
  cases fuel <;> simp [siftDown, lesserPos]

@[simp] theorem siftDown_length (fuel : Nat) (h : List NodeIdx) (p : Nat) :
    (siftDown m fuel h p).length = h.length := by
  induction fuel generalizing h p with
  | zero => rfl
  | succ n ih =>
    unfold siftDown
    dsimp only
    split
    · rfl
    · rw [ih, swapAt_length]

theorem siftUp_perm (fuel : Nat) (h : List NodeIdx) (p : Nat) (hp : p < h.length) :
    (siftUp m fuel h p).Perm h := by
  induction fuel generalizing h p with
  | zero => exact .refl _
  | succ n ih =>
    unfold siftUp
    split
    · have hq : (p - 1) / 2 < h.length := by omega
      exact (ih _ _ (by simpa using hq)).trans (swapAt_perm hp hq)
    · exact .refl _

@[simp] theorem siftUp_length (fuel : Nat) (h : List NodeIdx) (p : Nat) :
    (siftUp m fuel h p).length = h.length := by
  induction fuel generalizing h p with
  | zero => rfl
  | succ n ih =>
    unfold siftUp
    split
    · rw [ih, swapAt_length]
    · rfl

@[simp] theorem heapify_length (c : Nat) (h : List NodeIdx) : (heapify m c h).length = h.length := by
  induction c generalizing h with
  | zero => rfl
  | succ n ih => simp [heapify, ih]

@[simp] theorem buildFromUnordered_length (l : List NodeIdx) : (buildFromUnordered m l).length = l.length := by
  simp [buildFromUnordered]

@[simp] theorem heapInsert_length (h : List NodeIdx) (k : NodeIdx) :
    (heapInsert m h k).length = h.length + 1 := by
  simp [heapInsert]

/-- A heap that is not empty gives up one node (R147). -/
theorem extractMin_length {h : List NodeIdx} {r : NodeIdx} {l : List NodeIdx} (he : extractMin m h = some (r, l)) :
    h.length = l.length + 1 := by
  cases h with
  | nil => simp [extractMin] at he
  | cons x t =>
    simp only [extractMin, Option.some.injEq, Prod.mk.injEq] at he
    obtain ⟨-, rfl⟩ := he
    simp

theorem extractMin_isSome (h : List NodeIdx) : (extractMin m h).isSome = !h.isEmpty := by
  cases h <;> rfl

/-! ### The order -/

/-- `less` reads only the frequencies of its two nodes (R141). -/
theorem less_congr {m m' : Memory NodeEntry} {a b : NodeIdx}
    (ha : (m.node a.toNat).freq = (m'.node a.toNat).freq) (hb : (m.node b.toNat).freq = (m'.node b.toNat).freq) :
    less m a b = less m' a b := by
  simp [less, ha, hb]

/-- `less` on numbers: the frequency first, then the index (R141). -/
theorem less_iff (a b : NodeIdx) :
    less m a b = true ↔
      (m.node a.toNat).freq.toNat < (m.node b.toNat).freq.toNat ∨
        ((m.node a.toNat).freq.toNat = (m.node b.toNat).freq.toNat ∧ a.toNat < b.toNat) := by
  simp only [less, Bool.or_eq_true, Bool.and_eq_true, decide_eq_true_eq, BitVec.lt_def, BitVec.toNat_inj]

/-! ### The leaves -/

/-- Every entry after the leaves are placed (R163). -/
theorem node_placeLeaves (symtab : Memory Byte) (freqtab : Memory Word) (n k : Nat) :
    (placeLeaves symtab freqtab n m).node k = if k < n then leafEntry symtab freqtab k else m.node k := by
  induction n with
  | zero => simp [placeLeaves]
  | succ n ih =>
    rw [placeLeaves, Memory.node_setNode, ih]
    by_cases h : k = n
    · simp [h]
    · by_cases h2 : k < n
      · simp [h, h2, Nat.lt_succ_of_lt h2]
      · have : ¬ k < n + 1 := by omega
        simp [h, h2, this]

/-- `firstDuplicate` finds nothing exactly when the symbols are pairwise distinct (R162). -/
theorem firstDuplicate_eq_none_iff (symtab : Memory Byte) (n : Nat) :
    firstDuplicate symtab n = none ↔ ∀ p q, p < q → q < n → symtab.byte p ≠ symtab.byte q := by
  simp only [firstDuplicate, List.find?_eq_none, List.mem_range, Bool.not_eq_true, List.any_eq_false, beq_iff_eq]
  exact ⟨fun h p q hpq hq => h q hq p hpq, fun h q hq p hpq => h p q hpq hq⟩

/-- What `firstDuplicate` finds (R162). -/
theorem firstDuplicate_eq_some_iff (symtab : Memory Byte) (n q : Nat) :
    firstDuplicate symtab n = some q ↔
      q < n ∧ (∃ p < q, symtab.byte p = symtab.byte q) ∧
        ∀ p' q', p' < q' → q' < q → symtab.byte p' ≠ symtab.byte q' := by
  unfold firstDuplicate
  rw [List.find?_range_eq_some]
  simp only [List.any_eq_true, List.mem_range, beq_iff_eq, Bool.not_eq_true', List.any_eq_false]
  constructor
  · rintro ⟨h1, h2, h3⟩
    exact ⟨h2, h1, fun p' q' hp hq => h3 q' hq p' hp⟩
  · rintro ⟨h1, h2, h3⟩
    exact ⟨h2, h1, fun q' hq p' hp => h3 p' q' hp hq⟩

end Sys2Proof.Machine
end

