-- ==== Sys2Proof/Laws/PerInstr.lean ====
section
/-! SUPPORT. The statements made of every command as syntax, one family and one lemma for each constructor. -/

namespace Sys2Proof.Laws.Encoding

/-- The command is well-formed, its word is the one the table of R104 gives it, and its word has that number in
spec/opcode_table.json. -/
def Statement (i : Instr) : Prop :=
  i.wellFormed = true ∧
    encodeCmd i =
      (match i with
       | .analyze => 0x00000001
       | .build => 0x00000002
       | .gencodes => 0x00000003
       | .encode => 0x00000004
       | .decodeB => 0x00000005
       | .decodeS => 0x00000105
       | .clear => 0x00000006) ∧
    decodeTableWord 32 (encodeCmd i).toNat = some i

theorem analyze : Statement .analyze := ⟨by decide, by decide, by decide⟩
theorem build : Statement .build := ⟨by decide, by decide, by decide⟩
theorem gencodes : Statement .gencodes := ⟨by decide, by decide, by decide⟩
theorem encode : Statement .encode := ⟨by decide, by decide, by decide⟩
theorem decodeB : Statement .decodeB := ⟨by decide, by decide, by decide⟩
theorem decodeS : Statement .decodeS := ⟨by decide, by decide, by decide⟩
theorem clear : Statement .clear := ⟨by decide, by decide, by decide⟩

end Sys2Proof.Laws.Encoding
end

