-- ==== Sys2Proof/Laws/State.lean ====
section
/-! SUPPORT. What each named update of the state does to each field, one lemma per field, so that no proof has to
unfold an update. -/

namespace Sys2Proof.Machine

variable (s : State)

/-! ### accept -/

@[simp] theorem State.accept_config (w : Word) : (s.accept w).config = s.config := rfl
@[simp] theorem State.accept_seq (w : Word) : (s.accept w).seq = .run w 0 := rfl
@[simp] theorem State.accept_done (w : Word) : (s.accept w).done = false := rfl
@[simp] theorem State.accept_err (w : Word) : (s.accept w).err = s.err := rfl
@[simp] theorem State.accept_haz (w : Word) : (s.accept w).haz = s.haz := rfl
@[simp] theorem State.accept_treeValid (w : Word) : (s.accept w).treeValid = s.treeValid := rfl
@[simp] theorem State.accept_codesValid (w : Word) : (s.accept w).codesValid = s.codesValid := rfl
@[simp] theorem State.accept_errCode (w : Word) : (s.accept w).errCode = s.errCode := rfl
@[simp] theorem State.accept_errInfo (w : Word) : (s.accept w).errInfo = s.errInfo := rfl
@[simp] theorem State.accept_inLen (w : Word) : (s.accept w).inLen = s.inLen := rfl
@[simp] theorem State.accept_bitCount (w : Word) : (s.accept w).bitCount = s.bitCount := rfl
@[simp] theorem State.accept_symCount (w : Word) : (s.accept w).symCount = s.symCount := rfl
@[simp] theorem State.accept_outLen (w : Word) : (s.accept w).outLen = s.outLen := rfl
@[simp] theorem State.accept_nSym (w : Word) : (s.accept w).nSym = s.nSym := rfl
@[simp] theorem State.accept_root (w : Word) : (s.accept w).root = s.root := rfl
@[simp] theorem State.accept_nNodes (w : Word) : (s.accept w).nNodes = s.nNodes := rfl
@[simp] theorem State.accept_symtab (w : Word) : (s.accept w).symtab = s.symtab := rfl
@[simp] theorem State.accept_freqtab (w : Word) : (s.accept w).freqtab = s.freqtab := rfl
@[simp] theorem State.accept_node (w : Word) : (s.accept w).node = s.node := rfl
@[simp] theorem State.accept_code (w : Word) : (s.accept w).code = s.code := rfl
@[simp] theorem State.accept_ibuf (w : Word) : (s.accept w).ibuf = s.ibuf := rfl
@[simp] theorem State.accept_obuf (w : Word) : (s.accept w).obuf = s.obuf := rfl
@[simp] theorem State.accept_work (w : Word) : (s.accept w).work = s.work := rfl
@[simp] theorem State.accept_host (w : Word) : (s.accept w).host = s.host := rfl
@[simp] theorem State.accept_rsp (w : Word) : (s.accept w).rsp = s.rsp := rfl
@[simp] theorem State.accept_draws (w : Word) : (s.accept w).draws = s.draws + 1 := rfl

/-! ### complete -/

@[simp] theorem State.complete_config : (s.complete).config = s.config := rfl
@[simp] theorem State.complete_seq : (s.complete).seq = .idle := rfl
@[simp] theorem State.complete_done : (s.complete).done = true := rfl
@[simp] theorem State.complete_err : (s.complete).err = s.err := rfl
@[simp] theorem State.complete_haz : (s.complete).haz = s.haz := rfl
@[simp] theorem State.complete_treeValid : (s.complete).treeValid = s.treeValid := rfl
@[simp] theorem State.complete_codesValid : (s.complete).codesValid = s.codesValid := rfl
@[simp] theorem State.complete_errCode : (s.complete).errCode = s.errCode := rfl
@[simp] theorem State.complete_errInfo : (s.complete).errInfo = s.errInfo := rfl
@[simp] theorem State.complete_inLen : (s.complete).inLen = s.inLen := rfl
@[simp] theorem State.complete_bitCount : (s.complete).bitCount = s.bitCount := rfl
@[simp] theorem State.complete_symCount : (s.complete).symCount = s.symCount := rfl
@[simp] theorem State.complete_outLen : (s.complete).outLen = s.outLen := rfl
@[simp] theorem State.complete_nSym : (s.complete).nSym = s.nSym := rfl
@[simp] theorem State.complete_root : (s.complete).root = s.root := rfl
@[simp] theorem State.complete_nNodes : (s.complete).nNodes = s.nNodes := rfl
@[simp] theorem State.complete_symtab : (s.complete).symtab = s.symtab := rfl
@[simp] theorem State.complete_freqtab : (s.complete).freqtab = s.freqtab := rfl
@[simp] theorem State.complete_node : (s.complete).node = s.node := rfl
@[simp] theorem State.complete_code : (s.complete).code = s.code := rfl
@[simp] theorem State.complete_ibuf : (s.complete).ibuf = s.ibuf := rfl
@[simp] theorem State.complete_obuf : (s.complete).obuf = s.obuf := rfl
@[simp] theorem State.complete_work : (s.complete).work = s.work := rfl
@[simp] theorem State.complete_host : (s.complete).host = s.host := rfl
@[simp] theorem State.complete_rsp : (s.complete).rsp = s.rsp := rfl
@[simp] theorem State.complete_draws : (s.complete).draws = s.draws := rfl

/-! ### raise -/

@[simp] theorem State.raise_config (e : ErrKind) (v : Word) : (s.raise e v).config = s.config := rfl
@[simp] theorem State.raise_seq (e : ErrKind) (v : Word) : (s.raise e v).seq = .idle := rfl
@[simp] theorem State.raise_done (e : ErrKind) (v : Word) : (s.raise e v).done = s.done := rfl
@[simp] theorem State.raise_err (e : ErrKind) (v : Word) : (s.raise e v).err = true := rfl
@[simp] theorem State.raise_haz (e : ErrKind) (v : Word) : (s.raise e v).haz = s.haz := rfl
@[simp] theorem State.raise_treeValid (e : ErrKind) (v : Word) : (s.raise e v).treeValid = s.treeValid := rfl
@[simp] theorem State.raise_codesValid (e : ErrKind) (v : Word) : (s.raise e v).codesValid = s.codesValid := rfl
@[simp] theorem State.raise_errCode (e : ErrKind) (v : Word) : (s.raise e v).errCode = e.code := rfl
@[simp] theorem State.raise_errInfo (e : ErrKind) (v : Word) : (s.raise e v).errInfo = v := rfl
@[simp] theorem State.raise_inLen (e : ErrKind) (v : Word) : (s.raise e v).inLen = s.inLen := rfl
@[simp] theorem State.raise_bitCount (e : ErrKind) (v : Word) : (s.raise e v).bitCount = s.bitCount := rfl
@[simp] theorem State.raise_symCount (e : ErrKind) (v : Word) : (s.raise e v).symCount = s.symCount := rfl
@[simp] theorem State.raise_outLen (e : ErrKind) (v : Word) : (s.raise e v).outLen = s.outLen := rfl
@[simp] theorem State.raise_nSym (e : ErrKind) (v : Word) : (s.raise e v).nSym = s.nSym := rfl
@[simp] theorem State.raise_root (e : ErrKind) (v : Word) : (s.raise e v).root = s.root := rfl
@[simp] theorem State.raise_nNodes (e : ErrKind) (v : Word) : (s.raise e v).nNodes = s.nNodes := rfl
@[simp] theorem State.raise_symtab (e : ErrKind) (v : Word) : (s.raise e v).symtab = s.symtab := rfl
@[simp] theorem State.raise_freqtab (e : ErrKind) (v : Word) : (s.raise e v).freqtab = s.freqtab := rfl
@[simp] theorem State.raise_node (e : ErrKind) (v : Word) : (s.raise e v).node = s.node := rfl
@[simp] theorem State.raise_code (e : ErrKind) (v : Word) : (s.raise e v).code = s.code := rfl
@[simp] theorem State.raise_ibuf (e : ErrKind) (v : Word) : (s.raise e v).ibuf = s.ibuf := rfl
@[simp] theorem State.raise_obuf (e : ErrKind) (v : Word) : (s.raise e v).obuf = s.obuf := rfl
@[simp] theorem State.raise_work (e : ErrKind) (v : Word) : (s.raise e v).work = s.work := rfl
@[simp] theorem State.raise_host (e : ErrKind) (v : Word) : (s.raise e v).host = s.host := rfl
@[simp] theorem State.raise_rsp (e : ErrKind) (v : Word) : (s.raise e v).rsp = s.rsp := rfl
@[simp] theorem State.raise_draws (e : ErrKind) (v : Word) : (s.raise e v).draws = s.draws := rfl

/-! ### discardSession -/

@[simp] theorem State.discardSession_config : (s.discardSession).config = s.config := rfl
@[simp] theorem State.discardSession_seq : (s.discardSession).seq = s.seq := rfl
@[simp] theorem State.discardSession_done : (s.discardSession).done = s.done := rfl
@[simp] theorem State.discardSession_err : (s.discardSession).err = false := rfl
@[simp] theorem State.discardSession_haz : (s.discardSession).haz = false := rfl
@[simp] theorem State.discardSession_treeValid : (s.discardSession).treeValid = false := rfl
@[simp] theorem State.discardSession_codesValid : (s.discardSession).codesValid = false := rfl
@[simp] theorem State.discardSession_errCode : (s.discardSession).errCode = 0 := rfl
@[simp] theorem State.discardSession_errInfo : (s.discardSession).errInfo = 0 := rfl
@[simp] theorem State.discardSession_inLen : (s.discardSession).inLen = 0 := rfl
@[simp] theorem State.discardSession_bitCount : (s.discardSession).bitCount = 0 := rfl
@[simp] theorem State.discardSession_symCount : (s.discardSession).symCount = 0 := rfl
@[simp] theorem State.discardSession_outLen : (s.discardSession).outLen = 0 := rfl
@[simp] theorem State.discardSession_nSym : (s.discardSession).nSym = 0 := rfl
@[simp] theorem State.discardSession_root : (s.discardSession).root = 0 := rfl
@[simp] theorem State.discardSession_nNodes : (s.discardSession).nNodes = 0 := rfl
@[simp] theorem State.discardSession_symtab : (s.discardSession).symtab = s.symtab := rfl
@[simp] theorem State.discardSession_freqtab : (s.discardSession).freqtab = s.freqtab := rfl
@[simp] theorem State.discardSession_node : (s.discardSession).node = s.node := rfl
@[simp] theorem State.discardSession_code : (s.discardSession).code = s.code := rfl
@[simp] theorem State.discardSession_ibuf : (s.discardSession).ibuf = s.ibuf := rfl
@[simp] theorem State.discardSession_obuf : (s.discardSession).obuf = s.obuf := rfl
@[simp] theorem State.discardSession_work : (s.discardSession).work = s.work := rfl
@[simp] theorem State.discardSession_host : (s.discardSession).host = s.host := rfl
@[simp] theorem State.discardSession_rsp : (s.discardSession).rsp = s.rsp := rfl
@[simp] theorem State.discardSession_draws : (s.discardSession).draws = s.draws := rfl

/-! ### loseOutput -/

@[simp] theorem State.loseOutput_config : (s.loseOutput).config = s.config := rfl
@[simp] theorem State.loseOutput_seq : (s.loseOutput).seq = s.seq := rfl
@[simp] theorem State.loseOutput_done : (s.loseOutput).done = s.done := rfl
@[simp] theorem State.loseOutput_err : (s.loseOutput).err = s.err := rfl
@[simp] theorem State.loseOutput_haz : (s.loseOutput).haz = s.haz := rfl
@[simp] theorem State.loseOutput_treeValid : (s.loseOutput).treeValid = s.treeValid := rfl
@[simp] theorem State.loseOutput_codesValid : (s.loseOutput).codesValid = s.codesValid := rfl
@[simp] theorem State.loseOutput_errCode : (s.loseOutput).errCode = s.errCode := rfl
@[simp] theorem State.loseOutput_errInfo : (s.loseOutput).errInfo = s.errInfo := rfl
@[simp] theorem State.loseOutput_inLen : (s.loseOutput).inLen = s.inLen := rfl
@[simp] theorem State.loseOutput_bitCount : (s.loseOutput).bitCount = s.bitCount := rfl
@[simp] theorem State.loseOutput_symCount : (s.loseOutput).symCount = s.symCount := rfl
@[simp] theorem State.loseOutput_outLen : (s.loseOutput).outLen = 0 := rfl
@[simp] theorem State.loseOutput_nSym : (s.loseOutput).nSym = s.nSym := rfl
@[simp] theorem State.loseOutput_root : (s.loseOutput).root = s.root := rfl
@[simp] theorem State.loseOutput_nNodes : (s.loseOutput).nNodes = s.nNodes := rfl
@[simp] theorem State.loseOutput_symtab : (s.loseOutput).symtab = s.symtab := rfl
@[simp] theorem State.loseOutput_freqtab : (s.loseOutput).freqtab = s.freqtab := rfl
@[simp] theorem State.loseOutput_node : (s.loseOutput).node = s.node := rfl
@[simp] theorem State.loseOutput_code : (s.loseOutput).code = s.code := rfl
@[simp] theorem State.loseOutput_ibuf : (s.loseOutput).ibuf = s.ibuf := rfl
@[simp] theorem State.loseOutput_obuf : (s.loseOutput).obuf = Memory.unspecified s.draws := rfl
@[simp] theorem State.loseOutput_work : (s.loseOutput).work = s.work := rfl
@[simp] theorem State.loseOutput_host : (s.loseOutput).host = s.host := rfl
@[simp] theorem State.loseOutput_rsp : (s.loseOutput).rsp = s.rsp := rfl
@[simp] theorem State.loseOutput_draws : (s.loseOutput).draws = s.draws + 1 := rfl

/-! ### failTransfer -/

@[simp] theorem State.failTransfer_config (e : ErrKind) (v : Word) : (s.failTransfer e v).config = s.config := rfl
@[simp] theorem State.failTransfer_seq (e : ErrKind) (v : Word) : (s.failTransfer e v).seq = .idle := rfl
@[simp] theorem State.failTransfer_done (e : ErrKind) (v : Word) : (s.failTransfer e v).done = s.done := rfl
@[simp] theorem State.failTransfer_err (e : ErrKind) (v : Word) : (s.failTransfer e v).err = true := rfl
@[simp] theorem State.failTransfer_haz (e : ErrKind) (v : Word) : (s.failTransfer e v).haz = s.haz := rfl
@[simp] theorem State.failTransfer_treeValid (e : ErrKind) (v : Word) : (s.failTransfer e v).treeValid = s.treeValid := rfl
@[simp] theorem State.failTransfer_codesValid (e : ErrKind) (v : Word) : (s.failTransfer e v).codesValid = s.codesValid := rfl
@[simp] theorem State.failTransfer_errCode (e : ErrKind) (v : Word) : (s.failTransfer e v).errCode = e.code := rfl
@[simp] theorem State.failTransfer_errInfo (e : ErrKind) (v : Word) : (s.failTransfer e v).errInfo = v := rfl
@[simp] theorem State.failTransfer_inLen (e : ErrKind) (v : Word) : (s.failTransfer e v).inLen = s.inLen := rfl
@[simp] theorem State.failTransfer_bitCount (e : ErrKind) (v : Word) : (s.failTransfer e v).bitCount = s.bitCount := rfl
@[simp] theorem State.failTransfer_symCount (e : ErrKind) (v : Word) : (s.failTransfer e v).symCount = s.symCount := rfl
@[simp] theorem State.failTransfer_outLen (e : ErrKind) (v : Word) : (s.failTransfer e v).outLen = 0 := rfl
@[simp] theorem State.failTransfer_nSym (e : ErrKind) (v : Word) : (s.failTransfer e v).nSym = s.nSym := rfl
@[simp] theorem State.failTransfer_root (e : ErrKind) (v : Word) : (s.failTransfer e v).root = s.root := rfl
@[simp] theorem State.failTransfer_nNodes (e : ErrKind) (v : Word) : (s.failTransfer e v).nNodes = s.nNodes := rfl
@[simp] theorem State.failTransfer_symtab (e : ErrKind) (v : Word) : (s.failTransfer e v).symtab = s.symtab := rfl
@[simp] theorem State.failTransfer_freqtab (e : ErrKind) (v : Word) : (s.failTransfer e v).freqtab = s.freqtab := rfl
@[simp] theorem State.failTransfer_node (e : ErrKind) (v : Word) : (s.failTransfer e v).node = s.node := rfl
@[simp] theorem State.failTransfer_code (e : ErrKind) (v : Word) : (s.failTransfer e v).code = s.code := rfl
@[simp] theorem State.failTransfer_ibuf (e : ErrKind) (v : Word) : (s.failTransfer e v).ibuf = s.ibuf := rfl
@[simp] theorem State.failTransfer_obuf (e : ErrKind) (v : Word) : (s.failTransfer e v).obuf = Memory.unspecified s.draws := rfl
@[simp] theorem State.failTransfer_work (e : ErrKind) (v : Word) : (s.failTransfer e v).work = s.work := rfl
@[simp] theorem State.failTransfer_host (e : ErrKind) (v : Word) : (s.failTransfer e v).host = s.host := rfl
@[simp] theorem State.failTransfer_rsp (e : ErrKind) (v : Word) : (s.failTransfer e v).rsp = s.rsp := rfl
@[simp] theorem State.failTransfer_draws (e : ErrKind) (v : Word) : (s.failTransfer e v).draws = s.draws + 1 := rfl

/-! ### invalidate -/

@[simp] theorem State.invalidate_config : (s.invalidate).config = s.config := rfl
@[simp] theorem State.invalidate_seq : (s.invalidate).seq = s.seq := rfl
@[simp] theorem State.invalidate_done : (s.invalidate).done = s.done := rfl
@[simp] theorem State.invalidate_err : (s.invalidate).err = s.err := rfl
@[simp] theorem State.invalidate_haz : (s.invalidate).haz = s.haz := rfl
@[simp] theorem State.invalidate_treeValid : (s.invalidate).treeValid = false := rfl
@[simp] theorem State.invalidate_codesValid : (s.invalidate).codesValid = false := rfl
@[simp] theorem State.invalidate_errCode : (s.invalidate).errCode = s.errCode := rfl
@[simp] theorem State.invalidate_errInfo : (s.invalidate).errInfo = s.errInfo := rfl
@[simp] theorem State.invalidate_inLen : (s.invalidate).inLen = s.inLen := rfl
@[simp] theorem State.invalidate_bitCount : (s.invalidate).bitCount = s.bitCount := rfl
@[simp] theorem State.invalidate_symCount : (s.invalidate).symCount = s.symCount := rfl
@[simp] theorem State.invalidate_outLen : (s.invalidate).outLen = s.outLen := rfl
@[simp] theorem State.invalidate_nSym : (s.invalidate).nSym = s.nSym := rfl
@[simp] theorem State.invalidate_root : (s.invalidate).root = s.root := rfl
@[simp] theorem State.invalidate_nNodes : (s.invalidate).nNodes = s.nNodes := rfl
@[simp] theorem State.invalidate_symtab : (s.invalidate).symtab = s.symtab := rfl
@[simp] theorem State.invalidate_freqtab : (s.invalidate).freqtab = s.freqtab := rfl
@[simp] theorem State.invalidate_node : (s.invalidate).node = s.node := rfl
@[simp] theorem State.invalidate_code : (s.invalidate).code = s.code := rfl
@[simp] theorem State.invalidate_ibuf : (s.invalidate).ibuf = s.ibuf := rfl
@[simp] theorem State.invalidate_obuf : (s.invalidate).obuf = s.obuf := rfl
@[simp] theorem State.invalidate_work : (s.invalidate).work = s.work := rfl
@[simp] theorem State.invalidate_host : (s.invalidate).host = s.host := rfl
@[simp] theorem State.invalidate_rsp : (s.invalidate).rsp = s.rsp := rfl
@[simp] theorem State.invalidate_draws : (s.invalidate).draws = s.draws := rfl

/-! ### respond -/

@[simp] theorem State.respond_config (v : Word) : (s.respond v).config = s.config := rfl
@[simp] theorem State.respond_seq (v : Word) : (s.respond v).seq = s.seq := rfl
@[simp] theorem State.respond_done (v : Word) : (s.respond v).done = s.done := rfl
@[simp] theorem State.respond_err (v : Word) : (s.respond v).err = s.err := rfl
@[simp] theorem State.respond_haz (v : Word) : (s.respond v).haz = s.haz := rfl
@[simp] theorem State.respond_treeValid (v : Word) : (s.respond v).treeValid = s.treeValid := rfl
@[simp] theorem State.respond_codesValid (v : Word) : (s.respond v).codesValid = s.codesValid := rfl
@[simp] theorem State.respond_errCode (v : Word) : (s.respond v).errCode = s.errCode := rfl
@[simp] theorem State.respond_errInfo (v : Word) : (s.respond v).errInfo = s.errInfo := rfl
@[simp] theorem State.respond_inLen (v : Word) : (s.respond v).inLen = s.inLen := rfl
@[simp] theorem State.respond_bitCount (v : Word) : (s.respond v).bitCount = s.bitCount := rfl
@[simp] theorem State.respond_symCount (v : Word) : (s.respond v).symCount = s.symCount := rfl
@[simp] theorem State.respond_outLen (v : Word) : (s.respond v).outLen = s.outLen := rfl
@[simp] theorem State.respond_nSym (v : Word) : (s.respond v).nSym = s.nSym := rfl
@[simp] theorem State.respond_root (v : Word) : (s.respond v).root = s.root := rfl
@[simp] theorem State.respond_nNodes (v : Word) : (s.respond v).nNodes = s.nNodes := rfl
@[simp] theorem State.respond_symtab (v : Word) : (s.respond v).symtab = s.symtab := rfl
@[simp] theorem State.respond_freqtab (v : Word) : (s.respond v).freqtab = s.freqtab := rfl
@[simp] theorem State.respond_node (v : Word) : (s.respond v).node = s.node := rfl
@[simp] theorem State.respond_code (v : Word) : (s.respond v).code = s.code := rfl
@[simp] theorem State.respond_ibuf (v : Word) : (s.respond v).ibuf = s.ibuf := rfl
@[simp] theorem State.respond_obuf (v : Word) : (s.respond v).obuf = s.obuf := rfl
@[simp] theorem State.respond_work (v : Word) : (s.respond v).work = s.work := rfl
@[simp] theorem State.respond_host (v : Word) : (s.respond v).host = s.host := rfl
@[simp] theorem State.respond_rsp (v : Word) : (s.respond v).rsp = some { rdata := v, err := false } := rfl
@[simp] theorem State.respond_draws (v : Word) : (s.respond v).draws = s.draws := rfl

/-! ### respondWrite -/

@[simp] theorem State.respondWrite_config : s.respondWrite.config = s.config := rfl
@[simp] theorem State.respondWrite_seq : s.respondWrite.seq = s.seq := rfl
@[simp] theorem State.respondWrite_done : s.respondWrite.done = s.done := rfl
@[simp] theorem State.respondWrite_err : s.respondWrite.err = s.err := rfl
@[simp] theorem State.respondWrite_haz : s.respondWrite.haz = s.haz := rfl
@[simp] theorem State.respondWrite_treeValid : s.respondWrite.treeValid = s.treeValid := rfl
@[simp] theorem State.respondWrite_codesValid : s.respondWrite.codesValid = s.codesValid := rfl
@[simp] theorem State.respondWrite_errCode : s.respondWrite.errCode = s.errCode := rfl
@[simp] theorem State.respondWrite_errInfo : s.respondWrite.errInfo = s.errInfo := rfl
@[simp] theorem State.respondWrite_inLen : s.respondWrite.inLen = s.inLen := rfl
@[simp] theorem State.respondWrite_bitCount : s.respondWrite.bitCount = s.bitCount := rfl
@[simp] theorem State.respondWrite_symCount : s.respondWrite.symCount = s.symCount := rfl
@[simp] theorem State.respondWrite_outLen : s.respondWrite.outLen = s.outLen := rfl
@[simp] theorem State.respondWrite_nSym : s.respondWrite.nSym = s.nSym := rfl
@[simp] theorem State.respondWrite_root : s.respondWrite.root = s.root := rfl
@[simp] theorem State.respondWrite_nNodes : s.respondWrite.nNodes = s.nNodes := rfl
@[simp] theorem State.respondWrite_symtab : s.respondWrite.symtab = s.symtab := rfl
@[simp] theorem State.respondWrite_freqtab : s.respondWrite.freqtab = s.freqtab := rfl
@[simp] theorem State.respondWrite_node : s.respondWrite.node = s.node := rfl
@[simp] theorem State.respondWrite_code : s.respondWrite.code = s.code := rfl
@[simp] theorem State.respondWrite_ibuf : s.respondWrite.ibuf = s.ibuf := rfl
@[simp] theorem State.respondWrite_obuf : s.respondWrite.obuf = s.obuf := rfl
@[simp] theorem State.respondWrite_work : s.respondWrite.work = s.work := rfl
@[simp] theorem State.respondWrite_host : s.respondWrite.host = s.host := rfl
@[simp] theorem State.respondWrite_rsp : s.respondWrite.rsp = some { rdata := Config.freeBits 32 s.draws 0, err := false } := rfl
@[simp] theorem State.respondWrite_draws : s.respondWrite.draws = s.draws + 1 := rfl

/-! ### poll -/

@[simp] theorem State.poll_config (w : Word) (n : Nat) : (s.poll w n).config = s.config := rfl
@[simp] theorem State.poll_seq (w : Word) (n : Nat) : (s.poll w n).seq = .run w (n + 1) := rfl
@[simp] theorem State.poll_done (w : Word) (n : Nat) : (s.poll w n).done = s.done := rfl
@[simp] theorem State.poll_err (w : Word) (n : Nat) : (s.poll w n).err = s.err := rfl
@[simp] theorem State.poll_haz (w : Word) (n : Nat) : (s.poll w n).haz = s.haz := rfl
@[simp] theorem State.poll_treeValid (w : Word) (n : Nat) : (s.poll w n).treeValid = s.treeValid := rfl
@[simp] theorem State.poll_codesValid (w : Word) (n : Nat) : (s.poll w n).codesValid = s.codesValid := rfl
@[simp] theorem State.poll_errCode (w : Word) (n : Nat) : (s.poll w n).errCode = s.errCode := rfl
@[simp] theorem State.poll_errInfo (w : Word) (n : Nat) : (s.poll w n).errInfo = s.errInfo := rfl
@[simp] theorem State.poll_inLen (w : Word) (n : Nat) : (s.poll w n).inLen = s.inLen := rfl
@[simp] theorem State.poll_bitCount (w : Word) (n : Nat) : (s.poll w n).bitCount = s.bitCount := rfl
@[simp] theorem State.poll_symCount (w : Word) (n : Nat) : (s.poll w n).symCount = s.symCount := rfl
@[simp] theorem State.poll_outLen (w : Word) (n : Nat) : (s.poll w n).outLen = s.outLen := rfl
@[simp] theorem State.poll_nSym (w : Word) (n : Nat) : (s.poll w n).nSym = s.nSym := rfl
@[simp] theorem State.poll_root (w : Word) (n : Nat) : (s.poll w n).root = s.root := rfl
@[simp] theorem State.poll_nNodes (w : Word) (n : Nat) : (s.poll w n).nNodes = s.nNodes := rfl
@[simp] theorem State.poll_symtab (w : Word) (n : Nat) : (s.poll w n).symtab = s.symtab := rfl
@[simp] theorem State.poll_freqtab (w : Word) (n : Nat) : (s.poll w n).freqtab = s.freqtab := rfl
@[simp] theorem State.poll_node (w : Word) (n : Nat) : (s.poll w n).node = s.node := rfl
@[simp] theorem State.poll_code (w : Word) (n : Nat) : (s.poll w n).code = s.code := rfl
@[simp] theorem State.poll_ibuf (w : Word) (n : Nat) : (s.poll w n).ibuf = s.ibuf := rfl
@[simp] theorem State.poll_obuf (w : Word) (n : Nat) : (s.poll w n).obuf = s.obuf := rfl
@[simp] theorem State.poll_work (w : Word) (n : Nat) : (s.poll w n).work = s.work := rfl
@[simp] theorem State.poll_host (w : Word) (n : Nat) : (s.poll w n).host = s.host := rfl
@[simp] theorem State.poll_rsp (w : Word) (n : Nat) : (s.poll w n).rsp = some
      { rdata := ({ s with seq := .run w (n + 1) } : State).status, err := false } := rfl
@[simp] theorem State.poll_draws (w : Word) (n : Nat) : (s.poll w n).draws = s.draws := rfl

/-! ### refuse -/

@[simp] theorem State.refuse_config : (s.refuse).config = s.config := rfl
@[simp] theorem State.refuse_seq : (s.refuse).seq = s.seq := rfl
@[simp] theorem State.refuse_done : (s.refuse).done = s.done := rfl
@[simp] theorem State.refuse_err : (s.refuse).err = s.err := rfl
@[simp] theorem State.refuse_haz : (s.refuse).haz = s.haz := rfl
@[simp] theorem State.refuse_treeValid : (s.refuse).treeValid = s.treeValid := rfl
@[simp] theorem State.refuse_codesValid : (s.refuse).codesValid = s.codesValid := rfl
@[simp] theorem State.refuse_errCode : (s.refuse).errCode = s.errCode := rfl
@[simp] theorem State.refuse_errInfo : (s.refuse).errInfo = s.errInfo := rfl
@[simp] theorem State.refuse_inLen : (s.refuse).inLen = s.inLen := rfl
@[simp] theorem State.refuse_bitCount : (s.refuse).bitCount = s.bitCount := rfl
@[simp] theorem State.refuse_symCount : (s.refuse).symCount = s.symCount := rfl
@[simp] theorem State.refuse_outLen : (s.refuse).outLen = s.outLen := rfl
@[simp] theorem State.refuse_nSym : (s.refuse).nSym = s.nSym := rfl
@[simp] theorem State.refuse_root : (s.refuse).root = s.root := rfl
@[simp] theorem State.refuse_nNodes : (s.refuse).nNodes = s.nNodes := rfl
@[simp] theorem State.refuse_symtab : (s.refuse).symtab = s.symtab := rfl
@[simp] theorem State.refuse_freqtab : (s.refuse).freqtab = s.freqtab := rfl
@[simp] theorem State.refuse_node : (s.refuse).node = s.node := rfl
@[simp] theorem State.refuse_code : (s.refuse).code = s.code := rfl
@[simp] theorem State.refuse_ibuf : (s.refuse).ibuf = s.ibuf := rfl
@[simp] theorem State.refuse_obuf : (s.refuse).obuf = s.obuf := rfl
@[simp] theorem State.refuse_work : (s.refuse).work = s.work := rfl
@[simp] theorem State.refuse_host : (s.refuse).host = s.host := rfl
@[simp] theorem State.refuse_rsp : (s.refuse).rsp = some { rdata := 0, err := true } := rfl
@[simp] theorem State.refuse_draws : (s.refuse).draws = s.draws := rfl

/-! ### refuseLockout -/

@[simp] theorem State.refuseLockout_config : (s.refuseLockout).config = s.config := rfl
@[simp] theorem State.refuseLockout_seq : (s.refuseLockout).seq = s.seq := rfl
@[simp] theorem State.refuseLockout_done : (s.refuseLockout).done = s.done := rfl
@[simp] theorem State.refuseLockout_err : (s.refuseLockout).err = s.err := rfl
@[simp] theorem State.refuseLockout_haz : (s.refuseLockout).haz = true := rfl
@[simp] theorem State.refuseLockout_treeValid : (s.refuseLockout).treeValid = s.treeValid := rfl
@[simp] theorem State.refuseLockout_codesValid : (s.refuseLockout).codesValid = s.codesValid := rfl
@[simp] theorem State.refuseLockout_errCode : (s.refuseLockout).errCode = s.errCode := rfl
@[simp] theorem State.refuseLockout_errInfo : (s.refuseLockout).errInfo = s.errInfo := rfl
@[simp] theorem State.refuseLockout_inLen : (s.refuseLockout).inLen = s.inLen := rfl
@[simp] theorem State.refuseLockout_bitCount : (s.refuseLockout).bitCount = s.bitCount := rfl
@[simp] theorem State.refuseLockout_symCount : (s.refuseLockout).symCount = s.symCount := rfl
@[simp] theorem State.refuseLockout_outLen : (s.refuseLockout).outLen = s.outLen := rfl
@[simp] theorem State.refuseLockout_nSym : (s.refuseLockout).nSym = s.nSym := rfl
@[simp] theorem State.refuseLockout_root : (s.refuseLockout).root = s.root := rfl
@[simp] theorem State.refuseLockout_nNodes : (s.refuseLockout).nNodes = s.nNodes := rfl
@[simp] theorem State.refuseLockout_symtab : (s.refuseLockout).symtab = s.symtab := rfl
@[simp] theorem State.refuseLockout_freqtab : (s.refuseLockout).freqtab = s.freqtab := rfl
@[simp] theorem State.refuseLockout_node : (s.refuseLockout).node = s.node := rfl
@[simp] theorem State.refuseLockout_code : (s.refuseLockout).code = s.code := rfl
@[simp] theorem State.refuseLockout_ibuf : (s.refuseLockout).ibuf = s.ibuf := rfl
@[simp] theorem State.refuseLockout_obuf : (s.refuseLockout).obuf = s.obuf := rfl
@[simp] theorem State.refuseLockout_work : (s.refuseLockout).work = s.work := rfl
@[simp] theorem State.refuseLockout_host : (s.refuseLockout).host = s.host := rfl
@[simp] theorem State.refuseLockout_rsp : (s.refuseLockout).rsp = some { rdata := 0, err := true } := rfl
@[simp] theorem State.refuseLockout_draws : (s.refuseLockout).draws = s.draws := rfl

/-! ### busy -/

@[simp] theorem State.accept_busy (w : Word) : (s.accept w).busy = true := rfl
@[simp] theorem State.complete_busy : s.complete.busy = false := rfl
@[simp] theorem State.raise_busy (e : ErrKind) (v : Word) : (s.raise e v).busy = false := rfl
@[simp] theorem State.failTransfer_busy (e : ErrKind) (v : Word) : (s.failTransfer e v).busy = false := rfl

/-- BUSY is 0 exactly when SEQ is IDLE (R30). -/
theorem State.busy_eq_false_iff : s.busy = false ↔ s.seq = .idle := by
  unfold State.busy
  split <;> simp [*]

end Sys2Proof.Machine
end

