-- ==== Sys2Proof/Laws/Step.lean ====
section
/-! SUPPORT. What one step, one request and one command can do, each said once: the lemmas that proofs cite instead of
unfolding the machine. -/

namespace Sys2Proof.Machine

/-! ### The step -/

/-- Everything a step can do (R20, R30, R247, R322). -/
theorem step_cases {s t : State} (h : step s = .next t) :
    (s.seq = .idle ∧ s.host = [] ∧ t = s) ∨
    (s.sequencerTurn = false ∧ ∃ x rest, s.host = x :: rest ∧ t = { s with host := rest }.hostAct x.act) ∨
    (s.sequencerTurn = true ∧ ∃ w polls, s.seq = .run w polls ∧ runWord w s = .next t) := by
  unfold step at h
  unfold State.sequencerTurn
  split at h
  · next hs hh => injection h with h; exact .inl ⟨hs, hh, h.symm⟩
  · next x rest hs hh => injection h with h; exact .inr (.inl ⟨by simp [hs], x, rest, hh, h.symm⟩)
  · next w n hs hh => exact .inr (.inr ⟨by simp [hs, hh], w, n, hs, h⟩)
  · next w n x rest hs hh =>
    split at h
    · next hd => injection h with h; exact .inr (.inl ⟨by simp [hs, hh, hd], x, rest, hh, h.symm⟩)
    · next hd => exact .inr (.inr ⟨by simp [hs, hh, hd], w, n, hs, h⟩)

/-- The sequencer ends a command: its meaning, or the failure of an illegal word (R245, R247). -/
theorem runWord_cases {w : Word} {s t : State} (h : runWord w s = .next t) :
    (∃ i, decodeCmd w = some i ∧ exec i s = .next t) ∨
    (decodeCmd w = none ∧ t = s.raise .illegalCommand w) := by
  unfold runWord at h
  split at h
  · next i hi => exact .inl ⟨i, hi, h⟩
  · next hn => injection h with h; exact .inr ⟨hn, h.symm⟩

/-- The step after `withFetchWord` runs that word (R245). -/
theorem step_withFetchWord (s : State) (nbits w : Nat) :
    step (s.withFetchWord nbits w) =
      runWord (BitVec.ofNat 32 (w % 2 ^ nbits)) (s.withFetchWord nbits w) := rfl

/-! ### Requests -/

/-- A location of the map stands at its address (R78). -/
theorem locate_addr {c : Config} {l : Loc} (hc : c.wellFormed = true) (hl : l.mapped c = true) :
    locate c l.addr = some l := by
  simp only [Config.wellFormed, Config.ibufOk, Config.obufOk, Bool.and_eq_true, decide_eq_true_eq] at hc
  cases l <;> simp only [Loc.mapped, Bool.and_eq_true, decide_eq_true_eq] at hl <;>
    first
    | rfl
    | (simp only [locate, Loc.addr, BitVec.toNat_ofNat]
       repeat' (first | (rw [if_neg (by omega)]) | (rw [if_pos (by omega)]))
       congr <;> omega)

/-- Everything the presentation of a command word can do (R240, R242, R245, R106). -/
theorem present_cases (s : State) (w : Word) :
    (s.err = true ∧ decodeCmd w ≠ some .clear ∧ s.present w = s.refuseLockout) ∨
    (∃ i, decodeCmd w = some i ∧ (s.err = false ∨ i = .clear) ∧ s.present w = s.respondWrite.accept w) ∨
    (decodeCmd w = none ∧ s.err = false ∧
      s.present w = (s.respondWrite.accept w).raise .illegalCommand w) := by
  unfold State.present
  split
  · next h => exact .inl ⟨h.1, h.2, rfl⟩
  · next h =>
    have he : s.err = false ∨ decodeCmd w = some .clear := by
      rcases Bool.eq_false_or_eq_true s.err with he | he
      · exact .inr (Classical.not_not.1 fun hc => h ⟨he, hc⟩)
      · exact .inl he
    split
    · next i hi =>
      refine .inr (.inl ⟨i, hi, ?_, rfl⟩)
      rcases he with he | he
      · exact .inl he
      · rw [hi] at he
        injection he with he
        exact .inr he
    · next hn =>
      refine .inr (.inr ⟨hn, ?_, rfl⟩)
      rcases he with he | he
      · exact he
      · simp [hn] at he

/-- Everything a request can do while a command runs (R241, R246). -/
theorem serveBusy_cases (s : State) (w : Word) (n : Nat) (r : BusRequest) :
    (r.readsStatus = true ∧ s.serveBusy w n r = s.poll w n) ∨
    (r.readsStatus = false ∧ s.serveBusy w n r = s.refuseLockout) := by
  unfold State.serveBusy
  by_cases hr : r.readsStatus = true
  · exact .inl ⟨hr, if_pos hr⟩
  · exact .inr ⟨by simpa using hr, if_neg hr⟩

/-! ### The flags in a run -/

/-- While no command runs STATUS shows the flags as the state holds them (R36). -/
theorem status_idle {s : State} (h : s.seq = .idle) :
    s.status = statusWord false s.done s.err s.haz s.treeValid s.codesValid := by
  simp [State.status, State.currentView, State.busy, State.flagView, h]

/-- A run shows one of the views its pseudocode passes. -/
theorem viewAt_mem (v : FlagView) (l : List FlagView) (n : Nat) : viewAt v l n = v ∨ viewAt v l n ∈ l := by
  induction l generalizing v n with
  | nil => exact .inl rfl
  | cons u t ih =>
    cases n with
    | zero => exact .inl rfl
    | succ n =>
      rcases ih u n with h | h
      · exact .inr (by rw [viewAt, h]; simp)
      · exact .inr (List.mem_cons_of_mem _ h)

/-- A property that no view of the list takes back once it holds is not taken back by a later look. -/
theorem viewAt_mono {p : FlagView → Prop} {v : FlagView} {l : List FlagView}
    (h : List.IsChain (fun a b => p a → p b) (v :: l)) {m n : Nat} (hmn : m ≤ n) (hp : p (viewAt v l m)) :
    p (viewAt v l n) := by
  induction l generalizing v m n with
  | nil => exact hp
  | cons u t ih =>
    rw [List.isChain_cons_cons] at h
    cases n with
    | zero =>
      have : m = 0 := by omega
      subst this
      exact hp
    | succ n =>
      cases m with
      | zero => exact ih h.2 (Nat.zero_le n) (by cases t <;> exact h.1 hp)
      | succ m => exact ih h.2 (by omega) hp

/-- A later look finds the run no earlier. -/
theorem passedWrites_mono (draw : Nat) {m n : Nat} (h : m ≤ n) : passedWrites draw m ≤ passedWrites draw n := by
  induction n with
  | zero => simp_all
  | succ n ih =>
    rcases Nat.lt_or_ge n m with h1 | h1
    · have : m = n + 1 := by omega
      subst this
      exact Nat.le_refl _
    · exact Nat.le_trans (ih h1) (Nat.le_add_right _ _)

/-- Everything a store can do (R73, R74, R77). -/
theorem writeLoc_cases {s t : State} {v : Word} {l : Loc} (h : s.writeLoc v l = some t) :
    l.writable = true ∧
    (t = s ∨ t = { s with inLen := v } ∨ t = { s with bitCount := v } ∨ t = { s with symCount := v } ∨
      t = { s with nSym := v } ∨ (∃ i, l = .symtab i ∧ t = { s with symtab := s.symtab.setByte i (v.setWidth 8) }) ∨
      (∃ i, l = .freqtab i ∧ t = { s with freqtab := s.freqtab.setWord i v }) ∨
      (∃ i, l = .ibuf i ∧ t = { s with ibuf := s.ibuf.setByte i (v.setWidth 8) })) := by
  cases l <;> simp_all [State.writeLoc, Loc.writable]

/-- Everything a request can do while no command runs (R72 to R76, R240). -/
theorem serveIdle_cases (s : State) (r : BusRequest) :
    s.serveIdle r = s.refuse ∨
    (∃ l, locate s.config r.addr = some l ∧
      ((r.write = false ∧ s.serveIdle r = s.respond (s.readLoc l)) ∨
       (r.write = true ∧ l = .cmd ∧ s.serveIdle r = s.present r.wdata) ∨
       (r.write = true ∧ l ≠ .cmd ∧ ∃ t, s.writeLoc r.wdata l = some t ∧ s.serveIdle r = t.respondWrite))) := by
  unfold State.serveIdle
  split
  · exact .inl rfl
  · next l hl =>
    split
    · next hw =>
      split
      · exact .inr ⟨_, hl, .inr (.inl ⟨hw, rfl, rfl⟩)⟩
      · next t hn ht => exact .inr ⟨_, hl, .inr (.inr ⟨hw, hn, t, ht, rfl⟩)⟩
      · exact .inl rfl
    · next hw => exact .inr ⟨_, hl, .inl ⟨by simpa using hw, rfl⟩⟩

/-! ### Commands -/

/-- Everything ANALYZE can do (R131). -/
theorem execAnalyze_cases {s t : State} (h : execAnalyze s = .next t) :
    (s.config.ibufBytes < s.inLen.toNat ∧ t = s.raise .badParameter s.inLen) ∨
    (s.inLen.toNat ≤ s.config.ibufBytes ∧ t = s.analyzed.complete) := by
  unfold execAnalyze at h
  split at h <;> injection h with h
  · next hb => exact .inl ⟨hb, h.symm⟩
  · next hb => exact .inr ⟨Nat.le_of_not_lt hb, h.symm⟩

/-- Everything BUILD can do after it has cleared the validity flags (R161, R298). -/
theorem buildTree_cases (s : State) :
    (256 < s.nSym.toNat ∧ s.buildTree = s.raise .badParameter s.nSym) ∨
    (s.nSym = 0 ∧ s.buildTree = s.raise .emptyInput 0) ∨
    (s.nSym.toNat ≤ 256 ∧ s.nSym ≠ 0 ∧ ∃ q, firstDuplicate s.symtab s.nSym.toNat = some q ∧
      s.buildTree = s.raise .duplicateSymbol ((BitVec.ofNat 32 q <<< 8) ||| (s.symtab.byte q).setWidth 32)) ∨
    (s.nSym.toNat ≤ 256 ∧ s.nSym ≠ 0 ∧ firstDuplicate s.symtab s.nSym.toNat = none ∧
      s.buildTree = s.merged (mergeLoop s.nSym.toNat s.leavesPlaced)) := by
  unfold State.buildTree
  split
  · next h => exact .inl ⟨h, rfl⟩
  · next h =>
    split
    · next h0 => exact .inr (.inl ⟨h0, rfl⟩)
    · next h0 =>
      split
      · next q hq => exact .inr (.inr (.inl ⟨Nat.le_of_not_lt h, h0, q, hq, rfl⟩))
      · next hq => exact .inr (.inr (.inr ⟨Nat.le_of_not_lt h, h0, hq, rfl⟩))

/-- Everything GENCODES can do when it does not stop (R181). -/
theorem execGencodes_cases {s t : State} (h : execGencodes s = .next t) :
    (s.treeValid = false ∧ t = s.raise .noTree 0) ∨
    (s.treeValid = true ∧ ∃ st, s.traversed = some st ∧
      t = { s with
        code := st.code, codesValid := true, work := { s.work with stack := st.stack, d := st.d } }.complete) := by
  unfold execGencodes at h
  split at h
  · next hv => injection h with h; exact .inl ⟨hv, h.symm⟩
  · next hv =>
    split at h
    · cases h
    · next st hst => injection h with h; exact .inr ⟨by simpa using hv, st, hst, h.symm⟩

/-- Everything ENCODE can do (R196, R298). -/
theorem execEncode_cases {s t : State} (h : execEncode s = .next t) :
    (s.codesValid = false ∧ t = s.failTransfer .noCodes 0) ∨
    (s.codesValid = true ∧ s.config.ibufBytes < s.inLen.toNat ∧ t = s.failTransfer .badParameter s.inLen) ∨
    (s.codesValid = true ∧ s.inLen.toNat ≤ s.config.ibufBytes ∧
      t = s.packed (packLoop s.config.obufBytes s.ibuf s.code s.inLen.toNat s.packStart)) := by
  unfold execEncode at h
  split at h
  · next hv => injection h with h; exact .inl ⟨hv, h.symm⟩
  · next hv =>
    split at h <;> injection h with h
    · next hb => exact .inr (.inl ⟨by simpa using hv, hb, h.symm⟩)
    · next hb => exact .inr (.inr ⟨by simpa using hv, Nat.le_of_not_lt hb, h.symm⟩)

/-- Everything DECODE.B can do (R216, R298). -/
theorem execDecodeB_cases {s t : State} (h : execDecodeB s = .next t) :
    (s.treeValid = false ∧ t = s.failTransfer .noTree 0) ∨
    (s.treeValid = true ∧ s.config.ibufBytes < s.inLen.toNat ∧ t = s.failTransfer .badParameter s.inLen) ∨
    (s.treeValid = true ∧ s.inLen.toNat ≤ s.config.ibufBytes ∧ 8 * s.inLen.toNat < s.bitCount.toNat ∧
      t = s.failTransfer .truncatedOrCorruptBitstream (BitVec.ofNat 32 (8 * s.inLen.toNat))) ∨
    (s.treeValid = true ∧ s.inLen.toNat ≤ s.config.ibufBytes ∧ s.bitCount.toNat ≤ 8 * s.inLen.toNat ∧
      t = s.unpackedB (s.walkBits s.bitCount.toNat s.walkStart)) := by
  unfold execDecodeB at h
  split at h
  · next hv => injection h with h; exact .inl ⟨hv, h.symm⟩
  · next hv =>
    have hv : s.treeValid = true := by simpa using hv
    split at h
    · next hb => injection h with h; exact .inr (.inl ⟨hv, hb, h.symm⟩)
    · next hb =>
      have hb := Nat.le_of_not_lt hb
      split at h <;> injection h with h
      · next hc => exact .inr (.inr (.inl ⟨hv, hb, hc, h.symm⟩))
      · next hc => exact .inr (.inr (.inr ⟨hv, hb, Nat.le_of_not_lt hc, h.symm⟩))

/-- Everything DECODE.S can do (R224, R298). -/
theorem execDecodeS_cases {s t : State} (h : execDecodeS s = .next t) :
    (s.treeValid = false ∧ t = s.failTransfer .noTree 0) ∨
    (s.treeValid = true ∧ s.config.ibufBytes < s.inLen.toNat ∧ t = s.failTransfer .badParameter s.inLen) ∨
    (s.treeValid = true ∧ s.inLen.toNat ≤ s.config.ibufBytes ∧
      t = s.unpackedS (s.walkSyms (8 * s.inLen.toNat) s.walkStart)) := by
  unfold execDecodeS at h
  split at h
  · next hv => injection h with h; exact .inl ⟨hv, h.symm⟩
  · next hv =>
    have hv : s.treeValid = true := by simpa using hv
    split at h <;> injection h with h
    · next hb => exact .inr (.inl ⟨hv, hb, h.symm⟩)
    · next hb => exact .inr (.inr ⟨hv, Nat.le_of_not_lt hb, h.symm⟩)

/-- The walk of DECODE does not look at what the sequencer runs. -/
theorem walkBits_seq (s : State) (q : Seq) (n : Nat) (st : WalkLoop) :
    { s with seq := q }.walkBits n st = s.walkBits n st := by
  induction n generalizing st with
  | zero => rfl
  | succ n ih => simp only [State.walkBits, ih]; rfl

/-- The same of DECODE.S. -/
theorem walkSyms_seq (s : State) (q : Seq) (n : Nat) (st : WalkLoop) :
    { s with seq := q }.walkSyms n st = s.walkSyms n st := by
  induction n generalizing st with
  | zero => rfl
  | succ n ih => simp only [State.walkSyms, ih]; rfl

/-- Nor does the end of DECODE.B. -/
theorem unpackedB_seq (s : State) (q : Seq) (r : Ended WalkLoop) :
    { s with seq := q }.unpackedB r = s.unpackedB r := by
  cases r <;> rfl

/-- The same of DECODE.S. -/
theorem unpackedS_seq (s : State) (q : Seq) (r : Ended WalkLoop) :
    { s with seq := q }.unpackedS r = s.unpackedS r := by
  cases r <;> rfl

/-- Nor does the end of ENCODE. -/
theorem packed_seq (s : State) (q : Seq) (r : Ended PackLoop) :
    { s with seq := q }.packed r = s.packed r := by
  cases r <;> rfl

/-- No command looks at what the sequencer runs, and each ends with SEQ idle: the poll count leaves no trace
(R341). -/
theorem exec_seq (s : State) (q : Seq) (i : Instr) : exec i { s with seq := q } = exec i s := by
  cases i
  · rfl
  · unfold exec execBuild State.buildTree State.merged
    simp only [State.invalidate, State.leavesPlaced]
    rfl
  · unfold exec execGencodes
    rfl
  · unfold exec execEncode
    simp only [packed_seq]
    rfl
  · unfold exec execDecodeB
    simp only [walkBits_seq, unpackedB_seq]
    rfl
  · unfold exec execDecodeS
    simp only [walkSyms_seq, unpackedS_seq]
    rfl
  · rfl

end Sys2Proof.Machine
end

