-- ==== Sys2Proof/Laws/Transfer.lean ====
section
/-! SUPPORT. The lemmas of the bit streams: digits of codes as they are stored, one digit packed, one bit walked, one
byte counted, one node visited (spec/40_analyze.md, 43_gencodes.md, 44_encode.md, 45_decode.md). -/

namespace Sys2Proof.Machine

/-! ### Codes (R46, R47) -/

/-- Digit `i` of a stored digit string: the digit, and 0 beyond the last. -/
theorem getMsbD_digitBits (ds : List Bool) (i : Nat) (hi : i < 255) :
    (digitBits ds).getMsbD i = ds.getD i false := by
  induction ds generalizing i with
  | nil => simp [digitBits]
  | cons b t ih =>
    rw [digitBits, BitVec.getMsbD_or, BitVec.getMsbD_ushiftRight]
    cases i with
    | zero => cases b <;> simp [BitVec.getMsbD_eq_getLsbD]
    | succ n =>
      have hn : n < 255 := by omega
      have h1 : (if b = true then BitVec.twoPow 255 254 else 0).getMsbD (n + 1) = false := by
        cases b
        · simp
        · simp [BitVec.getMsbD_eq_getLsbD, BitVec.getLsbD_twoPow]
          omega
      rw [h1]
      simp [hi, ih n hn]

/-- The length of a stored code of at most 255 digits. -/
theorem CodeEntry.ofDigits_len (ds : List Bool) (h : ds.length ≤ 255) :
    (CodeEntry.ofDigits ds).len.toNat = ds.length := by
  simp [CodeEntry.ofDigits]
  omega

/-- A stored code of at most 255 digits reads back. -/
theorem CodeEntry.digits_ofDigits (ds : List Bool) (h : ds.length ≤ 255) : (CodeEntry.ofDigits ds).digits = ds := by
  rw [CodeEntry.digits, CodeEntry.ofDigits_len ds h]
  apply List.ext_getElem
  · simp
  · intro i h1 h2
    simp only [List.getElem_map, List.getElem_range, CodeEntry.digit]
    rw [CodeEntry.ofDigits, getMsbD_digitBits ds i (by omega)]
    simp [List.getD, h2]

/-- The digits at and above `len` are 0 (R47). -/
theorem CodeEntry.digit_ofDigits_beyond (ds : List Bool) (i : Nat) (h : ds.length ≤ i) :
    (CodeEntry.ofDigits ds).digit i = false := by
  rw [CodeEntry.digit, CodeEntry.ofDigits]
  by_cases hi : i < 255
  · rw [getMsbD_digitBits ds i hi]
    simp [List.getD, h]
  · exact BitVec.getMsbD_of_ge _ _ (Nat.le_of_not_lt hi)

/-! ### ANALYZE (R131) -/

/-- A symbol of the index has the position the index gives it first. -/
theorem positionOf_eq_none_iff (b : Byte) (l : List (Byte × Nat)) :
    positionOf b l = none ↔ ∀ p, (b, p) ∉ l := by
  induction l with
  | nil => simp [positionOf]
  | cons x t ih =>
    obtain ⟨c, q⟩ := x
    unfold positionOf
    split
    · next h => subst h; simp only [reduceCtorEq, false_iff, not_forall, not_not]; exact ⟨q, by simp⟩
    · next h => rw [ih]; simp [h]

theorem mem_of_positionOf {b : Byte} {p : Nat} {l : List (Byte × Nat)} (h : positionOf b l = some p) :
    (b, p) ∈ l := by
  induction l with
  | nil => simp [positionOf] at h
  | cons x t ih =>
    obtain ⟨c, q⟩ := x
    unfold positionOf at h
    split at h
    · next hb => injection h with h; subst hb h; simp
    · exact List.mem_cons_of_mem _ (ih h)

/-- Everything the loop body of ANALYZE can do. -/
theorem analyzeByte_cases (b : Byte) (st : AnalyzeLoop) :
    (∃ p, positionOf b st.index = some p ∧
      analyzeByte b st = { st with freqtab := st.freqtab.setWord p (st.freqtab.word p + 1) }) ∨
    (positionOf b st.index = none ∧
      analyzeByte b st =
        { symtab := st.symtab.setByte st.n b, freqtab := st.freqtab.setWord st.n 1, n := st.n + 1,
          index := st.index ++ [(b, st.n)] }) := by
  unfold analyzeByte
  split
  · next p hp => exact .inl ⟨p, hp, rfl⟩
  · next hp => exact .inr ⟨hp, rfl⟩

/-! ### GENCODES (R181) -/

theorem traverse_nil (node : Memory NodeEntry) (fuel : Nat) {st : TraverseLoop} (h : st.stack = []) :
    traverse node fuel st = some st := by
  unfold traverse
  rw [h]

theorem traverse_cons (node : Memory NodeEntry) (fuel : Nat) {st : TraverseLoop} {k : NodeIdx} {path : List Bool}
    {rest : List (NodeIdx × List Bool)} (h : st.stack = (k, path) :: rest) :
    traverse node (fuel + 1) st = traverse node fuel (visit node k path { st with stack := rest }) := by
  conv => lhs; unfold traverse
  rw [h]

/-! ### ENCODE (R196, R197) -/

@[simp] theorem packDigit_total (b : Bool) (st : PackLoop) : (packDigit b st).total = st.total + 1 := by
  unfold packDigit
  dsimp only
  split <;> rfl

@[simp] theorem packDigit_d (b : Bool) (st : PackLoop) : (packDigit b st).d = st.d + 1 := by
  unfold packDigit
  dsimp only
  split <;> rfl

@[simp] theorem packDigit_i (b : Bool) (st : PackLoop) : (packDigit b st).i = st.i := by
  unfold packDigit
  dsimp only
  split <;> rfl

/-- The position of the next digit: `j = t >> 3` and `NB = t & 7` stay so (R197). -/
theorem packDigit_position (b : Bool) {st : PackLoop} (h : st.nb ≤ 7) :
    8 * (packDigit b st).j + (packDigit b st).nb = 8 * st.j + st.nb + 1 ∧ (packDigit b st).nb ≤ 7 := by
  unfold packDigit
  dsimp only
  split
  · constructor
    · dsimp only; omega
    · exact Nat.zero_le _
  · constructor
    · dsimp only; omega
    · dsimp only; omega

@[simp] theorem packCode_total (c : CodeEntry) (n : Nat) (st : PackLoop) :
    (packCode c n st).total = st.total + n := by
  induction n generalizing st with
  | zero => rfl
  | succ n ih => rw [packCode, ih, packDigit_total]; omega

@[simp] theorem packCode_i (c : CodeEntry) (n : Nat) (st : PackLoop) : (packCode c n st).i = st.i := by
  induction n generalizing st with
  | zero => rfl
  | succ n ih => rw [packCode, ih, packDigit_i]

/-! ### DECODE (R219 to R221) -/

/-- Everything `emit` can do (R219). -/
theorem emit_cases (cap : Nat) (sym : Byte) (st : WalkLoop) :
    (cap ≤ st.j ∧ emit cap sym st = .raised st .outputOverflow (BitVec.ofNat 32 st.k)) ∨
    (st.j < cap ∧ emit cap sym st = .done { st with obuf := st.obuf.setByte st.j sym, j := st.j + 1 }) := by
  unfold emit
  split
  · next h => exact .inl ⟨h, rfl⟩
  · next h => exact .inr ⟨Nat.lt_of_not_le h, rfl⟩

/-- Everything the walk can do in the single-leaf tree (R221). -/
theorem walkLeaf_cases (cap : Nat) (sym : Byte) (bit : Bool) (st : WalkLoop) :
    (bit = true ∧ walkLeaf cap sym bit st = .raised st .truncatedOrCorruptBitstream (BitVec.ofNat 32 st.k)) ∨
    (bit = false ∧ walkLeaf cap sym bit st = emit cap sym st) := by
  cases bit
  · exact .inr ⟨rfl, rfl⟩
  · exact .inl ⟨rfl, rfl⟩

/-- Everything the walk can do below an internal root (R220): it descends, and at a leaf emits and goes back. -/
theorem walkInner_cases (cap : Nat) (node : Memory NodeEntry) (root : NodeIdx) (bit : Bool) (st : WalkLoop) :
    ∃ cur, cur = (if bit then (node.node st.cur.toNat).right else (node.node st.cur.toNat).left) ∧
      (((node.node cur.toNat).leaf = false ∧ walkInner cap node root bit st = .done { st with cur }) ∨
       ((node.node cur.toNat).leaf = true ∧ cap ≤ st.j ∧
        walkInner cap node root bit st =
          .raised { st with cur } .outputOverflow (BitVec.ofNat 32 st.k)) ∨
       ((node.node cur.toNat).leaf = true ∧ st.j < cap ∧
        walkInner cap node root bit st =
          .done { st with
            obuf := st.obuf.setByte st.j (node.node cur.toNat).sym, j := st.j + 1, cur := root })) := by
  refine ⟨_, rfl, ?_⟩
  unfold walkInner
  dsimp only
  generalize (if bit then (node.node st.cur.toNat).right else (node.node st.cur.toNat).left) = cur
  by_cases hl : (node.node cur.toNat).leaf = true
  · rw [if_pos hl]
    rcases emit_cases cap (node.node cur.toNat).sym { st with cur } with ⟨hc, he⟩ | ⟨hc, he⟩
    · rw [he]; exact .inr (.inl ⟨hl, hc, rfl⟩)
    · rw [he]; exact .inr (.inr ⟨hl, hc, rfl⟩)
  · rw [if_neg hl]; exact .inl ⟨by simpa using hl, rfl⟩

/-! ### The tree -/

theorem Tree.leaves_ne_nil (t : Tree) : t.leaves ≠ [] := by
  induction t with
  | leaf k => simp [Tree.leaves]
  | node k l r hl hr => simp [Tree.leaves, hl]

/-- A tree of `n` leaves has `2n - 1` indices (R43). -/
theorem Tree.indices_length (t : Tree) : t.indices.length + 1 = 2 * t.leaves.length := by
  induction t with
  | leaf k => rfl
  | node k l r hl hr => simp only [Tree.indices, Tree.leaves, List.length_cons, List.length_append]; omega

end Sys2Proof.Machine
end

