-- ==== Sys2Proof/Tests/Slice0.lean ====
section
/-! SUPPORT. Tests: the words of the command map, the checks of WellFormed, one step of each command on a small state
(expected values from spec/95_test_vectors.md, whose row is named in each comment), and a witness for the hypotheses
of each statement. -/

namespace Sys2Proof.Tests

open Sys2Proof Sys2Proof.Machine

set_option exponentiation.threshold 300

/-! ### Decoding (R104; each word written out from its fields OPC 7:0, MODE 8, RSV 31:9) -/

theorem test_decode_analyze : decodeCmd 0b00000000000000000000000_0_00000001 = some .analyze := by decide
theorem test_decode_build : decodeCmd 0b00000000000000000000000_0_00000010 = some .build := by decide
theorem test_decode_gencodes : decodeCmd 0b00000000000000000000000_0_00000011 = some .gencodes := by decide
theorem test_decode_encode : decodeCmd 0b00000000000000000000000_0_00000100 = some .encode := by decide
theorem test_decode_decodeB : decodeCmd 0b00000000000000000000000_0_00000101 = some .decodeB := by decide
theorem test_decode_decodeS : decodeCmd 0b00000000000000000000000_1_00000101 = some .decodeS := by decide
theorem test_decode_clear : decodeCmd 0b00000000000000000000000_0_00000110 = some .clear := by decide

/-- Vector X1: the illegal words, each rejected by name. -/
theorem test_decode_illegal :
    decodeWord 0x00000000 = .error .unassignedOpc ∧ decodeWord 0x00000007 = .error .unassignedOpc ∧
      decodeWord 0x000000FF = .error .unassignedOpc ∧ decodeWord 0x00000101 = .error .modeNotAllowed ∧
      decodeWord 0x00000104 = .error .modeNotAllowed ∧ decodeWord 0x00000106 = .error .modeNotAllowed ∧
      decodeWord 0x00000205 = .error .reservedBits ∧ decodeWord 0x80000001 = .error .reservedBits := by decide

theorem test_decodeTableWord :
    decodeTableWord 32 0x105 = some .decodeS ∧ decodeTableWord 32 7 = none ∧
      decodeTableWord 32 (2 ^ 32 + 1) = none := by decide

/-! ### WellFormed: an ill-formed term for each check -/

theorem test_rsv_refused : ({ opc := 1, mode := 0, rsv := 1 } : CommandFields).rsvOk = false := by decide
theorem test_mode_refused : ({ opc := 4, mode := 1, rsv := 0 } : CommandFields).modeOk = false := by decide
theorem test_mode_allowed : ({ opc := 5, mode := 1, rsv := 0 } : CommandFields).modeOk = true := by decide
theorem test_opc_zero_refused : ({ opc := 0, mode := 0, rsv := 0 } : CommandFields).opcOk = false := by decide
theorem test_opc_seven_refused : ({ opc := 7, mode := 0, rsv := 0 } : CommandFields).opcOk = false := by decide
theorem test_fields_refused :
    ({ opc := 1, mode := 0, rsv := 1 } : CommandFields).wellFormed = false ∧
      ({ opc := 4, mode := 1, rsv := 0 } : CommandFields).wellFormed = false ∧
      ({ opc := 7, mode := 0, rsv := 0 } : CommandFields).wellFormed = false := by decide
theorem test_ibuf_refused :
    ({ ibufBytes := 0, obufBytes := 1 } : Config).ibufOk = false ∧
      ({ ibufBytes := 2 ^ 24 + 1, obufBytes := 1 } : Config).wellFormed = false := by decide
theorem test_obuf_refused :
    ({ ibufBytes := 1, obufBytes := 0 } : Config).obufOk = false ∧
      ({ ibufBytes := 1, obufBytes := 2 ^ 24 + 1 } : Config).wellFormed = false := by decide
theorem test_config_accepted :
    Config.default.wellFormed = true ∧ ({ ibufBytes := 1, obufBytes := 2 ^ 24 } : Config).wellFormed = true := by
  decide

/-! ### Small states -/

/-- The outcome is a next state with this property. -/
def got (r : Result) (p : State → Bool) : Bool :=
  match r with
  | .next t => p t
  | .fault _ => false
  | .refused _ => false

theorem exists_of_got {r : Result} {p : State → Bool} (h : got r p = true) : ∃ t, r = .next t ∧ p t = true := by
  unfold got at h
  split at h
  · exact ⟨_, rfl, h⟩
  · cases h
  · cases h

/-- An idle block with 16-byte buffers, its memories all 0. -/
def blank : State :=
  { State.resetWith { ibufBytes := 16, obufBytes := 16 } 0 [] with
    symtab := { fill := .zero, cells := [] }, freqtab := { fill := .zero, cells := [] }
    node := { fill := .zero, cells := [] }, code := noCodes, ibuf := { fill := .zero, cells := [] }
    obuf := { fill := .zero, cells := [] } }

/-- `LOAD` (R118). -/
def load (bytes : List Byte) (s : State) : State :=
  { s with
    ibuf := { fill := .zero, cells := bytes.mapIdx fun i b => (i, b) }
    inLen := BitVec.ofNat 32 bytes.length }

/-- `SETTAB` (R118). -/
def setTab (table : List (Byte × Word)) (s : State) : State :=
  { s with
    symtab := { fill := .zero, cells := table.mapIdx fun i e => (i, e.1) }
    freqtab := { fill := .zero, cells := table.mapIdx fun i e => (i, e.2) }
    nSym := BitVec.ofNat 32 table.length }

/-- The table of vector B4. -/
def abcTable : State := setTab [(0x61, 5), (0x62, 2), (0x63, 2)] blank

/-- The state after vectors B4 and G3, written out: `a = 1`, `b = 00`, `c = 01`. -/
def abc : State :=
  { abcTable with
    node := { fill := .zero, cells :=
      [(0, { leaf := true, sym := 0x61, freq := 5, left := 0, right := 0 }),
       (1, { leaf := true, sym := 0x62, freq := 2, left := 0, right := 0 }),
       (2, { leaf := true, sym := 0x63, freq := 2, left := 0, right := 0 }),
       (3, { leaf := false, sym := 0, freq := 4, left := 1, right := 2 }),
       (4, { leaf := false, sym := 0, freq := 9, left := 3, right := 0 })] }
    nNodes := 5, root := 4, treeValid := true
    code := { fill := .zero, cells :=
      [(0x61, CodeEntry.ofDigits [true]), (0x62, CodeEntry.ofDigits [false, false]),
       (0x63, CodeEntry.ofDigits [false, true])] }
    codesValid := true }

/-- The tree of vector B4. -/
def abcTree : Tree := .node 4 (.node 3 (.leaf 1) (.leaf 2)) (.leaf 0)

/-- The input of vectors D1 to D16. -/
def abcPacked : State := { load [0xF8, 0x28] abc with bitCount := 13, symCount := 9 }

/-- The state after vector B3 with 100 for the count, and its code table. -/
def single : State :=
  { setTab [(0x61, 100)] blank with
    node := { fill := .zero, cells := [(0, { leaf := true, sym := 0x61, freq := 100, left := 0, right := 0 })] }
    nNodes := 1, root := 0, treeValid := true
    code := { fill := .zero, cells := [(0x61, { len := 1, dig := 0 })] }
    codesValid := true }

/-! ### One step of each command -/

/-- Vector A1. -/
theorem test_analyze_aaabb :
    got (exec .analyze (load [0x61, 0x61, 0x61, 0x62, 0x62] blank)) (fun t =>
      t.nSym == 2 && t.symtab.byte 0 == 0x61 && t.symtab.byte 1 == 0x62 && t.freqtab.word 0 == 3 &&
        t.freqtab.word 1 == 2 && t.status == 0x02) = true := by decide

/-- Vector A8. -/
theorem test_analyze_bad_parameter :
    got (exec .analyze { blank with inLen := 17 }) (fun t =>
      t.status == 0x04 && t.errCode == 0x11 && t.errInfo == 0x11 && t.symtab == blank.symtab) = true := by decide

/-- Vector B6. -/
theorem test_build_abracadabra :
    got (exec .build (setTab [(0x61, 5), (0x62, 2), (0x72, 2), (0x63, 1), (0x64, 1)] blank)) (fun t =>
      t.root == 8 && t.nNodes == 9 && t.status == 0x12 &&
        t.node.node 5 == { leaf := false, sym := 0, freq := 2, left := 3, right := 4 } &&
        t.node.node 6 == { leaf := false, sym := 0, freq := 4, left := 1, right := 2 } &&
        t.node.node 7 == { leaf := false, sym := 0, freq := 6, left := 5, right := 6 } &&
        t.node.node 8 == { leaf := false, sym := 0, freq := 11, left := 0, right := 7 }) = true := by decide

/-- Vector B15. -/
theorem test_build_duplicate :
    got (exec .build (setTab [(0x61, 1), (0x62, 1), (0x62, 5), (0x61, 5)] blank)) (fun t =>
      t.status == 0x04 && t.errCode == 0x12 && t.errInfo == 0x262) = true := by decide

/-- Vector G3. -/
theorem test_gencodes_abc :
    got (exec .gencodes { abc with code := noCodes, codesValid := false }) (fun t =>
      t.code == abc.code && t.status == 0x32) = true := by decide

/-- Vector G2. -/
theorem test_gencodes_single :
    got (exec .gencodes { single with code := noCodes, codesValid := false }) (fun t =>
      t.code == single.code && t.status == 0x32) = true := by decide

/-- Vector E2. -/
theorem test_encode_13_bits :
    got (exec .encode (load [0x61, 0x61, 0x61, 0x61, 0x61, 0x62, 0x62, 0x63, 0x63] abc)) (fun t =>
      t.obuf.byte 0 == 0xF8 && t.obuf.byte 1 == 0x28 && t.bitCount == 13 && t.symCount == 9 && t.outLen == 2) =
      true := by decide

/-- As vector E9: the third byte has no code. -/
theorem test_encode_missing :
    got (exec .encode (load [0x61, 0x62, 0x64] abc)) (fun t =>
      t.status == 0x34 && t.errCode == 0x03 && t.errInfo == 0x264 && t.outLen == 0) = true := by decide

/-- Vector D1. -/
theorem test_decodeB_13_bits :
    got (exec .decodeB abcPacked) (fun t =>
      (List.range 9).map t.obuf.byte == [0x61, 0x61, 0x61, 0x61, 0x61, 0x62, 0x62, 0x63, 0x63] &&
        t.outLen == 9 && t.symCount == 9) = true := by decide

/-- Vector D5. -/
theorem test_decodeB_pad_bits :
    got (exec .decodeB { abcPacked with bitCount := 16, symCount := 77 }) (fun t =>
      t.errCode == 0x04 && t.errInfo == 0x10 && t.outLen == 0 && t.symCount == 77) = true := by decide

/-- Vector D12. -/
theorem test_decodeS_10_symbols :
    got (exec .decodeS { abcPacked with symCount := 10 }) (fun t =>
      t.outLen == 10 && t.bitCount == 15 && t.obuf.byte 9 == 0x62) = true := by decide

/-- Vector D16, the second capacity. -/
theorem test_decodeS_overflow :
    got (exec .decodeS { abcPacked with config := { ibufBytes := 16, obufBytes := 6 } }) (fun t =>
      t.errCode == 0x15 && t.errInfo == 8 && t.outLen == 0) = true := by decide

/-- Vector X3. -/
theorem test_clear :
    got (exec .clear { abcPacked with err := true, haz := true, errCode := 3, errInfo := 0x263, done := false })
      (fun t =>
        t.status == 0x02 && t.errCode == 0 && t.inLen == 0 && t.nNodes == 0 && t.node == abc.node &&
          t.ibuf == abcPacked.ibuf) = true := by decide

/-! ### The heap, the bus, the script -/

/-- Vector H1, its first three rows. -/
theorem test_heap :
    let m : Memory NodeEntry := placeLeaves blank.symtab
      { fill := .zero, cells := [(0, 5), (1, 2), (2, 2), (3, 1), (4, 1)] } 5 blank.node
    buildFromUnordered m [0, 1, 2, 3, 4] = [3, 4, 2, 1, 0] ∧
      extractMin m [3, 4, 2, 1, 0] = some (3, [4, 1, 2, 0]) ∧ extractMin m [4, 1, 2, 0] = some (4, [1, 0, 2]) := by
  decide

/-- Vector B6, the window of NODE[8], and vector G4, the window of CODE['d']. -/
theorem test_windows :
    ((List.range 4).map ({ leaf := false, sym := 0, freq := 11, left := 0, right := 7 } : NodeEntry).window =
      [0x0000000B, 0, 0, 0x00070000]) ∧
    (CodeEntry.ofDigits [true, false, true]).window 0 = 3 ∧
    (CodeEntry.ofDigits [true, false, true]).window 1 = 0xA0000000 := by decide

/-- Vectors M5, M6 and M11. -/
theorem test_bus :
    (blank.serve { write := false, addr := 0x009, wdata := 0 }).rsp = some { rdata := 0, err := true } ∧
    (blank.serve { write := false, addr := 0x1000040, wdata := 0 }).rsp = some { rdata := 0, err := true } ∧
    ((blank.serve { write := true, addr := 0x400, wdata := 0x1FF }).serve
      { write := false, addr := 0x400, wdata := 0 }).rsp = some { rdata := 0xFF, err := false } := by decide

/-- Program P5, accesses 4 and 8: the first write is accepted and fails, the second is dropped. -/
theorem test_illegal_then_dropped :
    (blank.serve { write := true, addr := 0x004, wdata := 7 }).status = 0x04 ∧
    ((blank.serve { write := true, addr := 0x004, wdata := 7 }).serve
      { write := true, addr := 0x004, wdata := 2 }).status = 0x0C := by decide

/-- The statement `CMD BUILD` as a bus access (R117). -/
theorem test_script :
    scriptInputs [.cmd .build] =
      [{ during := false, act := .request { write := true, addr := 0x004, wdata := 2 } }] := by decide

/-- A `CMD` with no `WAIT` behind the first one: the second write lands in the run (R299, R340, log entry 21). -/
theorem test_landing :
    (landing [false, true] (scriptInputs [.cmd .build, .cmd .clear])).map HostInput.during = [false, true] := by
  decide

/-- R161, R298: a BUILD that fails shows TREE_VALID 0 throughout, and the ERR it ends with; R181: so does a GENCODES
without a tree with CODES_VALID. -/
theorem test_failing_run_views :
    blank.lastViews .build = [{ err := true, treeValid := false, codesValid := false }] ∧
      (blank.midViews .build).all (fun v => !v.treeValid && !v.codesValid) = true ∧
      blank.lastViews .gencodes = [{ err := true, treeValid := false, codesValid := false }] ∧
      blank.midViews .gencodes = [] := by decide

/-- R161: the flags that a BUILD of a legal table passes, from a state with a tree and codes. -/
theorem test_build_views :
    abc.flagView = { err := false, treeValid := true, codesValid := true } ∧
      abc.midViews .build ++ abc.lastViews .build =
        [{ err := false, treeValid := false, codesValid := true },
          { err := false, treeValid := false, codesValid := false },
          { err := false, treeValid := true, codesValid := false }] := by decide

/-! ### Witnesses: for each statement with hypotheses, a state and operands that meet them -/

/-- DECODE.B accepted on the packed input. -/
def running : State := { abcPacked with seq := .run 0x00000005 0 }

theorem abc_hasTree : abcPacked.HasTree abcTree ∧ abc.HasTree abcTree ∧ running.HasTree abcTree := by decide

theorem abc_hasCodes : running.HasCodes abcTree := by
  intro c
  have h : ∀ n : Fin 256, running.code.code n.val =
      entryOf (abcTree.codeOf running.node (BitVec.ofNat 8 n.val)) := by decide +kernel
  have h2 := h ⟨c.toNat, c.isLt⟩
  simpa using h2

theorem running_inv : running.Inv where
  config := by decide
  flags := by decide
  memories := by decide
  tree := fun _ => ⟨abcTree, abc_hasTree.2.2⟩
  codes := fun _ => ⟨abcTree, abc_hasTree.2.2, abc_hasCodes⟩

/-- For StepKeepsTheFlagInvariant, StepKeepsMemoriesCanonical, StepKeepsTheTree, StepKeepsTheCodeTable and
AcceptedCommandEnds: a step of the sequencer, from a state with a tree and codes. -/
theorem witness_step_keeps :
    running.Inv ∧ running.sequencerTurn = true ∧ running.codesValid = true ∧ ∃ t, step running = .next t :=
  ⟨running_inv, by decide, by decide, _, rfl⟩

theorem witness_ResetEdgeGivesTheResetState :
    ({ running with host := [⟨true, .reset⟩] } : State).host = ⟨true, .reset⟩ :: [] ∧
      (⟨true, .reset⟩ : HostInput).act = .reset ∧
      ((⟨true, .reset⟩ : HostInput).during = true ∨ abc.seq = .idle) ∧ abc.seq = .idle := by decide

theorem witness_ResetStateMeetsTheInvariant : Config.default.wellFormed = true := by decide

theorem witness_StepRunsTheDecodedCommand :
    running.seq = .run 0x00000005 0 ∧ running.sequencerTurn = true ∧ decodeCmd 0x00000005 = some .decodeB := by decide

theorem witness_StepServesTheHost :
    (readInput true .status).act = .request { write := false, addr := 0x008, wdata := 0 } ∧
      (readInput true .status).during = true ∧ ({ abc with host := [] } : State).seq = .idle ∧ abc.host = [] := by
  decide

/-- Each clause, at the ends of its range. -/
theorem witness_RegisterReads :
    abc.seq = .idle ∧ abc.ConfigOk ∧ 0 < 256 ∧ 255 < 256 ∧ 15 < abc.config.ibufBytes ∧ 15 < abc.config.obufBytes := by
  decide

/-- R78, R108: the tables and buffers on the bus, IBUF as in vectors D1 to D16 and OBUF a byte of its own. -/
theorem test_bus_tables :
    let s : State := { abcPacked with obuf := { fill := .zero, cells := [(15, 0x6F)] } }
    (s.serve { write := false, addr := 0x404, wdata := 9 }).rsp = some { rdata := 0x62, err := false } ∧
      (s.serve { write := false, addr := 0x800, wdata := 9 }).rsp = some { rdata := 5, err := false } ∧
      (s.serve { write := false, addr := 0x1000004, wdata := 9 }).rsp = some { rdata := 0x28, err := false } ∧
      (s.serve { write := false, addr := 0x800003C, wdata := 9 }).rsp = some { rdata := 0x6F, err := false } := by
  decide

theorem witness_NodeWindowBits : abc.seq = .idle ∧ 510 ≤ 510 ∧ 3 ≤ 3 ∧ 0 ≤ 3 := by decide

theorem witness_CodeWindowBits : abc.seq = .idle ∧ 255 ≤ 255 ∧ 15 ≤ 15 ∧ 9 ≤ 15 ∧ 254 < 255 ∧ 8 = 1 + 254 / 32 := by
  decide

/-- Every writable location, at the ends of its range. -/
theorem witness_HostWriteThenRead :
    abc.seq = .idle ∧
    ∀ al ∈ ([(0x014, .inLen), (0x018, .bitCount), (0x01C, .symCount), (0x024, .nSym), (0x400, .symtab 0),
        (0x7FC, .symtab 255), (0x800, .freqtab 0), (0xBFC, .freqtab 255), (0x1000000, .ibuf 0),
        (0x100003C, .ibuf 15)] : List (Addr × Loc)),
      locate abc.config al.1 = some al.2 ∧ al.2.writable = true ∧ al.2 ≠ .cmd := by decide

/-- Each clause, at the ends of its range. -/
theorem witness_RefusedAccessChangesNothing :
    abc.seq = .idle ∧ (0x009 : Addr).toNat % 4 ≠ 0 ∧
    (0x38 ≤ (0x038 : Addr).toNat ∧ (0x3FC : Addr).toNat < 0x400) ∧
    (0xC00 ≤ (0xC00 : Addr).toNat ∧ (0x1FFC : Addr).toNat < 0x2000) ∧
    (0x3FF0 ≤ (0x3FF0 : Addr).toNat ∧ (0x3FFC : Addr).toNat < 0x4000) ∧
    (0x8000 ≤ (0x8000 : Addr).toNat ∧ (0xFFFFFC : Addr).toNat < 0x1000000) ∧
    (0x1000000 + 4 * abc.config.ibufBytes ≤ (0x1000040 : Addr).toNat ∧ (0x7FFFFFC : Addr).toNat < 0x8000000) ∧
    0x8000000 + 4 * abc.config.obufBytes ≤ (0x8000040 : Addr).toNat ∧
    (0x2000 ≤ (0x2000 : Addr).toNat ∧ (0x7FFC : Addr).toNat < 0x8000) ∧ 0x8000000 ≤ (0x8000000 : Addr).toNat := by
  decide

theorem witness_ReadChangesOnlyTheResponse :
    abc.seq = .idle ∧ ({ write := false, addr := 0x1000000, wdata := 0 } : BusRequest).write = false := by decide

/-- The block in its error state (vector X2). -/
def failed : State := { abc with err := true, errCode := 0x03, errInfo := 0x263 }

theorem witness_LegalCommandIsAccepted :
    abc.seq = .idle ∧ (abc.err = false ∨ Instr.build = .clear) ∧ failed.seq = .idle ∧
      (failed.err = false ∨ Instr.clear = .clear) := by decide

theorem witness_IllegalWordFailsAtOnce :
    abc.seq = .idle ∧ abc.err = false ∧ ∀ i : Instr, (0x00000007 : Word) ≠ encodeCmd i := by
  refine ⟨rfl, rfl, fun i => ?_⟩
  cases i <;> decide

theorem witness_CommandDroppedWhileInError :
    failed.seq = .idle ∧ failed.err = true ∧ (0x00000004 : Word) ≠ 0x00000006 := by decide

theorem witness_AccessRefusedWhileBusy :
    running.seq = .run 0x00000005 0 ∧
      (({ write := true, addr := 0x004, wdata := 6 } : BusRequest).write = true ∨ (0x004 : Addr) ≠ 0x008) ∧
      (({ write := false, addr := 0x000, wdata := 0 } : BusRequest).write = true ∨ (0x000 : Addr) ≠ 0x008) := by
  decide

/-- Each clause: a command that moves no flag, GENCODES without a tree, BUILD and CLEAR in the error state. -/
theorem witness_StatusReadWhileBusy :
    running.seq = .run 0x00000005 0 ∧ decodeCmd 0x00000005 = some .decodeB ∧
      ({ blank with seq := .run 0x00000003 7 } : State).treeValid = false ∧ decodeCmd 0x00000003 = some .gencodes ∧
      ({ abc with seq := .run 0x00000002 0 } : State).codesValid = true ∧ decodeCmd 0x00000002 = some .build ∧
      ({ failed with seq := .run 0x00000006 0 } : State).err = true ∧ decodeCmd 0x00000006 = some .clear := by decide

theorem witness_PollsLeaveNoTrace :
    running.seq = .run 0x00000005 0 ∧ decodeCmd 0x00000005 = some .decodeB ∧
      ∃ t, exec .decodeB running = .next t := ⟨by decide, by decide, _, rfl⟩

/-- Both clauses, one past the limit. -/
theorem witness_BadParameterIsRaised :
    ({ abc with inLen := 17 } : State).config.ibufBytes < ({ abc with inLen := 17 } : State).inLen.toNat ∧
      abc.codesValid = true ∧ abc.treeValid = true ∧ 256 < ({ abc with nSym := 257 } : State).nSym.toNat := by decide

theorem witness_NoTreeAndNoCodesAreRaised : blank.treeValid = false ∧ blank.codesValid = false := by decide

theorem witness_AnalyzeCountsTheInput :
    (load [0x61, 0x61, 0x61, 0x62, 0x62] blank).inLen.toNat ≤ blank.config.ibufBytes := by decide

theorem witness_AnalyzeFrame : ∃ t, exec .analyze (load [0x61, 0x62] blank) = .next t := ⟨_, rfl⟩

theorem witness_LessIsAStrictTotalOrder :
    less abc.node 1 2 = true ∧ less abc.node 2 0 = true ∧ (1 : NodeIdx) ≠ 2 := by decide

theorem witness_InsertKeepsTheHeap : HeapOk abc.node [1, 0, 2] := by decide

theorem witness_ExtractMinReturnsTheLeast :
    ([1, 0, 2] : List NodeIdx) ≠ [] ∧ ([1, 0, 2] : List NodeIdx).Nodup ∧ HeapOk abc.node [1, 0, 2] := by decide

/-- The table of vector B14. -/
def duplicateTable : State := setTab [(0x61, 1), (0x62, 1), (0x61, 5)] blank

/-- The three clauses, the limits among them. -/
theorem witness_BuildRejects :
    256 < ({ blank with nSym := 257 } : State).nSym.toNat ∧ blank.nSym = 0 ∧
      (0 < 2 ∧ 2 < duplicateTable.nSym.toNat ∧ duplicateTable.nSym.toNat ≤ 256 ∧
        duplicateTable.symtab.byte 0 = duplicateTable.symtab.byte 2) ∧
      ∀ p' q', p' < q' → q' < 2 → duplicateTable.symtab.byte p' ≠ duplicateTable.symtab.byte q' := by
  refine ⟨by decide, by decide, by decide, fun p' q' h1 h2 => ?_⟩
  have h3 : q' = 1 := by omega
  have h4 : p' = 0 := by omega
  subst h3 h4
  decide

/-- At `NODE[3]` the nodes 1 and 2 are merged and 0 is left, at `NODE[4]`, the last, none is left. -/
theorem witness_BuildMakesTheTree :
    (1 ≤ abcTable.nSym.toNat ∧ abcTable.nSym.toNat ≤ 256 ∧
      ∀ q < abcTable.nSym.toNat, ∀ p < q, abcTable.symtab.byte p ≠ abcTable.symtab.byte q) ∧
    got (exec .build abcTable) (fun t =>
      (t.node.node 3).left == 1 && (t.node.node 3).right == 2 && t.node == abc.node && t.root == 4) = true := by
  decide

/-- For RootFrequencyIsTheSum and LeftChildIsTheLesser. -/
theorem witness_build_succeeds :
    (∃ t, exec .build abcTable = .next t ∧ (t.treeValid && t.root == 4) = true) ∧ abcTable.nSym.toNat ≤ 3 ∧
      3 ≤ 2 * abcTable.nSym.toNat - 2 :=
  ⟨exists_of_got (by decide), by decide, by decide⟩

theorem witness_RarerSymbolsHaveNoShorterCode :
    got (exec .build abcTable) (fun t => t.treeValid && got (exec .gencodes t) fun _ => true) = true ∧
      1 < abcTable.nSym.toNat ∧ abcTable.freqtab.word 1 < abcTable.freqtab.word 0 := by decide

theorem witness_BuildNeverUnderflows :
    abcTable.errCode ≠ 0x02 ∧ ∃ t, exec .build abcTable = .next t := ⟨by decide, _, rfl⟩

theorem witness_BuildFrame :
    (∃ t, exec .build abcTable = .next t ∧ t.treeValid = true) ∧
      ∃ t, exec .build duplicateTable = .next t ∧ (!t.treeValid) = true :=
  ⟨exists_of_got (p := State.treeValid) (by decide), exists_of_got (p := fun t => !t.treeValid) (by decide)⟩

/-- The same three symbols in a state that differs in everything else. -/
def sameTable : State := { setTab [(0x61, 5), (0x62, 2), (0x63, 2), (0x61, 1)] abcPacked with nSym := 3 }

theorem witness_BuildDependsOnTheTableOnly :
    abcTable.nSym = sameTable.nSym ∧
      (∀ p < abcTable.nSym.toNat,
        abcTable.symtab.byte p = sameTable.symtab.byte p ∧ abcTable.freqtab.word p = sameTable.freqtab.word p) ∧
      (∃ t, exec .build abcTable = .next t) ∧ ∃ t, exec .build sameTable = .next t :=
  ⟨by decide, by decide, ⟨_, rfl⟩, _, rfl⟩

theorem witness_GencodesRecordsThePaths : abcPacked.treeValid = true ∧ abcPacked.HasTree abcTree :=
  ⟨by decide, abc_hasTree.1⟩

theorem witness_SingleLeafGetsTheCodeZero :
    single.treeValid = true ∧ (single.node.node single.root.toNat).leaf = true := by decide

theorem witness_CodesArePrefixFree :
    running.CodesOk ∧ running.codesValid = true ∧ (0x61 : Byte) ≠ 0x62 ∧
      (running.code.code 0x61).len ≠ 0 ∧ (running.code.code 0x62).len ≠ 0 :=
  ⟨running_inv.codes, by decide, by decide, by decide, by decide⟩

theorem witness_CodeTableIsLegal : running.HasTree abcTree ∧ running.HasCodes abcTree :=
  ⟨abc_hasTree.2.2, abc_hasCodes⟩

/-- The input of vector E2. -/
def abcInput : State := load [0x61, 0x61, 0x61, 0x61, 0x61, 0x62, 0x62, 0x63, 0x63] abc

theorem witness_EncodePacksTheCodes :
    abcInput.ConfigOk ∧ abcInput.codesValid = true ∧ abcInput.inLen.toNat ≤ abcInput.config.ibufBytes ∧
      (∀ i < abcInput.inLen.toNat, (abcInput.code.code (abcInput.ibuf.byte i).toNat).len ≠ 0) ∧
      (abcInput.codeDigits abcInput.inLen.toNat).length ≤ 8 * abcInput.config.obufBytes := by decide

/-- As vector E9: the byte at index 2 has no code. -/
def missingInput : State := load [0x61, 0x62, 0x64] abc

theorem witness_EncodeReportsTheMissingCode :
    missingInput.ConfigOk ∧ missingInput.codesValid = true ∧
      missingInput.inLen.toNat ≤ missingInput.config.ibufBytes ∧ 2 < missingInput.inLen.toNat ∧
      (missingInput.code.code (missingInput.ibuf.byte 2).toNat).len = 0 ∧
      (∀ i' < 2, (missingInput.code.code (missingInput.ibuf.byte i').toNat).len ≠ 0) ∧
      (missingInput.codeDigits 2).length ≤ 8 * missingInput.config.obufBytes := by decide

/-- Vector E14. -/
def overflowInput : State := { abcInput with config := { ibufBytes := 16, obufBytes := 1 } }

theorem witness_EncodeReportsTheOverflow :
    overflowInput.ConfigOk ∧ overflowInput.codesValid = true ∧
      overflowInput.inLen.toNat ≤ overflowInput.config.ibufBytes ∧ 6 < overflowInput.inLen.toNat ∧
      (∀ i' ≤ 6, (overflowInput.code.code (overflowInput.ibuf.byte i').toNat).len ≠ 0) ∧
      (overflowInput.codeDigits 6).length ≤ 8 * overflowInput.config.obufBytes ∧
      8 * overflowInput.config.obufBytes < (overflowInput.codeDigits 7).length := by decide

/-- For DecodeBRecoversTheSymbols and DecodeSRecoversTheSymbols (vectors D1 and D11). -/
theorem witness_decode_succeeds :
    abcPacked.ConfigOk ∧ abcPacked.treeValid = true ∧ abcPacked.HasTree abcTree ∧
      abcPacked.inLen.toNat ≤ abcPacked.config.ibufBytes ∧ abcPacked.bitCount.toNat ≤ 8 * abcPacked.inLen.toNat ∧
      abcTree.codesOf abcPacked.node [0x61, 0x61, 0x61, 0x61, 0x61, 0x62, 0x62, 0x63, 0x63] =
        some (abcPacked.inputBits abcPacked.bitCount.toNat) ∧ 9 ≤ abcPacked.config.obufBytes ∧
      abcPacked.symCount.toNat = 9 ∧ (abcPacked.inputBits 13).length = 13 ∧ 13 ≤ 8 * abcPacked.inLen.toNat := by
  decide

/-- Vector D6. -/
theorem witness_DecodeBRefusesTooManyBits :
    abcPacked.ConfigOk ∧ abcPacked.treeValid = true ∧ abcPacked.inLen.toNat ≤ abcPacked.config.ibufBytes ∧
      8 * abcPacked.inLen.toNat < ({ abcPacked with bitCount := 17 } : State).bitCount.toNat := by decide

/-- Vector D3. -/
theorem witness_DecodeBReportsAnIncompleteCode :
    ({ abcPacked with bitCount := 6 } : State).HasTree abcTree ∧ 6 ≤ 8 * abcPacked.inLen.toNat ∧
      abcTree.codesOf abcPacked.node [0x61, 0x61, 0x61, 0x61, 0x61] = some [true, true, true, true, true] ∧
      abcPacked.inputBits 6 = [true, true, true, true, true] ++ [false] ∧ ([false] : List Bool) ≠ [] ∧
      abcTree.StopsInside abcPacked.node [false] ∧ 5 ≤ abcPacked.config.obufBytes :=
  ⟨by decide, by decide, by decide, by decide, by decide, ⟨0x62, [false, false], by decide, by decide, by decide⟩,
    by decide⟩

/-- Vector D23, with counts of 9. -/
def corrupt : State := { load [0x10, 0] single with bitCount := 9, symCount := 9 }

theorem witness_SingleLeafOneBitIsCorrupt :
    corrupt.ConfigOk ∧ corrupt.treeValid = true ∧ (corrupt.node.node corrupt.root.toNat).leaf = true ∧
      corrupt.inLen.toNat ≤ corrupt.config.ibufBytes ∧ (∀ k' < 3, corrupt.inbit k' = false) ∧
      corrupt.inbit 3 = true ∧ 3 ≤ corrupt.config.obufBytes ∧ 3 < corrupt.bitCount.toNat ∧
      corrupt.bitCount.toNat ≤ 8 * corrupt.inLen.toNat ∧ 3 < corrupt.symCount.toNat ∧
      3 < 8 * corrupt.inLen.toNat := by decide

/-- Vector D13. -/
theorem witness_DecodeSReportsMissingBits :
    abcPacked.HasTree abcTree ∧
      abcTree.codesOf abcPacked.node [0x61, 0x61, 0x61, 0x61, 0x61, 0x62, 0x62, 0x63, 0x63, 0x62] =
        some (abcPacked.inputBits 15) ∧
      abcPacked.inputBits (8 * abcPacked.inLen.toNat) = abcPacked.inputBits 15 ++ [false] ∧
      abcTree.StopsInside abcPacked.node [false] ∧
      10 < ({ abcPacked with symCount := 11 } : State).symCount.toNat ∧ 10 ≤ abcPacked.config.obufBytes :=
  ⟨by decide, by decide, by decide, ⟨0x62, [false, false], by decide, by decide, by decide⟩, by decide, by decide⟩

/-- Vector D16, the first capacity. -/
def fourBytes : State := { abcPacked with config := { ibufBytes := 16, obufBytes := 4 } }

theorem witness_DecodeReportsTheOverflow :
    fourBytes.ConfigOk ∧ fourBytes.treeValid = true ∧ fourBytes.HasTree abcTree ∧
      fourBytes.inLen.toNat ≤ fourBytes.config.ibufBytes ∧
      abcTree.codesOf fourBytes.node ([0x61, 0x61, 0x61, 0x61] ++ [0x61]) = some [true, true, true, true, true] ∧
      [true, true, true, true, true] = fourBytes.inputBits 5 ∧
      ([0x61, 0x61, 0x61, 0x61] : List Byte).length = fourBytes.config.obufBytes ∧
      5 ≤ fourBytes.bitCount.toNat ∧ fourBytes.bitCount.toNat ≤ 8 * fourBytes.inLen.toNat ∧
      4 < fourBytes.symCount.toNat := by decide

/-- The pad bits of the last byte set. -/
theorem witness_DecodeBReadsNoBitBeyondTheCount :
    (∀ k < abcPacked.bitCount.toNat, { abcPacked with ibuf := (load [0xF8, 0x2F] abc).ibuf }.inbit k =
      abcPacked.inbit k) ∧ ∃ t, exec .decodeB abcPacked = .next t := ⟨by decide, _, rfl⟩

theorem witness_DecodeFormsAgree :
    abcPacked.ConfigOk ∧ abcPacked.treeValid = true ∧ abcPacked.HasTree abcTree ∧ abcPacked.err = false ∧
      (∃ t, exec .decodeB abcPacked = .next t ∧ (!t.err) = true) ∧
      ∃ v, exec .decodeS abcPacked = .next v ∧ (!v.err) = true :=
  ⟨by decide, by decide, abc_hasTree.1, by decide, exists_of_got (p := fun t => !t.err) (by decide),
    exists_of_got (p := fun t => !t.err) (by decide)⟩

/-- A success and a failure of each of the three commands. -/
theorem witness_TransferFrame :
    got (exec .encode abcInput) (fun t => !t.err) = true ∧ got (exec .decodeB abcPacked) (fun t => !t.err) = true ∧
      got (exec .decodeS abcPacked) (fun t => !t.err) = true ∧ got (exec .encode missingInput) State.err = true ∧
      got (exec .decodeB corrupt) State.err = true ∧ got (exec .decodeS corrupt) State.err = true ∧
      abcInput.err = false ∧ missingInput.err = false ∧ corrupt.err = false ∧ abcInput.ConfigOk := by decide

theorem witness_ErrorPersistsUntilClearOrReset :
    failed.FlagsOk ∧ failed.err = true ∧
      ∃ t, step { failed with host := [writeInput false .cmd 4] } = .next t ∧ t.err = true :=
  ⟨by decide, by decide, exists_of_got (p := State.err) (by decide)⟩

theorem witness_EachMemoryHasItsWriter :
    (running.sequencerTurn = true ∧ ∃ t, step running = .next t) ∧
      ({ abc with host := [readInput false .id] } : State).sequencerTurn = false ∧
      (∃ t, step { abc with host := [readInput false .id] } = .next t) ∧ (readInput false .id).act ≠ .reset :=
  ⟨⟨by decide, _, rfl⟩, by decide, ⟨_, rfl⟩, by decide⟩

/-- Vector S1: the premises at every stage of the round trip. -/
theorem witness_RoundTrip :
    (load [0x61, 0x61, 0x61, 0x62, 0x62] blank).ConfigOk ∧ blank.err = false ∧
      (load [0x61, 0x61, 0x61, 0x62, 0x62] blank).inLen.toNat = 5 ∧ 5 ≤ blank.config.ibufBytes ∧
      (load [0x61, 0x61, 0x61, 0x62, 0x62] blank).inputBytes 5 = [0x61, 0x61, 0x61, 0x62, 0x62] ∧
      got (exec .analyze (load [0x61, 0x61, 0x61, 0x62, 0x62] blank)) (fun t1 =>
        got (exec .build t1) fun t2 => got (exec .gencodes t2) fun t3 =>
          decide ((t3.codeDigits 5).length ≤ 8 * t3.config.obufBytes) &&
            got (exec .encode t3) fun t4 =>
              decide (t4.outLen.toNat ≤ t4.config.ibufBytes) && decide (5 ≤ t4.config.obufBytes) &&
                t4.obuf.byte 0 == 0xE0) = true := by decide

end Sys2Proof.Tests
end

/-! ## The priority queue serves the least node (spec/41_minheap.md R141 to R147) -/

namespace Sys2Proof.Machine

section Heap

variable (m : Memory NodeEntry)

/-- The order `less` as a number: the frequency first, then the index (R141). -/
def rank (a : NodeIdx) : Nat := (m.node a.toNat).freq.toNat * 512 + a.toNat

theorem less_iff_rank (a b : NodeIdx) : less m a b = true ↔ rank m a < rank m b := by
  rw [less_iff, rank, rank]
  omega

theorem less_eq_false_iff_rank (a b : NodeIdx) : less m a b = false ↔ rank m b ≤ rank m a := by
  rw [← Bool.not_eq_true, less_iff_rank, Nat.not_lt]

/-- Different nodes have different ranks, so no two are tied (R141). -/
theorem rank_injective : Function.Injective (rank m) := fun a b h => by
  unfold rank at h
  exact BitVec.eq_of_toNat_eq (by omega)

theorem less_of_rank_le {a b : NodeIdx} (h : rank m a ≤ rank m b) (hne : a ≠ b) : less m a b = true :=
  (less_iff_rank m a b).2 (Nat.lt_of_le_of_ne h fun he => hne (rank_injective m he))

/-- The rank of a node is a matter of its frequency. -/
theorem rank_congr {m m' : Memory NodeEntry} {a : NodeIdx} (h : m'.node a.toNat = m.node a.toNat) :
    rank m' a = rank m a := by
  simp [rank, h]

/-- The heap invariant for the parents from position `i` on: what `buildFromUnordered` has established when it has
sifted down to `i` (R145). -/
def HeapFrom (i : Nat) (h : List NodeIdx) : Prop :=
  ∀ q < h.length, 0 < q → i ≤ (q - 1) / 2 → rank m (heapAt h ((q - 1) / 2)) ≤ rank m (heapAt h q)

theorem heapOk_iff_heapFrom (h : List NodeIdx) : HeapOk m h ↔ HeapFrom m 0 h := by
  simp only [HeapOk, HeapFrom, less_eq_false_iff_rank, Nat.zero_le, forall_const]

/-! ### Sifting down -/

/-- One of the two tests of `siftDown` picks the lesser of two positions. -/
theorem rank_lesserPos_le (h : List NodeIdx) (c p : Nat) :
    rank m (heapAt h (lesserPos m h c p)) ≤ rank m (heapAt h p) ∧
      (c < h.length → rank m (heapAt h (lesserPos m h c p)) ≤ rank m (heapAt h c)) := by
  unfold lesserPos
  split
  · next hc => exact ⟨Nat.le_of_lt ((less_iff_rank m _ _).1 hc.2), fun _ => Nat.le_refl _⟩
  · next hc =>
    refine ⟨Nat.le_refl _, fun hl => ?_⟩
    rw [← less_eq_false_iff_rank, ← Bool.not_eq_true]
    exact fun hless => hc ⟨hl, hless⟩

/-- The position that `siftDown` exchanges `p` with: `p` itself or a lesser child, and no child is less (R143). -/
theorem siftDown_choice (h : List NodeIdx) (p : Nat) :
    ∃ c, lesserPos m h (2 * p + 2) (lesserPos m h (2 * p + 1) p) = c ∧
      (c = p ∨ c < h.length ∧ p < c ∧ (c - 1) / 2 = p) ∧ rank m (heapAt h c) ≤ rank m (heapAt h p) ∧
      ∀ q < h.length, 0 < q → (q - 1) / 2 = p → rank m (heapAt h c) ≤ rank m (heapAt h q) := by
  obtain ⟨hp1, hc1⟩ := rank_lesserPos_le m h (2 * p + 1) p
  obtain ⟨hp2, hc2⟩ := rank_lesserPos_le m h (2 * p + 2) (lesserPos m h (2 * p + 1) p)
  refine ⟨_, rfl, ?_, hp2.trans hp1, fun q hq h0 hpar => ?_⟩
  · rcases lesserPos_cases m h (2 * p + 2) (lesserPos m h (2 * p + 1) p) with e | ⟨e, hl, -⟩
    · rw [e]
      rcases lesserPos_cases m h (2 * p + 1) p with e | ⟨e, hl, -⟩
      · exact .inl e
      · rw [e]; exact .inr ⟨hl, by omega, by omega⟩
    · rw [e]; exact .inr ⟨hl, by omega, by omega⟩
  · obtain rfl | rfl : q = 2 * p + 1 ∨ q = 2 * p + 2 := by omega
    · exact hp2.trans (hc1 hq)
    · exact hc2 hq

/-- `siftDown` repairs a heap that is broken only below `p` (R143): parents other than `p` are in order, and the
children of `p` are in order with the parent of `p`. -/
theorem siftDown_heapFrom (i fuel : Nat) (h : List NodeIdx) (p : Nat) (hi : i ≤ p) (hp : p < h.length)
    (hfuel : h.length ≤ fuel + p)
    (hother : ∀ q < h.length, 0 < q → i ≤ (q - 1) / 2 → (q - 1) / 2 ≠ p →
      rank m (heapAt h ((q - 1) / 2)) ≤ rank m (heapAt h q))
    (hgrand : ∀ q < h.length, 0 < q → (q - 1) / 2 = p → 0 < p → i ≤ (p - 1) / 2 →
      rank m (heapAt h ((p - 1) / 2)) ≤ rank m (heapAt h q)) :
    HeapFrom m i (siftDown m fuel h p) := by
  induction fuel generalizing h p with
  | zero => omega
  | succ fuel ih =>
    obtain ⟨c, hc, hpos, hle, hleast⟩ := siftDown_choice m h p
    unfold siftDown
    simp only [hc]
    split
    · next hcp =>
      intro q hq h0 hpar
      by_cases hqp : (q - 1) / 2 = p
      · rw [hqp, ← hcp]; exact hleast q hq h0 hqp
      · exact hother q hq h0 hpar hqp
    · next hcp =>
      obtain ⟨hcl, hpc, hcpar⟩ := hpos.resolve_left hcp
      have at_swap : ∀ x < h.length, heapAt (swapAt h p c) x =
          if x = c then heapAt h p else if x = p then heapAt h c else heapAt h x :=
        fun x hx => heapAt_swapAt hx p c
      refine ih (swapAt h p c) c (by omega) (by simpa using hcl) (by simp; omega) ?_ ?_ <;>
        simp only [swapAt_length]
      · intro q hq h0 hpar hne
        rw [at_swap q hq, at_swap _ (by omega), if_neg hne]
        by_cases hqc : q = c
        · subst hqc; simpa [hcpar] using hle
        · by_cases hqp : q = p
          · subst hqp
            rw [if_neg hqc, if_neg (by omega), if_pos rfl]
            exact hgrand c hcl (by omega) hcpar h0 hpar
          · rw [if_neg hqc, if_neg hqp]
            split
            · next hqpar => exact hleast q hq h0 hqpar
            · next hqpar => exact hother q hq h0 hpar hqpar
      · intro q hq h0 hqc _ _
        rw [hcpar, at_swap q hq, at_swap p hp, if_neg (by omega), if_pos rfl, if_neg (by omega), if_neg (by omega)]
        rw [← hqc]
        exact hother q hq h0 (by omega) (by omega)

/-! ### Sifting up -/

/-- A heap that is in order but at `p`, and in order there too, is a heap. -/
theorem heapFrom_zero_of_except {h : List NodeIdx} (p : Nat)
    (hother : ∀ q < h.length, 0 < q → q ≠ p → rank m (heapAt h ((q - 1) / 2)) ≤ rank m (heapAt h q))
    (hle : 0 < p → rank m (heapAt h ((p - 1) / 2)) ≤ rank m (heapAt h p)) : HeapFrom m 0 h := by
  intro q hq h0 _
  by_cases hqp : q = p
  · subst hqp; exact hle h0
  · exact hother q hq h0 hqp

/-- `siftUp` repairs a heap that is broken only at `p` (R144): positions other than `p` are in order with their
parents, and the children of `p` are in order with the parent of `p`. -/
theorem siftUp_heapOk (fuel : Nat) (h : List NodeIdx) (p : Nat) (hp : p < h.length) (hfuel : p ≤ fuel)
    (hother : ∀ q < h.length, 0 < q → q ≠ p → rank m (heapAt h ((q - 1) / 2)) ≤ rank m (heapAt h q))
    (hgrand : ∀ q < h.length, 0 < q → (q - 1) / 2 = p → 0 < p →
      rank m (heapAt h ((p - 1) / 2)) ≤ rank m (heapAt h q)) :
    HeapFrom m 0 (siftUp m fuel h p) := by
  induction fuel generalizing h p with
  | zero => exact heapFrom_zero_of_except m p hother (by omega)
  | succ fuel ih =>
    unfold siftUp
    split
    · next hc =>
      obtain ⟨h0p, hless⟩ := hc
      rw [less_iff_rank] at hless
      have hpar : (p - 1) / 2 < p := by omega
      have at_swap : ∀ x < h.length, heapAt (swapAt h p ((p - 1) / 2)) x =
          if x = (p - 1) / 2 then heapAt h p else if x = p then heapAt h ((p - 1) / 2) else heapAt h x :=
        fun x hx => heapAt_swapAt hx p _
      have hothers : ∀ q < h.length, 0 < q → q ≠ (p - 1) / 2 →
          rank m (heapAt (swapAt h p ((p - 1) / 2)) ((q - 1) / 2)) ≤
            rank m (heapAt (swapAt h p ((p - 1) / 2)) q) := by
        intro q hq h0 hne
        rw [at_swap q hq, at_swap _ (by omega), if_neg hne]
        by_cases hqp : q = p
        · subst hqp; simpa using Nat.le_of_lt hless
        · rw [if_neg hqp]
          split
          · next hs =>
            have hq := hother q hq h0 hqp
            rw [hs] at hq
            exact (Nat.le_of_lt hless).trans hq
          · split
            · next hqpar => exact hgrand q hq h0 hqpar h0p
            · exact hother q hq h0 hqp
      have hgrands : ∀ q < h.length, 0 < q → (q - 1) / 2 = (p - 1) / 2 → 0 < (p - 1) / 2 →
          rank m (heapAt (swapAt h p ((p - 1) / 2)) (((p - 1) / 2 - 1) / 2)) ≤
            rank m (heapAt (swapAt h p ((p - 1) / 2)) q) := by
        intro q hq h0 hqpar h0par
        rw [at_swap q hq, at_swap _ (by omega), if_neg (by omega), if_neg (by omega), if_neg (by omega)]
        have hup := hother ((p - 1) / 2) (by omega) h0par (by omega)
        split
        · exact hup
        · next hqp =>
          have hq := hother q hq h0 hqp
          rw [hqpar] at hq
          exact hup.trans hq
      refine ih _ _ (by simp; omega) (by omega) (by simpa using hothers) (by simpa using hgrands)
    · next hc =>
      refine heapFrom_zero_of_except m p hother fun h0 => ?_
      rw [← less_eq_false_iff_rank, ← Bool.not_eq_true]
      exact fun hless => hc ⟨h0, hless⟩

/-! ### The four operations -/

/-- `buildFromUnordered` sifts every parent down, the last one first (R145). -/
theorem heapify_spec (c : Nat) (h : List NodeIdx) (hc : c ≤ h.length) (hok : HeapFrom m c h) :
    HeapFrom m 0 (heapify m c h) ∧ (heapify m c h).Perm h := by
  induction c generalizing h with
  | zero => exact ⟨hok, .refl _⟩
  | succ p ih =>
    have hsift : HeapFrom m p (siftDown m h.length h p) :=
      siftDown_heapFrom m p h.length h p (Nat.le_refl _) hc (by omega)
        (fun q hq h0 hpar hne => hok q hq h0 (by omega)) (fun q hq h0 hqp h0p hle => by omega)
    obtain ⟨hheap, hperm⟩ := ih (siftDown m h.length h p) (by simp; omega) hsift
    exact ⟨hheap, hperm.trans (siftDown_perm m _ h p hc)⟩

/-- `buildFromUnordered` makes a heap of exactly the given nodes (R145). -/
theorem buildFromUnordered_spec (nodes : List NodeIdx) :
    HeapOk m (buildFromUnordered m nodes) ∧ (buildFromUnordered m nodes).Perm nodes := by
  rw [heapOk_iff_heapFrom]
  exact heapify_spec m _ nodes (by omega) fun q hq h0 hpar => by omega

/-- `insert` keeps the heap and adds exactly the given node (R146). -/
theorem heapInsert_spec {h : List NodeIdx} (k : NodeIdx) (hok : HeapOk m h) :
    HeapOk m (heapInsert m h k) ∧ (heapInsert m h k).Perm (k :: h) := by
  rw [heapOk_iff_heapFrom] at hok ⊢
  have hlt : h.length < (h ++ [k]).length := by simp
  have at_old : ∀ x < h.length, heapAt (h ++ [k]) x = heapAt h x := fun x hx => by
    simp [heapAt, List.getD, List.getElem?_append_left hx]
  refine ⟨siftUp_heapOk m _ _ _ hlt (Nat.le_refl _) ?_ ?_,
    (siftUp_perm m _ _ _ hlt).trans List.perm_append_comm⟩
  · intro q hq h0 hne
    have hq : q < h.length := by simp at hq; omega
    rw [at_old q hq, at_old _ (by omega)]
    exact hok q hq h0 (Nat.zero_le _)
  · intro q hq h0 hpar _
    simp at hq
    omega

/-- The top of a heap is its least node (R142). -/
theorem rank_top_le {h : List NodeIdx} (hok : HeapOk m h) (p : Nat) (hp : p < h.length) :
    rank m (heapAt h 0) ≤ rank m (heapAt h p) := by
  rw [heapOk_iff_heapFrom] at hok
  induction p using Nat.strongRecOn with
  | ind p ih =>
    rcases Nat.eq_zero_or_pos p with rfl | h0
    · exact Nat.le_refl _
    · exact (ih ((p - 1) / 2) (by omega) (by omega)).trans (hok p hp h0 (Nat.zero_le _))

/-- What `extractMin` leaves before it sifts down: the last node moved to the top (R147). -/
theorem moveLastToTop_perm (r : NodeIdx) (t : List NodeIdx) :
    (((r :: t).set 0 (heapAt (r :: t) ((r :: t).length - 1))).dropLast).Perm t := by
  rcases List.eq_nil_or_concat t with rfl | ⟨t', x, rfl⟩
  · simp
  · have hlast : heapAt (r :: (t' ++ [x])) ((r :: (t' ++ [x])).length - 1) = x := by
      simp [heapAt, List.getD]
    rw [List.concat_eq_append, hlast, List.set_cons_zero, ← List.cons_append, List.dropLast_concat]
    exact (List.perm_append_singleton x t').symm

/-- Moving a node to the top changes no other position. -/
theorem heapAt_moveToTop (r v : NodeIdx) (t : List NodeIdx) {x : Nat} (hx : x < t.length) (h0 : 0 < x) :
    heapAt ((r :: t).set 0 v).dropLast x = heapAt (r :: t) x := by
  rw [heapAt_eq_getElem (by simpa using hx), heapAt_eq_getElem (by simp; omega), List.getElem_dropLast,
    List.getElem_set_of_ne (by omega)]

/-- `extractMin` takes the least node from a heap without repeats and leaves a heap of the others (R147). -/
theorem extractMin_spec {h : List NodeIdx} (hne : h ≠ []) (hnodup : h.Nodup) (hok : HeapOk m h) :
    ∃ r left, extractMin m h = some (r, left) ∧ h.Perm (r :: left) ∧ HeapOk m left ∧
      ∀ x ∈ left, less m r x = true := by
  obtain ⟨r, t, rfl⟩ := List.exists_cons_of_ne_nil hne
  have htop := rank_top_le m hok
  rw [heapOk_iff_heapFrom] at hok
  have hmoved := moveLastToTop_perm r t
  have hlen := hmoved.length_eq
  have hperm : (siftDown m t.length
      ((r :: t).set 0 (heapAt (r :: t) ((r :: t).length - 1))).dropLast 0).Perm t := by
    rcases Nat.eq_zero_or_pos t.length with h0 | h0
    · obtain rfl := List.length_eq_zero_iff.1 h0
      simp
    · exact (siftDown_perm m _ _ 0 (by omega)).trans hmoved
  refine ⟨r, _, by rw [extractMin, hlen], (hperm.cons r).symm, ?_, fun x hx => ?_⟩
  · rw [heapOk_iff_heapFrom]
    rcases Nat.eq_zero_or_pos t.length with h0 | h0
    · obtain rfl := List.length_eq_zero_iff.1 h0
      simp [HeapFrom]
    · refine siftDown_heapFrom m 0 _ _ 0 (Nat.le_refl _) (by omega) (by omega) ?_ (fun q _ _ _ h0 => by omega)
      intro q hq h0 _ hpar
      rw [hlen] at hq
      rw [heapAt_moveToTop r _ t hq h0, heapAt_moveToTop r _ t (by omega) (by omega)]
      exact hok q (by simp; omega) h0 (Nat.zero_le _)
  · have hx : x ∈ t := hperm.mem_iff.1 hx
    obtain ⟨p, hp, hpx⟩ := List.getElem_of_mem hx
    have hle := htop (p + 1) (by simpa using hp)
    rw [heapAt_eq_getElem (by simp), heapAt_eq_getElem (by simpa using hp), List.getElem_cons_zero,
      List.getElem_cons_succ, hpx] at hle
    exact less_of_rank_le m hle fun he => (List.nodup_cons.1 hnodup).1 (he ▸ hx)

/-- A heap is one for every memory that gives its nodes the same frequencies. -/
theorem HeapOk.congr {m m' : Memory NodeEntry} {h : List NodeIdx} (hok : HeapOk m h)
    (heq : ∀ a ∈ h, m'.node a.toNat = m.node a.toNat) : HeapOk m' h := by
  have hrank : ∀ p < h.length, rank m' (heapAt h p) = rank m (heapAt h p) := fun p hp => by
    rw [heapAt_eq_getElem hp]
    exact rank_congr (heq _ (List.getElem_mem hp))
  rw [heapOk_iff_heapFrom] at hok ⊢
  intro q hq h0 hpar
  rw [hrank q hq, hrank _ (by omega)]
  exact hok q hq h0 hpar

end Heap

end Sys2Proof.Machine

/-! ## BUILD merges the two least nodes each time (spec/42_build.md R161 to R168) -/

namespace Sys2Proof.Machine

/-! ### Trees in NODE -/

theorem Tree.root_mem_indices (t : Tree) : t.root ∈ t.indices := by
  cases t <;> simp [Tree.root, Tree.indices]

theorem Tree.leaves_sublist_indices (t : Tree) : t.leaves.Sublist t.indices := by
  induction t with
  | leaf k => exact .refl _
  | node k l r hl hr => exact (hl.append hr).cons k

/-- Whether NODE holds a tree is a matter of the entries of the tree. -/
theorem Tree.stored_congr {m m' : Memory NodeEntry} {t : Tree} (h : ∀ k ∈ t.indices, m'.node k = m.node k) :
    t.stored m' = t.stored m := by
  induction t with
  | leaf k => simp [Tree.stored, h k (by simp [Tree.indices])]
  | node k l r hl hr =>
    simp only [Tree.indices, List.mem_cons, List.mem_append, forall_eq_or_imp] at h
    obtain ⟨hk, hsub⟩ := h
    rw [Tree.stored, Tree.stored, hk, hsub _ (.inl l.root_mem_indices), hsub _ (.inr r.root_mem_indices),
      hl fun k hk => hsub k (.inl hk), hr fun k hk => hsub k (.inr hk)]

/-- A leaf of a stored tree is a leaf entry (R41). -/
theorem Tree.leaf_of_mem_leaves {m : Memory NodeEntry} {t : Tree} (hs : t.stored m = true) {k : Nat}
    (hk : k ∈ t.leaves) : (m.node k).leaf = true := by
  induction t with
  | leaf j =>
    simp only [Tree.stored, Bool.and_eq_true] at hs
    obtain ⟨⟨⟨hleaf, -⟩, -⟩, -⟩ := hs
    rwa [List.mem_singleton.1 hk]
  | node j l r hl hr =>
    simp only [Tree.stored, Bool.and_eq_true] at hs
    obtain ⟨⟨-, hsl⟩, hsr⟩ := hs
    rcases List.mem_append.1 hk with hk | hk
    · exact hl hsl hk
    · exact hr hsr hk

/-! ### The two extractions of a round -/

/-- Two extractions take the two least nodes, the least first (R147, R165). -/
theorem extractMin_twice (m : Memory NodeEntry) {h : List NodeIdx} (hlen : 2 ≤ h.length) (hnodup : h.Nodup)
    (hok : HeapOk m h) :
    ∃ a h1 b h2, extractMin m h = some (a, h1) ∧ extractMin m h1 = some (b, h2) ∧ h.Perm (a :: b :: h2) ∧
      HeapOk m h2 ∧ less m a b = true ∧ ∀ x ∈ h2, less m a x = true ∧ less m b x = true := by
  obtain ⟨a, h1, ha, hperm1, hok1, hleast1⟩ :=
    extractMin_spec m (List.ne_nil_of_length_pos (by omega)) hnodup hok
  have hlen1 := extractMin_length m ha
  have hnodup1 : h1.Nodup := (List.nodup_cons.1 (hperm1.nodup_iff.1 hnodup)).2
  obtain ⟨b, h2, hb, hperm2, hok2, hleast2⟩ :=
    extractMin_spec m (List.ne_nil_of_length_pos (by omega)) hnodup1 hok1
  have hsub : ∀ x ∈ b :: h2, less m a x = true := fun x hx => hleast1 x (hperm2.mem_iff.2 hx)
  exact ⟨a, h1, b, h2, ha, hb, hperm1.trans (hperm2.cons a), hok2, hsub b (by simp),
    fun x hx => ⟨hsub x (by simp [hx]), hleast2 x hx⟩⟩

/-- What one round of BUILD makes of its loop state after it has extracted `a`, then `b`, and left the heap `h2`
(R161). -/
def BuildLoop.merge (st : BuildLoop) (a b : NodeIdx) (h2 : List NodeIdx) : BuildLoop :=
  let node := st.node.setNode st.nNodes (mergeEntry st.node a b)
  { node, nNodes := st.nNodes + 1, heap := heapInsert node h2 (BitVec.ofNat 9 st.nNodes) }

theorem mergeLoop_of_extract {st : BuildLoop} {a b : NodeIdx} {h1 h2 : List NodeIdx} (fuel : Nat)
    (ha : extractMin st.node st.heap = some (a, h1)) (hb : extractMin st.node h1 = some (b, h2)) :
    mergeLoop (fuel + 1) st = mergeLoop fuel (st.merge a b h2) := by
  have hlen := extractMin_length st.node ha
  have hlen1 := extractMin_length st.node hb
  have hmany : isSingleton st.heap = false := by
    rw [isSingleton, beq_eq_false_iff_ne]
    omega
  simp only [mergeLoop, hmany, ha, hb, Bool.false_eq_true, if_false]
  rfl

theorem mergeLoop_of_singleton {st : BuildLoop} (fuel : Nat) (h : st.heap.length = 1) :
    mergeLoop fuel st = .done st := by
  cases fuel with
  | zero => rfl
  | succ fuel => simp [mergeLoop, isSingleton, h]

@[simp] theorem BuildLoop.merge_nNodes (st : BuildLoop) (a b : NodeIdx) (h2 : List NodeIdx) :
    (st.merge a b h2).nNodes = st.nNodes + 1 := rfl

theorem BuildLoop.merge_node_new (st : BuildLoop) (a b : NodeIdx) (h2 : List NodeIdx) :
    (st.merge a b h2).node.node st.nNodes = mergeEntry st.node a b :=
  Memory.node_setNode_same ..

theorem BuildLoop.merge_node_old (st : BuildLoop) (a b : NodeIdx) (h2 : List NodeIdx) {k : Nat}
    (hk : k ≠ st.nNodes) : (st.merge a b h2).node.node k = st.node.node k := by
  rw [BuildLoop.merge, Memory.node_setNode, if_neg hk]

/-! ### The invariant of the merge loop -/

/-- `c` is the child of no internal node below `k`, where the internal nodes begin at `n`. -/
def Orphan (node : Memory NodeEntry) (n k : Nat) (c : NodeIdx) : Prop :=
  ∀ j, n ≤ j → j < k → (node.node j).left ≠ c ∧ (node.node j).right ≠ c

/-- Entry `k` is an internal node that merges the two least of the entries below it that have no parent yet, the
least one to the left (R164 to R166). -/
structure MergesTwoLeast (node : Memory NodeEntry) (n k : Nat) : Prop where
  leaf : (node.node k).leaf = false
  sym : (node.node k).sym = 0
  left_lt : (node.node k).left.toNat < k
  right_lt : (node.node k).right.toNat < k
  freq : (node.node k).freq.toNat =
    (node.node (node.node k).left.toNat).freq.toNat + (node.node (node.node k).right.toNat).freq.toNat
  left_orphan : Orphan node n k (node.node k).left
  right_orphan : Orphan node n k (node.node k).right
  ordered : less node (node.node k).left (node.node k).right = true
  least : ∀ c : NodeIdx, c.toNat < k → c ≠ (node.node k).left → c ≠ (node.node k).right → Orphan node n k c →
    less node (node.node k).left c = true ∧ less node (node.node k).right c = true

/-- The trees that the heap's nodes are the tops of hold every entry below NNODES once (R43). -/
def Forest (st : BuildLoop) : Prop :=
  ∃ tree : NodeIdx → Tree,
    (∀ c ∈ st.heap, (tree c).root = c.toNat ∧ (tree c).stored st.node = true) ∧
      (st.heap.flatMap fun c => (tree c).indices).Perm (List.range st.nNodes)

/-- What the merge loop of BUILD keeps, for a table of `n` symbols (R161, R166). -/
structure MergeInv (symtab : Memory Byte) (freqtab : Memory Word) (n : Nat) (st : BuildLoop) : Prop where
  leaves_below : n ≤ st.nNodes
  count : st.nNodes + st.heap.length = 2 * n
  nonempty : 0 < st.heap.length
  nodup : st.heap.Nodup
  heapOk : HeapOk st.node st.heap
  mem_iff : ∀ c : NodeIdx, c ∈ st.heap ↔ c.toNat < st.nNodes ∧ Orphan st.node n st.nNodes c
  leaf : ∀ p < n, st.node.node p = leafEntry symtab freqtab p
  internal : ∀ k, n ≤ k → k < st.nNodes → MergesTwoLeast st.node n k
  total : (st.heap.map fun a => (st.node.node a.toNat).freq.toNat).sum =
    ((List.range n).map fun p => (freqtab.word p).toNat).sum
  forest : Forest st

/-! ### The start of the loop -/

/-- The sum of at most 256 frequencies of 32 bits fits in 40 bits (R164). -/
theorem tableSum_lt (freqtab : Memory Word) {n : Nat} (hn : n ≤ 256) :
    ((List.range n).map fun p => (freqtab.word p).toNat).sum < 2 ^ 40 := by
  have h := List.sum_le_card_nsmul ((List.range n).map fun p => (freqtab.word p).toNat) (2 ^ 32 - 1) fun x hx => by
    obtain ⟨p, -, rfl⟩ := List.mem_map.1 hx
    have := (freqtab.word p).isLt
    omega
  simp only [List.length_map, List.length_range, smul_eq_mul] at h
  omega

/-- The list of the leaves' indices. -/
def leafIndices (n : Nat) : List NodeIdx := (List.range n).map (BitVec.ofNat 9)

theorem toNat_ofNat_nine {k : Nat} (hk : k < 512) : (BitVec.ofNat 9 k).toNat = k := by
  simpa using Nat.mod_eq_of_lt hk

/-- On the leaves' indices a function of the number is that function on `0 .. n-1`. -/
theorem map_leafIndices {α : Type} {n : Nat} (hn : n ≤ 512) (f : Nat → α) :
    (leafIndices n).map (fun c => f c.toNat) = (List.range n).map f := by
  rw [leafIndices, List.map_map]
  refine List.map_congr_left fun k hk => ?_
  rw [Function.comp_apply, toNat_ofNat_nine (by have := List.mem_range.1 hk; omega)]

theorem mem_leafIndices {n : Nat} (hn : n ≤ 512) (c : NodeIdx) : c ∈ leafIndices n ↔ c.toNat < n := by
  rw [leafIndices, List.mem_map]
  constructor
  · rintro ⟨k, hk, rfl⟩
    rw [List.mem_range] at hk
    rwa [toNat_ofNat_nine (by omega)]
  · exact fun h => ⟨c.toNat, List.mem_range.2 h, by simp⟩

theorem nodup_leafIndices {n : Nat} (hn : n ≤ 512) : (leafIndices n).Nodup := by
  refine List.Nodup.of_map BitVec.toNat ?_
  rw [map_leafIndices hn fun k => k, List.map_id']
  exact List.nodup_range

/-- The leaves that BUILD places, and the heap built over them, meet the invariant (R161, R163). -/
theorem leavesPlaced_mergeInv (s : State) (h1 : 1 ≤ s.nSym.toNat) (h256 : s.nSym.toNat ≤ 256) :
    MergeInv s.symtab s.freqtab s.nSym.toNat s.leavesPlaced := by
  have hleaf : ∀ p < s.nSym.toNat, s.leavesPlaced.node.node p = leafEntry s.symtab s.freqtab p := fun p hp => by
    rw [State.leavesPlaced, node_placeLeaves, if_pos hp]
  obtain ⟨hok, hperm⟩ : HeapOk s.leavesPlaced.node s.leavesPlaced.heap ∧
      s.leavesPlaced.heap.Perm (leafIndices s.nSym.toNat) := buildFromUnordered_spec _ _
  have hn : s.nSym.toNat ≤ 512 := by omega
  have hlen : s.leavesPlaced.heap.length = s.nSym.toNat := by
    rw [hperm.length_eq, leafIndices, List.length_map, List.length_range]
  have hnodes : s.leavesPlaced.nNodes = s.nSym.toNat := rfl
  generalize s.leavesPlaced = st at *
  refine { leaves_below := by omega, count := by omega, nonempty := by omega
           nodup := hperm.nodup_iff.2 (nodup_leafIndices hn), heapOk := hok, leaf := hleaf
           internal := fun k hk hlt => by omega, mem_iff := fun c => ?_, total := ?_, forest := ?_ }
  · rw [hperm.mem_iff, mem_leafIndices hn, hnodes]
    exact ⟨fun h => ⟨h, fun j hj hlt => by omega⟩, fun h => h.1⟩
  · rw [(hperm.map _).sum_eq, map_leafIndices hn fun k => (st.node.node k).freq.toNat]
    congr 1
    refine List.map_congr_left fun p hp => ?_
    rw [hleaf p (List.mem_range.1 hp), leafEntry, BitVec.toNat_setWidth_of_le (by omega)]
  · refine ⟨fun c => .leaf c.toNat, fun c hc => ⟨rfl, ?_⟩, ?_⟩
    · have hc := (mem_leafIndices hn c).1 (hperm.mem_iff.1 hc)
      have := (s.freqtab.word c.toNat).isLt
      rw [Tree.stored, hleaf c.toNat hc, leafEntry, BitVec.toNat_setWidth_of_le (by omega)]
      simpa using this
    · refine (hperm.flatMap_right _).trans ?_
      simp only [Tree.indices]
      rw [← List.map_eq_flatMap, map_leafIndices hn fun k => k, hnodes, List.map_id']

/-! ### A round keeps the invariant -/

theorem Orphan.mono {node : Memory NodeEntry} {n k k' : Nat} {c : NodeIdx} (h : Orphan node n k' c) (hk : k ≤ k') :
    Orphan node n k c := fun j hj hlt => h j hj (by omega)

theorem Orphan.congr {node node' : Memory NodeEntry} {n k : Nat} {c : NodeIdx}
    (heq : ∀ j < k, node'.node j = node.node j) (h : Orphan node n k c) : Orphan node' n k c := fun j hj hlt => by
  rw [heq j hlt]
  exact h j hj hlt

/-- What an internal node is depends on the entries up to it. -/
theorem MergesTwoLeast.congr {node node' : Memory NodeEntry} {n k : Nat}
    (heq : ∀ j ≤ k, node'.node j = node.node j) (h : MergesTwoLeast node n k) : MergesTwoLeast node' n k := by
  have hlt : ∀ j < k, node'.node j = node.node j := fun j hj => heq j (by omega)
  have hless : ∀ a b : NodeIdx, a.toNat < k → b.toNat < k → less node' a b = less node a b := fun a b ha hb =>
    less_congr (by rw [hlt _ ha]) (by rw [hlt _ hb])
  obtain ⟨hleaf, hsym, hl, hr, hfreq, hol, hor, hab, hleast⟩ := h
  constructor <;> rw [heq k (Nat.le_refl k)]
  case leaf => exact hleaf
  case sym => exact hsym
  case left_lt => exact hl
  case right_lt => exact hr
  case freq => rw [hlt _ hl, hlt _ hr]; exact hfreq
  case left_orphan => exact hol.congr hlt
  case right_orphan => exact hor.congr hlt
  case ordered => rw [hless _ _ hl hr]; exact hab
  case least =>
    intro c hc hcl hcr ho
    rw [hless _ _ hl hc, hless _ _ hr hc]
    exact hleast c hc hcl hcr (ho.congr fun j hj => (hlt j hj).symm)

section Round

variable {symtab : Memory Byte} {freqtab : Memory Word} {n : Nat} {st : BuildLoop} {a b : NodeIdx}
  {h2 : List NodeIdx}

theorem MergeInv.lt_of_mem (inv : MergeInv symtab freqtab n st) {c : NodeIdx} (hc : c ∈ st.heap) :
    c.toNat < st.nNodes := ((inv.mem_iff c).1 hc).1

/-- The last entry, and every index beyond, is no child of an internal node. -/
theorem MergeInv.orphan_of_le (inv : MergeInv symtab freqtab n st) {c : NodeIdx} (hc : st.nNodes ≤ c.toNat + 1) :
    Orphan st.node n st.nNodes c := fun j hj hlt => by
  have hl := (inv.internal j hj hlt).left_lt
  have hr := (inv.internal j hj hlt).right_lt
  exact ⟨fun he => by rw [he] at hl; omega, fun he => by rw [he] at hr; omega⟩

/-- The frequencies of the two nodes extracted add up without a wrap-around (R164). -/
theorem MergeInv.freq_add (inv : MergeInv symtab freqtab n st) (hn : n ≤ 256) (hperm : st.heap.Perm (a :: b :: h2)) :
    (mergeEntry st.node a b).freq.toNat = (st.node.node a.toNat).freq.toNat + (st.node.node b.toNat).freq.toNat := by
  have htotal := inv.total
  rw [(hperm.map _).sum_eq, List.map_cons, List.map_cons, List.sum_cons, List.sum_cons] at htotal
  have hlt := tableSum_lt freqtab hn
  rw [mergeEntry, BitVec.toNat_add, Nat.mod_eq_of_lt (by omega)]

/-- The new entry merges the two nodes extracted. -/
theorem MergeInv.merge_new (inv : MergeInv symtab freqtab n st) (hn : n ≤ 256)
    (hperm : st.heap.Perm (a :: b :: h2)) (hab : less st.node a b = true)
    (hleast : ∀ x ∈ h2, less st.node a x = true ∧ less st.node b x = true) :
    MergesTwoLeast (st.merge a b h2).node n st.nNodes := by
  have hold : ∀ j < st.nNodes, (st.merge a b h2).node.node j = st.node.node j := fun j hj =>
    st.merge_node_old a b h2 (by omega)
  obtain ⟨ha, hoa⟩ := (inv.mem_iff a).1 (hperm.mem_iff.2 (by simp))
  obtain ⟨hb, hob⟩ := (inv.mem_iff b).1 (hperm.mem_iff.2 (by simp))
  have hless : ∀ x y : NodeIdx, x.toNat < st.nNodes → y.toNat < st.nNodes →
      less (st.merge a b h2).node x y = less st.node x y := fun x y hx hy =>
    less_congr (by rw [hold _ hx]) (by rw [hold _ hy])
  constructor <;> rw [st.merge_node_new]
  case leaf => rfl
  case sym => rfl
  case left_lt => exact ha
  case right_lt => exact hb
  case freq =>
    rw [inv.freq_add hn hperm]
    simp only [mergeEntry, hold _ ha, hold _ hb]
  case left_orphan => exact hoa.congr hold
  case right_orphan => exact hob.congr hold
  case ordered => exact (hless a b ha hb).trans hab
  case least =>
    intro c hc hca hcb ho
    have hmem : c ∈ st.heap := (inv.mem_iff c).2 ⟨hc, ho.congr fun j hj => (hold j hj).symm⟩
    have hc2 : c ∈ h2 := by simpa [show c ≠ a from hca, show c ≠ b from hcb] using hperm.mem_iff.1 hmem
    simp only [mergeEntry]
    rw [hless a c ha hc, hless b c hb hc]
    exact hleast c hc2

/-- The round gives a parent to the two nodes extracted and to no other. -/
theorem BuildLoop.orphan_merge_iff (hn : n ≤ st.nNodes) (c : NodeIdx) :
    Orphan (st.merge a b h2).node n (st.nNodes + 1) c ↔ Orphan st.node n st.nNodes c ∧ a ≠ c ∧ b ≠ c := by
  have hold : ∀ j < st.nNodes, (st.merge a b h2).node.node j = st.node.node j := fun j hj =>
    st.merge_node_old a b h2 (by omega)
  constructor
  · intro ho
    have hlast := ho st.nNodes hn (Nat.lt_succ_self _)
    rw [st.merge_node_new] at hlast
    exact ⟨(ho.mono (Nat.le_succ _)).congr fun j hj => (hold j hj).symm, hlast⟩
  · rintro ⟨ho, hne⟩ j hj hlt
    rcases Nat.lt_or_eq_of_le (Nat.le_of_lt_succ hlt) with hlt | rfl
    · exact ho.congr hold j hj hlt
    · rw [st.merge_node_new]; exact hne

/-- The new entry joins the trees of the two nodes extracted. -/
theorem MergeInv.stored_join (inv : MergeInv symtab freqtab n st) (hn : n ≤ 256)
    (hperm : st.heap.Perm (a :: b :: h2)) {ta tb : Tree} (hra : ta.root = a.toNat) (hrb : tb.root = b.toNat)
    (hsa : ta.stored (st.merge a b h2).node = true) (hsb : tb.stored (st.merge a b h2).node = true) :
    (Tree.node st.nNodes ta tb).stored (st.merge a b h2).node = true := by
  have hla := inv.lt_of_mem (hperm.mem_iff.2 (by simp : a ∈ _))
  have hlb := inv.lt_of_mem (hperm.mem_iff.2 (by simp : b ∈ _))
  simp only [Tree.stored, hra, hrb, hsa, hsb, st.merge_node_new, st.merge_node_old a b h2 (Nat.ne_of_lt hla),
    st.merge_node_old a b h2 (Nat.ne_of_lt hlb), inv.freq_add hn hperm]
  simp [mergeEntry, hla, hlb]

/-- The new tree joins the two of the nodes extracted. -/
theorem MergeInv.merge_forest (inv : MergeInv symtab freqtab n st) (hn : n ≤ 256)
    (hperm : st.heap.Perm (a :: b :: h2)) (hlt : st.nNodes < 511)
    (hheap : (st.merge a b h2).heap.Perm (BitVec.ofNat 9 st.nNodes :: h2)) : Forest (st.merge a b h2) := by
  obtain ⟨tree, htree, hindices⟩ := inv.forest
  have hnew : (BitVec.ofNat 9 st.nNodes).toNat = st.nNodes := toNat_ofNat_nine (by omega)
  have hbelow : ∀ c ∈ st.heap, ∀ k ∈ (tree c).indices, k < st.nNodes := fun c hc k hk =>
    List.mem_range.1 (hindices.mem_iff.1 (List.mem_flatMap.2 ⟨c, hc, hk⟩))
  have hkept : ∀ c ∈ st.heap, (tree c).stored (st.merge a b h2).node = true := fun c hc => by
    rw [Tree.stored_congr fun k hk => st.merge_node_old a b h2 (Nat.ne_of_lt (hbelow c hc k hk))]
    exact (htree c hc).2
  have ha : a ∈ st.heap := hperm.mem_iff.2 (by simp)
  have hb : b ∈ st.heap := hperm.mem_iff.2 (by simp)
  have h2mem : ∀ c ∈ h2, c ∈ st.heap := fun c hc => hperm.mem_iff.2 (by simp [hc])
  have hne : ∀ c ∈ h2, c ≠ BitVec.ofNat 9 st.nNodes := fun c hc he => by
    have := inv.lt_of_mem (h2mem c hc)
    rw [he, hnew] at this
    omega
  have hjoined := inv.stored_join hn hperm (htree a ha).1 (htree b hb).1 (hkept a ha) (hkept b hb)
  refine ⟨Function.update tree (BitVec.ofNat 9 st.nNodes) (.node st.nNodes (tree a) (tree b)), fun c hc => ?_, ?_⟩
  · rcases List.mem_cons.1 (hheap.mem_iff.1 hc) with rfl | hc
    · rw [Function.update_self]
      exact ⟨hnew.symm, hjoined⟩
    · rw [Function.update_of_ne (hne c hc)]
      exact ⟨(htree c (h2mem c hc)).1, hkept c (h2mem c hc)⟩
  · have hrest : (h2.flatMap fun c =>
          (Function.update tree (BitVec.ofNat 9 st.nNodes) (.node st.nNodes (tree a) (tree b)) c).indices) =
        h2.flatMap fun c => (tree c).indices :=
      List.flatMap_congr fun c hc => by rw [Function.update_of_ne (hne c hc)]
    refine (hheap.flatMap_right _).trans ?_
    rw [List.flatMap_cons, Function.update_self, hrest, BuildLoop.merge_nNodes, List.range_succ]
    have hold := (hperm.flatMap_right fun c => (tree c).indices).symm.trans hindices
    rw [List.flatMap_cons, List.flatMap_cons, ← List.append_assoc] at hold
    exact (hold.cons st.nNodes).trans (List.perm_append_singleton _ _).symm

/-- After the round the heap's nodes are again the entries without a parent. -/
theorem MergeInv.mem_merge_iff (inv : MergeInv symtab freqtab n st) (hperm : st.heap.Perm (a :: b :: h2))
    (hlt : st.nNodes < 511) (c : NodeIdx) :
    c ∈ BitVec.ofNat 9 st.nNodes :: h2 ↔
      c.toNat < st.nNodes + 1 ∧ Orphan (st.merge a b h2).node n (st.nNodes + 1) c := by
  have hnew : (BitVec.ofNat 9 st.nNodes).toNat = st.nNodes := toNat_ofNat_nine (by omega)
  have ha := inv.lt_of_mem (hperm.mem_iff.2 (by simp : a ∈ _))
  have hb := inv.lt_of_mem (hperm.mem_iff.2 (by simp : b ∈ _))
  have hnodup := hperm.nodup_iff.1 inv.nodup
  rw [List.mem_cons, BuildLoop.orphan_merge_iff inv.leaves_below]
  constructor
  · rintro (rfl | hc)
    · exact ⟨by omega, inv.orphan_of_le (by omega), fun he => by rw [he] at ha; omega,
        fun he => by rw [he] at hb; omega⟩
    · obtain ⟨hlt, ho⟩ := (inv.mem_iff c).1 (hperm.mem_iff.2 (by simp [hc]))
      simp only [List.nodup_cons, List.mem_cons, not_or] at hnodup
      obtain ⟨⟨-, ha2⟩, hb2, -⟩ := hnodup
      exact ⟨by omega, ho, fun he => ha2 (he ▸ hc), fun he => hb2 (he ▸ hc)⟩
  · rintro ⟨hlt, ho, hca, hcb⟩
    rcases Nat.lt_or_eq_of_le (Nat.le_of_lt_succ hlt) with hlt | he
    · have hmem := hperm.mem_iff.1 ((inv.mem_iff c).2 ⟨hlt, ho⟩)
      simp only [List.mem_cons, Ne.symm hca, Ne.symm hcb, false_or] at hmem
      exact .inr hmem
    · exact .inl (BitVec.eq_of_toNat_eq (by omega))

/-- A round of BUILD that extracts the two least nodes keeps the invariant (R161). -/
theorem MergeInv.merge (inv : MergeInv symtab freqtab n st) (hn : n ≤ 256)
    (hperm : st.heap.Perm (a :: b :: h2)) (hok : HeapOk st.node h2) (hab : less st.node a b = true)
    (hleast : ∀ x ∈ h2, less st.node a x = true ∧ less st.node b x = true) :
    MergeInv symtab freqtab n (st.merge a b h2) := by
  have hlen : st.heap.length = h2.length + 2 := hperm.length_eq
  have hcount := inv.count
  have hbelow := inv.leaves_below
  have hold : ∀ {k}, k < st.nNodes → (st.merge a b h2).node.node k = st.node.node k := fun hk =>
    st.merge_node_old a b h2 (Nat.ne_of_lt hk)
  have h2mem : ∀ c ∈ h2, c.toNat < st.nNodes := fun c hc => inv.lt_of_mem (hperm.mem_iff.2 (by simp [hc]))
  have hnew : (BitVec.ofNat 9 st.nNodes).toNat = st.nNodes := toNat_ofNat_nine (by omega)
  obtain ⟨hokm, hheap⟩ : HeapOk (st.merge a b h2).node (st.merge a b h2).heap ∧
      (st.merge a b h2).heap.Perm (BitVec.ofNat 9 st.nNodes :: h2) :=
    heapInsert_spec _ _ (hok.congr fun x hx => hold (h2mem x hx))
  have hnodup2 : h2.Nodup := (hperm.nodup_iff.1 inv.nodup).of_cons.of_cons
  have hlenm : (st.merge a b h2).heap.length = h2.length + 1 := hheap.length_eq
  constructor
  case leaves_below => rw [BuildLoop.merge_nNodes]; omega
  case count => rw [BuildLoop.merge_nNodes]; omega
  case nonempty => omega
  case nodup =>
    refine hheap.nodup_iff.2 (List.nodup_cons.2 ⟨fun hc => ?_, hnodup2⟩)
    have := h2mem _ hc
    omega
  case heapOk => exact hokm
  case leaf => intro p hp; rw [hold (by omega)]; exact inv.leaf p hp
  case internal =>
    intro k hk hlt
    rw [BuildLoop.merge_nNodes] at hlt
    rcases Nat.lt_or_eq_of_le (Nat.le_of_lt_succ hlt) with hlt | rfl
    · exact (inv.internal k hk hlt).congr fun j hj => hold (by omega)
    · exact inv.merge_new hn hperm hab hleast
  case total =>
    rw [← inv.total, (hheap.map _).sum_eq, (hperm.map _).sum_eq]
    simp only [List.map_cons, List.sum_cons, hnew, st.merge_node_new, inv.freq_add hn hperm]
    rw [List.map_congr_left fun c hc => by rw [hold (h2mem c hc)]]
    omega
  case forest => exact inv.merge_forest hn hperm (by omega) hheap
  case mem_iff =>
    intro c
    rw [hheap.mem_iff, BuildLoop.merge_nNodes]
    exact inv.mem_merge_iff hperm (by omega) c

end Round

/-! ### The whole loop -/

/-- The merge loop runs to a single node, and the invariant holds there; it writes no entry outside
NODE (R151, R161, R167, R170). -/
theorem MergeInv.mergeLoop {symtab : Memory Byte} {freqtab : Memory Word} {n : Nat} {st : BuildLoop} (fuel : Nat)
    (inv : MergeInv symtab freqtab n st) (hn : n ≤ 256) (hfuel : st.heap.length ≤ fuel) :
    ∃ st', mergeLoop fuel st = .done st' ∧ MergeInv symtab freqtab n st' ∧ st'.heap.length = 1 ∧
      (st.node.wf nodeFill 511 = true → st'.node.wf nodeFill 511 = true) := by
  induction fuel generalizing st with
  | zero => have := inv.nonempty; omega
  | succ fuel ih =>
    by_cases hsingle : st.heap.length = 1
    · exact ⟨st, mergeLoop_of_singleton _ hsingle, inv, hsingle, id⟩
    · have hlen : 2 ≤ st.heap.length := by have := inv.nonempty; omega
      obtain ⟨a, h1, b, h2, ha, hb, hperm, hok, hab, hleast⟩ := extractMin_twice st.node hlen inv.nodup inv.heapOk
      rw [mergeLoop_of_extract fuel ha hb]
      have inv' := inv.merge hn hperm hok hab hleast
      have hcount := inv.count
      have hcount' := inv'.count
      rw [BuildLoop.merge_nNodes] at hcount'
      obtain ⟨st', hloop, inv'', hsingle', hwf⟩ := ih inv' (by omega)
      exact ⟨st', hloop, inv'', hsingle', fun h => hwf (Memory.wf_setNode h (by omega) _)⟩

section Finished

variable {symtab : Memory Byte} {freqtab : Memory Word} {n : Nat} {st : BuildLoop}

/-- When one node is left it is the last one made (R167). -/
theorem MergeInv.heap_eq (inv : MergeInv symtab freqtab n st) (hn : n ≤ 256) (hsingle : st.heap.length = 1) :
    st.nNodes = 2 * n - 1 ∧ st.heap = [BitVec.ofNat 9 (2 * n - 2)] := by
  have hcount := inv.count
  have hbelow := inv.leaves_below
  have hnodes : st.nNodes = 2 * n - 1 := by omega
  have hlast : (BitVec.ofNat 9 (2 * n - 2)).toNat = 2 * n - 2 := toNat_ofNat_nine (by omega)
  have hmem : BitVec.ofNat 9 (2 * n - 2) ∈ st.heap :=
    (inv.mem_iff _).2 ⟨by omega, inv.orphan_of_le (by omega)⟩
  obtain ⟨r, hr⟩ := List.length_eq_one_iff.1 hsingle
  rw [hr, List.mem_singleton] at hmem
  exact ⟨hnodes, by rw [hr, hmem]⟩

/-- No entry is the child of two internal nodes (R166). -/
theorem MergeInv.parent_unique (inv : MergeInv symtab freqtab n st) {c : NodeIdx} {k k' : Nat} (hk : n ≤ k)
    (hk' : n ≤ k') (hlt : k < st.nNodes) (hlt' : k' < st.nNodes)
    (hc : (st.node.node k).left = c ∨ (st.node.node k).right = c)
    (hc' : (st.node.node k').left = c ∨ (st.node.node k').right = c) : k = k' := by
  have not_before : ∀ {i j}, n ≤ i → n ≤ j → j < st.nNodes → i < j →
      ((st.node.node i).left = c ∨ (st.node.node i).right = c) →
      ((st.node.node j).left = c ∨ (st.node.node j).right = c) → False := by
    intro i j hi hj hjn hij hci hcj
    have ho : Orphan st.node n j c := by
      rcases hcj with rfl | rfl
      · exact (inv.internal j hj hjn).left_orphan
      · exact (inv.internal j hj hjn).right_orphan
    obtain ⟨hl, hr⟩ := ho i hi hij
    exact hci.elim hl hr
  rcases Nat.lt_trichotomy k k' with h | h | h
  · exact (not_before hk hk' hlt' h hc hc').elim
  · exact h
  · exact (not_before hk' hk hlt h hc' hc).elim

/-- Every entry but the last one is the child of exactly one internal node (R166). -/
theorem MergeInv.existsUnique_parent (inv : MergeInv symtab freqtab n st) (hn : n ≤ 256)
    (hsingle : st.heap.length = 1) {c : Nat} (hc : c < 2 * n - 2) :
    ∃! k, n ≤ k ∧ k ≤ 2 * n - 2 ∧
      ((st.node.node k).left.toNat = c ∨ (st.node.node k).right.toNat = c) := by
  obtain ⟨hnodes, hheap⟩ := inv.heap_eq hn hsingle
  have hcn : (BitVec.ofNat 9 c).toNat = c := toNat_ofNat_nine (by omega)
  have child_iff : ∀ i : NodeIdx, i.toNat = c ↔ i = BitVec.ofNat 9 c := fun i =>
    ⟨fun h => BitVec.eq_of_toNat_eq (by omega), fun h => by rw [h, hcn]⟩
  simp only [child_iff]
  have hparent : ¬ Orphan st.node n st.nNodes (BitVec.ofNat 9 c) := fun ho => by
    have hmem := (inv.mem_iff _).2 ⟨by omega, ho⟩
    rw [hheap, List.mem_singleton] at hmem
    have := congrArg BitVec.toNat hmem
    rw [hcn, toNat_ofNat_nine (by omega)] at this
    omega
  simp only [Orphan, not_forall, ne_eq, not_and_or, not_not] at hparent
  obtain ⟨k, hk, hlt, hchild⟩ := hparent
  refine ⟨k, ⟨hk, by omega, hchild⟩, ?_⟩
  rintro k' ⟨hk', hle', hchild'⟩
  exact inv.parent_unique hk' hk (by omega) hlt hchild' hchild

/-- When one node is left NODE holds the tree below it, with the symbols of the table (R43). -/
theorem MergeInv.exists_tree (inv : MergeInv symtab freqtab n st) (hn : n ≤ 256) (hsingle : st.heap.length = 1)
    (hdistinct : ∀ p q, p < q → q < n → symtab.byte p ≠ symtab.byte q) :
    ∃ t : Tree, t.stored st.node = true ∧ t.root = 2 * n - 2 ∧ t.indices.Perm (List.range (2 * n - 1)) ∧
      (t.symbols st.node).Nodup := by
  obtain ⟨hnodes, hheap⟩ := inv.heap_eq hn hsingle
  obtain ⟨tree, htree, hindices⟩ := inv.forest
  obtain ⟨hroot, hstored⟩ := htree (BitVec.ofNat 9 (2 * n - 2)) (by simp [hheap])
  rw [toNat_ofNat_nine (by omega)] at hroot
  rw [hheap, List.flatMap_singleton, hnodes] at hindices
  refine ⟨_, hstored, hroot, hindices, ?_⟩
  generalize tree (BitVec.ofNat 9 (2 * n - 2)) = t at *
  have hnodup : t.leaves.Nodup := t.leaves_sublist_indices.nodup (hindices.nodup_iff.2 List.nodup_range)
  have hleaf : ∀ k ∈ t.leaves, k < n := fun k hk => by
    have hlt := List.mem_range.1 (hindices.mem_iff.1 (t.leaves_sublist_indices.mem hk))
    by_contra hge
    have hinternal := (inv.internal k (by omega) (by omega)).leaf
    rw [Tree.leaf_of_mem_leaves hstored hk] at hinternal
    cases hinternal
  refine List.Nodup.map_on (fun x hx y hy hxy => ?_) hnodup
  rw [inv.leaf x (hleaf x hx), inv.leaf y (hleaf y hy)] at hxy
  rcases Nat.lt_trichotomy x y with h | h | h
  · exact absurd hxy (hdistinct x y h (hleaf y hy))
  · exact h
  · exact absurd hxy.symm (hdistinct y x h (hleaf x hx))

end Finished

/-! ### The command -/

/-- `st` is where the merge loop of a BUILD that completes from `s` ends (R161). -/
structure Built (s : State) (st : BuildLoop) : Prop where
  le : s.nSym.toNat ≤ 256
  distinct : ∀ p q, p < q → q < s.nSym.toNat → s.symtab.byte p ≠ s.symtab.byte q
  inv : MergeInv s.symtab s.freqtab s.nSym.toNat st
  single : st.heap.length = 1
  wf : s.node.wf nodeFill 511 = true → st.node.wf nodeFill 511 = true

theorem wf_placeLeaves (symtab : Memory Byte) (freqtab : Memory Word) {n : Nat} (hn : n ≤ 511)
    {node : Memory NodeEntry} (hwf : node.wf nodeFill 511 = true) :
    (placeLeaves symtab freqtab n node).wf nodeFill 511 = true := by
  induction n with
  | zero => exact hwf
  | succ n ih => exact Memory.wf_setNode (ih (by omega)) hn _

/-- The merge loop of a BUILD that passes its checks runs to its end. -/
theorem exists_built {s : State} (h0 : s.nSym ≠ 0) (h256 : s.nSym.toNat ≤ 256)
    (hdistinct : firstDuplicate s.symtab s.nSym.toNat = none) :
    ∃ st, mergeLoop s.nSym.toNat s.leavesPlaced = .done st ∧ Built s st := by
  have h1 : 1 ≤ s.nSym.toNat := Nat.pos_of_ne_zero fun h => h0 (BitVec.eq_of_toNat_eq h)
  have inv := leavesPlaced_mergeInv s h1 h256
  have hlen : s.leavesPlaced.heap.length = s.nSym.toNat := by
    have hcount : s.nSym.toNat + _ = 2 * s.nSym.toNat := inv.count
    omega
  obtain ⟨st, hloop, inv', hsingle, hwf⟩ := inv.mergeLoop s.nSym.toNat h256 hlen.le
  exact ⟨st, hloop, h256, (firstDuplicate_eq_none_iff ..).1 hdistinct, inv', hsingle,
    fun h => hwf (wf_placeLeaves _ _ (by omega) h)⟩

/-- Everything BUILD can do (R161, R170): HeapUnderflow is not among it. -/
theorem execBuild_cases {s t : State} (h : execBuild s = .next t) :
    (∃ e info, t = s.invalidate.raise e info) ∨ ∃ st, Built s st ∧ t = s.invalidate.merged (.done st) := by
  injection h with h
  subst h
  rcases buildTree_cases s.invalidate with ⟨-, h⟩ | ⟨-, h⟩ | ⟨-, -, q, -, h⟩ | ⟨h256, h0, hdistinct, h⟩
  · exact .inl ⟨_, _, h⟩
  · exact .inl ⟨_, _, h⟩
  · exact .inl ⟨_, _, h⟩
  · obtain ⟨st, hloop, hst⟩ := exists_built h0 h256 hdistinct
    exact .inr ⟨st, ⟨hst.le, hst.distinct, hst.inv, hst.single, hst.wf⟩, by rw [h, hloop]⟩

/-- BUILD of 1 to 256 distinct symbols completes (R161). -/
theorem execBuild_of_distinct {s : State} (h1 : 1 ≤ s.nSym.toNat) (h256 : s.nSym.toNat ≤ 256)
    (hdistinct : ∀ p q, p < q → q < s.nSym.toNat → s.symtab.byte p ≠ s.symtab.byte q) :
    ∃ st, Built s st ∧ execBuild s = .next (s.invalidate.merged (.done st)) := by
  have h0 : s.nSym ≠ 0 := fun h => by simp [h] at h1
  have hnone := (firstDuplicate_eq_none_iff ..).2 hdistinct
  obtain ⟨st, hloop, hst⟩ := exists_built h0 h256 hnone
  refine ⟨st, hst, congrArg Host.Outcome.next ?_⟩
  rcases buildTree_cases s.invalidate with ⟨hbig, -⟩ | ⟨hzero, -⟩ | ⟨-, -, q, hq, -⟩ | ⟨-, -, -, h⟩
  · exact absurd h256 (Nat.not_le_of_lt hbig)
  · exact absurd hzero h0
  · exact absurd (hnone.symm.trans hq) (by simp)
  · exact h.trans (congrArg s.invalidate.merged hloop)

section Command

variable {s : State} {st : BuildLoop}

theorem Built.nNodes_toNat (h : Built s st) :
    (s.invalidate.merged (.done st)).nNodes.toNat = 2 * s.nSym.toNat - 1 := by
  have hle := h.le
  change (BitVec.ofNat 10 st.nNodes).toNat = _
  rw [(h.inv.heap_eq hle h.single).1, BitVec.toNat_ofNat, Nat.mod_eq_of_lt (by omega)]

theorem Built.root_toNat (h : Built s st) :
    (s.invalidate.merged (.done st)).root.toNat = 2 * s.nSym.toNat - 2 := by
  have hle := h.le
  change (heapAt st.heap 0).toNat = _
  rw [(h.inv.heap_eq hle h.single).2]
  exact toNat_ofNat_nine (by omega)

/-- BUILD of 1 to 256 distinct symbols makes a tree (R43). -/
theorem Built.hasTree (h : Built s st) : ∃ t, (s.invalidate.merged (.done st)).HasTree t := by
  have hle := h.le
  obtain ⟨t, hstored, hroot, hindices, hsymbols⟩ := h.inv.exists_tree hle h.single h.distinct
  exact ⟨t, hstored, h.root_toNat.trans hroot.symm, by rwa [h.nNodes_toNat], hsymbols,
    by rw [h.nNodes_toNat]; omega⟩

end Command

/-- Settles O33: the merge loop keeps `MergeInv`, which at its end says all that is claimed. -/
theorem buildMakesTheTree : Obligations.BuildMakesTheTree := by
  intro s h1 h256 hdistinct
  obtain ⟨st, hst, hexec⟩ := execBuild_of_distinct h1 h256 hdistinct
  obtain ⟨inv, hsingle⟩ := And.intro hst.inv hst.single
  obtain ⟨hnodes, -⟩ := inv.heap_eq h256 hsingle
  refine ⟨_, hexec, rfl, rfl, rfl, rfl, hst.nNodes_toNat, hst.root_toNat, inv.leaf, fun k hk hle => ?_,
    fun c hc => inv.existsUnique_parent h256 hsingle hc, fun k hk hle => ?_, hst.hasTree⟩
  · have hk := inv.internal k hk (by omega)
    exact ⟨hk.leaf, hk.sym, hk.left_lt, hk.right_lt, hk.freq⟩
  · have hk := inv.internal k hk (by omega)
    exact ⟨hk.ordered, hk.least⟩

end Sys2Proof.Machine

/-! ## The code table is generated from the tree (spec/43_gencodes.md R181 to R185) -/

namespace Sys2Proof.Machine

/-- There are 256 symbols (R6). -/
theorem length_le_of_nodup_byte {l : List Byte} (h : l.Nodup) : l.length ≤ 256 := by
  have hnodup : (l.map BitVec.toNat).Nodup := h.map fun _ _ => BitVec.eq_of_toNat_eq
  have hsub : l.map BitVec.toNat ⊆ List.range 256 := fun x hx => by
    obtain ⟨b, -, rfl⟩ := List.mem_map.1 hx
    exact List.mem_range.2 b.isLt
  simpa using (hnodup.subperm hsub).length_le

section Codes

variable (m : Memory NodeEntry)

@[simp] theorem Tree.symbols_leaf (k : Nat) : (Tree.leaf k).symbols m = [(m.node k).sym] := rfl

@[simp] theorem Tree.symbols_node (k : Nat) (l r : Tree) :
    (Tree.node k l r).symbols m = l.symbols m ++ r.symbols m := by
  simp [Tree.symbols, Tree.leaves]

/-- A symbol has no path exactly when it is no leaf's (R182). -/
theorem Tree.pathTo_eq_none_iff (c : Byte) (t : Tree) : t.pathTo m c = none ↔ c ∉ t.symbols m := by
  induction t with
  | leaf k =>
    rw [Tree.pathTo, Tree.symbols_leaf, List.mem_singleton]
    by_cases hc : c = (m.node k).sym
    · simp [hc]
    · simp [hc, Ne.symm hc]
  | node k l r hl hr =>
    rw [Tree.pathTo, Tree.symbols_node, List.mem_append, not_or, ← hl, ← hr]
    cases l.pathTo m c <;> cases r.pathTo m c <;> simp

/-- A path is shorter than the number of leaves (R185). -/
theorem Tree.length_pathTo_lt {c : Byte} {t : Tree} {p : List Bool} (h : t.pathTo m c = some p) :
    p.length < t.leaves.length := by
  induction t generalizing p with
  | leaf k =>
    rw [Tree.pathTo] at h
    split at h <;> simp_all [Tree.leaves]
  | node k l r hl hr =>
    have hll := List.length_pos_iff.2 l.leaves_ne_nil
    have hrl := List.length_pos_iff.2 r.leaves_ne_nil
    rw [Tree.leaves, List.length_append]
    rw [Tree.pathTo] at h
    split at h
    · next q hq =>
      have := hl hq
      obtain rfl := Option.some.inj h
      rw [List.length_cons]
      omega
    · split at h
      · next q hq =>
        have := hr hq
        obtain rfl := Option.some.inj h
        rw [List.length_cons]
        omega
      · cases h

theorem Tree.codeOf_eq_none_iff (c : Byte) (t : Tree) : t.codeOf m c = none ↔ c ∉ t.symbols m := by
  cases t with
  | leaf k =>
    rw [Tree.codeOf, Tree.symbols_leaf, List.mem_singleton]
    by_cases hc : c = (m.node k).sym
    · simp [hc]
    · simp [hc, Ne.symm hc]
  | node k l r => exact Tree.pathTo_eq_none_iff m c _

/-- The length of a code (R185): at least one digit, and fewer than the leaves but in the single-leaf tree. -/
theorem Tree.length_codeOf {c : Byte} {t : Tree} {ds : List Bool} (h : t.codeOf m c = some ds) :
    1 ≤ ds.length ∧ ds.length ≤ max 1 (t.leaves.length - 1) := by
  cases t with
  | leaf k =>
    rw [Tree.codeOf] at h
    split at h
    · obtain rfl := Option.some.inj h
      simp
    · cases h
  | node k l r =>
    rw [Tree.codeOf] at h
    have hlt := Tree.length_pathTo_lt m h
    refine ⟨?_, by omega⟩
    rw [Tree.pathTo] at h
    split at h
    · obtain rfl := Option.some.inj h
      simp
    · split at h
      · obtain rfl := Option.some.inj h
        simp
      · cases h

/-- A tree with distinct symbols has at most 256 leaves, so no code is longer than 255 digits (R7). -/
theorem Tree.length_codeOf_le {c : Byte} {t : Tree} {ds : List Bool} (hnodup : (t.symbols m).Nodup)
    (h : t.codeOf m c = some ds) : ds.length ≤ 255 := by
  have hleaves := length_le_of_nodup_byte hnodup
  rw [Tree.symbols, List.length_map] at hleaves
  have := (Tree.length_codeOf m h).2
  omega

end Codes

/-- Settles O42: an entry is the stored form of the symbol's code, which is as long as its path. -/
theorem codeTableIsLegal : Obligations.CodeTableIsLegal := by
  rintro s T ⟨-, -, -, hnodup, -⟩ hcodes c
  rw [hcodes c]
  cases hds : T.codeOf s.node c with
  | none =>
    have hmem := (Tree.codeOf_eq_none_iff s.node c T).1 hds
    simp [entryOf, hmem, CodeEntry.digit]
  | some ds =>
    have hmem : c ∈ T.symbols s.node := by
      by_contra hn
      simp [(Tree.codeOf_eq_none_iff s.node c T).2 hn] at hds
    obtain ⟨h1, hmax⟩ := Tree.length_codeOf s.node hds
    have hlen := CodeEntry.ofDigits_len ds (Tree.length_codeOf_le s.node hnodup hds)
    rw [entryOf, hlen]
    exact ⟨iff_of_true h1 hmem, hmax, fun i hi => CodeEntry.digit_ofDigits_beyond ds i hi⟩

/-! ### The traversal -/

section Traversal

variable (node : Memory NodeEntry)

/-- The code table after the paths of a tree's leaves are recorded, left to right, below a path (R181, R183). -/
def recordPaths : Tree → List Bool → Memory CodeEntry → Memory CodeEntry
  | .leaf k, path, code => code.setCode (node.node k).sym.toNat (CodeEntry.ofDigits path)
  | .node _ l r, path, code => recordPaths r (path ++ [true]) (recordPaths l (path ++ [false]) code)

/-- The traversal of a stored tree takes one visit for each index and records the paths of the leaves (R181). -/
theorem traverse_tree (t : Tree) (hs : t.stored node = true) (k : NodeIdx) (hk : k.toNat = t.root)
    (fuel : Nat) (code : Memory CodeEntry) (path : List Bool) (rest : List (NodeIdx × List Bool)) (d : Nat) :
    ∃ d', traverse node (fuel + t.indices.length) { code, stack := (k, path) :: rest, d } =
      traverse node fuel { code := recordPaths node t path code, stack := rest, d := d' } := by
  induction t generalizing k fuel code path rest d with
  | leaf j =>
    simp only [Tree.stored, Bool.and_eq_true] at hs
    obtain ⟨⟨⟨hleaf, -⟩, -⟩, -⟩ := hs
    refine ⟨path.length, ?_⟩
    rw [Tree.root] at hk
    rw [Tree.indices, List.length_singleton, traverse_cons node fuel rfl]
    simp [visit, hk, hleaf, recordPaths]
  | node j l r hl hr =>
    simp only [Tree.stored, Bool.and_eq_true, Bool.not_eq_true', beq_iff_eq] at hs
    obtain ⟨⟨⟨⟨⟨⟨⟨⟨hleaf, -⟩, hleft⟩, hright⟩, -⟩, -⟩, -⟩, hsl⟩, hsr⟩ := hs
    rw [Tree.root] at hk
    obtain ⟨d1, h1⟩ := hl hsl _ hleft (fuel + r.indices.length) code (path ++ [false])
      (((node.node j).right, path ++ [true]) :: rest) d
    obtain ⟨d2, h2⟩ := hr hsr _ hright fuel (recordPaths node l (path ++ [false]) code) (path ++ [true]) rest d1
    refine ⟨d2, ?_⟩
    have hfuel : fuel + (Tree.node j l r).indices.length = fuel + r.indices.length + l.indices.length + 1 := by
      simp only [Tree.indices, List.length_cons, List.length_append]
      omega
    rw [hfuel, traverse_cons node _ rfl, recordPaths, ← h2, ← h1]
    simp [visit, hk, hleaf]

/-- What the recorded table holds: the path of each symbol of the tree, and otherwise what it held. -/
theorem code_recordPaths (t : Tree) (hnodup : (t.symbols node).Nodup) (c : Byte) (path : List Bool)
    (code : Memory CodeEntry) :
    (recordPaths node t path code).code c.toNat =
      ((t.pathTo node c).map fun p => CodeEntry.ofDigits (path ++ p)).getD (code.code c.toNat) := by
  induction t generalizing path code with
  | leaf k =>
    rw [recordPaths, Memory.code_setCode, Tree.pathTo]
    by_cases hc : (node.node k).sym = c
    · simp [hc]
    · rw [if_neg fun he => hc (BitVec.eq_of_toNat_eq he.symm), if_neg hc]
      rfl
  | node k l r hl hr =>
    rw [Tree.symbols_node, List.nodup_append] at hnodup
    obtain ⟨hnl, hnr, hdisjoint⟩ := hnodup
    rw [recordPaths, hr hnr, hl hnl, Tree.pathTo]
    cases hpl : l.pathTo node c with
    | none => cases r.pathTo node c <;> simp
    | some p =>
      have hcl : c ∈ l.symbols node := by
        by_contra hn
        simp [(Tree.pathTo_eq_none_iff node c l).2 hn] at hpl
      have hpr : r.pathTo node c = none :=
        (Tree.pathTo_eq_none_iff node c r).2 fun hcr => hdisjoint c hcl c hcr rfl
      simp [hpr]

end Traversal

/-- GENCODES of a valid tree makes the tree's table within its 511 visits (R181, R184, R249). -/
theorem traversed_of_hasTree {s : State} {T : Tree} (h : s.HasTree T) :
    ∃ st, s.traversed = some st ∧ ∀ c : Byte, st.code.code c.toNat = entryOf (T.codeOf s.node c) := by
  obtain ⟨hstored, hroot, hperm, hnodup, h511⟩ := h
  have hlen := hperm.length_eq
  rw [List.length_range] at hlen
  cases T with
  | leaf k =>
    rw [Tree.root] at hroot
    simp only [Tree.stored, Bool.and_eq_true] at hstored
    obtain ⟨⟨⟨hleaf, -⟩, -⟩, -⟩ := hstored
    refine ⟨_, by rw [State.traversed, hroot, if_pos hleaf], fun c => ?_⟩
    have htable := code_recordPaths s.node (.leaf k) hnodup c [false] noCodes
    rw [recordPaths] at htable
    rw [htable, Tree.codeOf, Tree.pathTo]
    split <;> simp [entryOf]
  | node k l r =>
    obtain ⟨d, htraverse⟩ := traverse_tree s.node (.node k l r) hstored s.root hroot
      (Config.maxNodes - s.nNodes.toNat) noCodes [] [] 0
    have hfuel : Config.maxNodes - s.nNodes.toNat + (Tree.node k l r).indices.length = Config.maxNodes := by
      rw [hlen]
      exact Nat.sub_add_cancel h511
    have hleaf : (s.node.node s.root.toNat).leaf = false := by
      rw [Tree.root] at hroot
      simp only [Tree.stored, Bool.and_eq_true, Bool.not_eq_true', ← hroot] at hstored
      obtain ⟨⟨⟨⟨⟨⟨⟨⟨hleaf, -⟩, -⟩, -⟩, -⟩, -⟩, -⟩, -⟩, -⟩ := hstored
      exact hleaf
    rw [hfuel] at htraverse
    have htraversed := htraverse.trans (traverse_nil _ _ rfl)
    refine ⟨_, by simpa only [State.traversed, hleaf, Bool.false_eq_true, if_false] using htraversed, fun c => ?_⟩
    dsimp only
    rw [code_recordPaths s.node _ hnodup c [] noCodes, noCodes_code, Tree.codeOf]
    cases (Tree.node k l r).pathTo s.node c <;> simp [entryOf]

end Sys2Proof.Machine

/-! ## How ENCODE and DECODE end (spec/44_encode.md, spec/45_decode.md, spec/60_exceptions.md R292) -/

namespace Sys2Proof.Machine

/-- `after` is the output buffer `before` with its first `j` entries written, all of them below `cap` (R70, R81). -/
structure Written (cap : Nat) (before after : Memory Byte) (j : Nat) : Prop where
  fits : j ≤ cap
  above : ∀ a, j ≤ a → after.byte a = before.byte a
  wf : before.wf byteFill cap = true → after.wf byteFill cap = true

theorem Written.none (cap : Nat) (m : Memory Byte) : Written cap m m 0 :=
  ⟨Nat.zero_le _, fun _ _ => rfl, id⟩

/-- Writing the next entry, where there is room. -/
theorem Written.setByte {cap j : Nat} {before after : Memory Byte} (h : Written cap before after j) (hj : j < cap)
    (v : Byte) : Written cap before (after.setByte j v) (j + 1) := by
  refine ⟨hj, fun a ha => ?_, fun hwf => Memory.wf_setByte (h.wf hwf) hj v⟩
  rw [Memory.byte_setByte, if_neg (by omega)]
  exact h.above a (by omega)

/-! ### ENCODE -/

/-- What the loops of ENCODE keep (R197): the next digit goes to bit `total` of the output, and the digits so far
fit. -/
structure PackOk (cap : Nat) (before : Memory Byte) (st : PackLoop) : Prop where
  written : Written cap before st.obuf st.j
  position : 8 * st.j + st.nb = st.total
  nb_le : st.nb ≤ 7
  fits : st.total ≤ 8 * cap

section Pack

variable {cap : Nat} {before : Memory Byte} {st : PackLoop}

theorem PackOk.packDigit (h : PackOk cap before st) (hroom : st.total < 8 * cap) (b : Bool) :
    PackOk cap before (packDigit b st) := by
  obtain ⟨hwritten, hposition, hnb, -⟩ := h
  obtain ⟨hposition', hnb'⟩ := packDigit_position b hnb
  refine ⟨?_, by rw [packDigit_total]; omega, hnb', by rw [packDigit_total]; omega⟩
  unfold Machine.packDigit
  dsimp only
  split
  · exact hwritten.setByte (by omega) _
  · exact hwritten

theorem PackOk.packCode (c : CodeEntry) (rem : Nat) (h : PackOk cap before st) (hroom : st.total + rem ≤ 8 * cap) :
    PackOk cap before (packCode c rem st) := by
  induction rem generalizing st with
  | zero => exact h
  | succ rem ih => exact ih (h.packDigit (by omega) _) (by rw [packDigit_total]; omega)

/-- The digits that ENCODE has packed when its loop runs out fit in OBUF (R201). -/
theorem PackOk.packLoop {ibuf : Memory Byte} {code : Memory CodeEntry} {st' : PackLoop} (rem : Nat)
    (h : PackOk cap before st) (hloop : packLoop cap ibuf code rem st = .done st') : PackOk cap before st' := by
  induction rem generalizing st with
  | zero =>
    injection hloop with hloop
    exact hloop ▸ h
  | succ rem ih =>
    simp only [Machine.packLoop] at hloop
    split at hloop
    · cases hloop
    · split at hloop
      · cases hloop
      · next hroom =>
        have hstart : PackOk cap before { st with d := 0 } := ⟨h.written, h.position, h.nb_le, h.fits⟩
        obtain ⟨hwritten, hposition, hnb, hfits⟩ := hstart.packCode _ _ (Nat.le_of_not_lt hroom)
        refine ih ?_ hloop
        exact ⟨hwritten, hposition, hnb, hfits⟩

theorem packStart_packOk (s : State) : PackOk cap s.obuf s.packStart :=
  ⟨Written.none _ _, rfl, Nat.zero_le _, Nat.zero_le _⟩

/-- The last, partial byte fits too (R198). -/
theorem PackOk.flushAcc (h : PackOk cap before st) :
    Written cap before (flushAcc st).obuf (flushAcc st).j := by
  obtain ⟨hwritten, hposition, hnb, hfits⟩ := h
  unfold Machine.flushAcc
  split
  · exact hwritten.setByte (by omega) _
  · exact hwritten

end Pack

/-! ### DECODE -/

section Walk

variable {cap : Nat} {before : Memory Byte} {st st' : WalkLoop}

theorem Written.emit {sym : Byte} (h : Written cap before st.obuf st.j) (he : emit cap sym st = .done st') :
    Written cap before st'.obuf st'.j := by
  rcases emit_cases cap sym st with ⟨-, he'⟩ | ⟨hj, he'⟩ <;> rw [he'] at he
  · cases he
  · injection he with he
    exact he ▸ h.setByte hj sym

theorem Written.walkLeaf {sym : Byte} {bit : Bool} (h : Written cap before st.obuf st.j)
    (hw : walkLeaf cap sym bit st = .done st') : Written cap before st'.obuf st'.j := by
  rcases walkLeaf_cases cap sym bit st with ⟨-, he⟩ | ⟨-, he⟩ <;> rw [he] at hw
  · cases hw
  · exact h.emit hw

theorem Written.walkInner {node : Memory NodeEntry} {root : NodeIdx} {bit : Bool}
    (h : Written cap before st.obuf st.j) (hw : walkInner cap node root bit st = .done st') :
    Written cap before st'.obuf st'.j := by
  obtain ⟨cur, -, ⟨-, he⟩ | ⟨-, -, he⟩ | ⟨-, hj, he⟩⟩ := walkInner_cases cap node root bit st <;> rw [he] at hw
  · injection hw with hw
    exact hw ▸ h
  · cases hw
  · injection hw with hw
    exact hw ▸ h.setByte hj _

/-- One bit of DECODE writes at most the next entry of OBUF (R219). -/
theorem Written.walkBit {s : State} (h : Written s.config.obufBytes before st.obuf st.j)
    (hw : s.walkBit st = .done st') : Written s.config.obufBytes before st'.obuf st'.j := by
  simp only [State.walkBit] at hw
  split at hw
  · next st1 hst1 =>
    injection hw with hw
    subst hw
    split at hst1
    · exact h.walkLeaf (st' := st1) hst1
    · exact h.walkInner (st' := st1) hst1
  · cases hw

theorem Written.walkBits {s : State} (rem : Nat) (h : Written s.config.obufBytes before st.obuf st.j)
    (hw : s.walkBits rem st = .done st') : Written s.config.obufBytes before st'.obuf st'.j := by
  induction rem generalizing st with
  | zero =>
    injection hw with hw
    exact hw ▸ h
  | succ rem ih =>
    simp only [State.walkBits] at hw
    split at hw
    · next st1 hst1 => exact ih (h.walkBit hst1) hw
    · cases hw

theorem Written.walkSyms {s : State} (rem : Nat) (h : Written s.config.obufBytes before st.obuf st.j)
    (hw : s.walkSyms rem st = .done st') : Written s.config.obufBytes before st'.obuf st'.j := by
  induction rem generalizing st with
  | zero =>
    simp only [State.walkSyms] at hw
    split at hw
    · cases hw
    · injection hw with hw
      exact hw ▸ h
  | succ rem ih =>
    simp only [State.walkSyms] at hw
    split at hw
    · split at hw
      · next st1 hst1 => exact ih (h.walkBit hst1) hw
      · cases hw
    · injection hw with hw
      exact hw ▸ h

end Walk

/-! ### The three commands -/

/-- `t` is `s` after a command that writes OBUF has failed: R292, then R290. -/
def TransferFailed (s t : State) : Prop :=
  ∃ work e info, t = { s with work }.failTransfer e info

/-- `t` is `s` after a command that writes OBUF has completed (R198, R216, R224). -/
def TransferDone (s t : State) : Prop :=
  ∃ obuf j bitCount symCount work, Written s.config.obufBytes s.obuf obuf j ∧
    t = { s with obuf, outLen := BitVec.ofNat 32 j, bitCount, symCount, work }.complete

/-- Everything the end of ENCODE can be (R196, R292). -/
theorem execEncode_ends {s t : State} (h : execEncode s = .next t) : TransferFailed s t ∨ TransferDone s t := by
  rcases execEncode_cases h with ⟨-, rfl⟩ | ⟨-, -, rfl⟩ | ⟨-, -, rfl⟩
  · exact .inl ⟨_, _, _, rfl⟩
  · exact .inl ⟨_, _, _, rfl⟩
  · cases hloop : packLoop s.config.obufBytes s.ibuf s.code s.inLen.toNat s.packStart with
    | done st => exact .inr ⟨_, _, _, _, _, ((packStart_packOk s).packLoop _ hloop).flushAcc, rfl⟩
    | raised st e info => exact .inl ⟨_, _, _, rfl⟩

/-- Everything the end of DECODE.B can be (R216, R292). It never writes BITCOUNT. -/
theorem execDecodeB_ends {s t : State} (h : execDecodeB s = .next t) :
    (TransferFailed s t ∨ TransferDone s t) ∧ t.bitCount = s.bitCount := by
  rcases execDecodeB_cases h with ⟨-, rfl⟩ | ⟨-, -, rfl⟩ | ⟨-, -, -, rfl⟩ | ⟨-, -, -, rfl⟩
  · exact ⟨.inl ⟨_, _, _, rfl⟩, rfl⟩
  · exact ⟨.inl ⟨_, _, _, rfl⟩, rfl⟩
  · exact ⟨.inl ⟨_, _, _, rfl⟩, rfl⟩
  · cases hloop : s.walkBits s.bitCount.toNat s.walkStart with
    | done st =>
      rw [State.unpackedB]
      split
      · exact ⟨.inl ⟨_, _, _, rfl⟩, rfl⟩
      · exact ⟨.inr ⟨_, _, _, _, _, (Written.none _ _).walkBits _ hloop, rfl⟩, rfl⟩
    | raised st e info => exact ⟨.inl ⟨_, _, _, rfl⟩, rfl⟩

/-- Everything the end of DECODE.S can be (R224, R292). It never writes SYMCOUNT. -/
theorem execDecodeS_ends {s t : State} (h : execDecodeS s = .next t) :
    (TransferFailed s t ∨ TransferDone s t) ∧ t.symCount = s.symCount := by
  rcases execDecodeS_cases h with ⟨-, rfl⟩ | ⟨-, -, rfl⟩ | ⟨-, -, rfl⟩
  · exact ⟨.inl ⟨_, _, _, rfl⟩, rfl⟩
  · exact ⟨.inl ⟨_, _, _, rfl⟩, rfl⟩
  · cases hloop : s.walkSyms (8 * s.inLen.toNat) s.walkStart with
    | done st => exact ⟨.inr ⟨_, _, _, _, _, (Written.none _ _).walkSyms _ hloop, rfl⟩, rfl⟩
    | raised st e info => exact ⟨.inl ⟨_, _, _, rfl⟩, rfl⟩

/-- A command that writes OBUF fails or completes. -/
theorem exec_transfer_ends {i : Instr} {s t : State} (hi : i = .encode ∨ i = .decodeB ∨ i = .decodeS)
    (h : exec i s = .next t) : TransferFailed s t ∨ TransferDone s t := by
  rcases hi with rfl | rfl | rfl
  · exact execEncode_ends h
  · exact (execDecodeB_ends h).1
  · exact (execDecodeS_ends h).1

/-- Settles O56: each end is one of two updates of the state. -/
theorem transferFrame : Obligations.TransferFrame := by
  intro s t i hi h
  refine ⟨?frame, fun hB => ?bits, fun hS => ?syms, fun hs ht => ?failed, fun hc hs ht => ?completed⟩
  case bits => subst hB; exact (execDecodeB_ends h).2
  case syms => subst hS; exact (execDecodeS_ends h).2
  all_goals
    rcases exec_transfer_ends hi h with ⟨work, e, info, rfl⟩ | ⟨obuf, j, bitCount, symCount, work, hwritten, rfl⟩
  case frame.inl => rfl
  case frame.inr => rfl
  case failed.inl => exact ⟨rfl, rfl, rfl, rfl⟩
  case failed.inr => simp [hs] at ht
  case completed.inl => simp at ht
  case completed.inr =>
    have hj : j < 2 ^ 32 := by
      simp only [State.ConfigOk, Config.wellFormed, Config.obufOk, Bool.and_eq_true, decide_eq_true_eq] at hc
      have := hwritten.fits
      omega
    refine ⟨rfl, rfl, rfl, fun a ha => hwritten.above a ?_⟩
    rwa [State.complete_outLen, BitVec.toNat_ofNat, Nat.mod_eq_of_lt hj] at ha

end Sys2Proof.Machine

/-! ## What each act of the machine can do and leaves alone (spec/10_state.md R40 to R50, spec/20_memory.md R74) -/

namespace Sys2Proof.Machine

/-! ### The command words -/

/-- The decoder answers with a command only for the fields of its word (R104, R107). -/
theorem fields_eq_of_decodeFields {f : CommandFields} {i : Instr} (h : decodeFields f = .ok i) : f = i.fields := by
  obtain ⟨opc, mode, rsv⟩ := f
  simp only [decodeFields, ne_eq] at h
  split at h
  · cases h
  · next hrsv =>
    obtain rfl : rsv = 0 := not_not.1 hrsv
    rcases BitVec.eq_zero_or_eq_one mode with rfl | rfl
    · split_ifs at h <;> injection h with h <;> subst h <;> subst opc
      case neg => exact absurd rfl ‹¬(0#1 : BitVec 1) = 0›
      all_goals rfl
    · by_cases hopc : opc = 5
      · subst hopc
        injection h with h
        subst h
        rfl
      · rw [if_pos ⟨rfl, hopc⟩] at h
        cases h

/-- A command has one word (R104). -/
theorem eq_encodeCmd_of_decodeCmd {w : Word} {i : Instr} (h : decodeCmd w = some i) : w = encodeCmd i := by
  rw [decodeCmd_eq_some_iff] at h
  rw [← wordOf_fieldsOf w, fields_eq_of_decodeFields h, encodeCmd]

/-! ### The commands -/

/-- `s` after a GENCODES whose traversal ends so (R181). -/
def State.generated (s : State) (st : TraverseLoop) : State :=
  { s with code := st.code, codesValid := true, work := { s.work with stack := st.stack, d := st.d } }.complete

/-- Everything a command can make of the state `s` (R131, R161, R181, R196, R216, R224, R250, R292). -/
inductive CommandEnd (s : State) : Instr → State → Prop
  | failed {i : Instr} (hi : i = .analyze ∨ i = .gencodes) (e : ErrKind) (info : Word) :
    CommandEnd s i (s.raise e info)
  | analyzed : CommandEnd s .analyze s.analyzed.complete
  | rejected (e : ErrKind) (info : Word) : CommandEnd s .build (s.invalidate.raise e info)
  | built (st : BuildLoop) (h : Built s st) : CommandEnd s .build (s.invalidate.merged (.done st))
  | generated (st : TraverseLoop) (hv : s.treeValid = true) (h : s.traversed = some st) :
    CommandEnd s .gencodes (s.generated st)
  | transferFailed {i : Instr} (hi : i = .encode ∨ i = .decodeB ∨ i = .decodeS) (work : Work) (e : ErrKind)
    (info : Word) : CommandEnd s i ({ s with work }.failTransfer e info)
  | transferred {i : Instr} (hi : i = .encode ∨ i = .decodeB ∨ i = .decodeS) (obuf : Memory Byte) (j : Nat)
    (bitCount symCount : Word) (work : Work) (h : Written s.config.obufBytes s.obuf obuf j) :
    CommandEnd s i { s with obuf, outLen := BitVec.ofNat 32 j, bitCount, symCount, work }.complete
  | cleared : CommandEnd s .clear s.discardSession.complete

theorem exec_commandEnd {i : Instr} {s t : State} (h : exec i s = .next t) : CommandEnd s i t := by
  have transfer (hi : i = .encode ∨ i = .decodeB ∨ i = .decodeS) : CommandEnd s i t := by
    rcases exec_transfer_ends hi h with ⟨work, e, info, rfl⟩ | ⟨obuf, j, b, n, work, hwritten, rfl⟩
    · exact .transferFailed hi work e info
    · exact .transferred hi obuf j b n work hwritten
  cases i with
  | analyze =>
    rcases execAnalyze_cases h with ⟨-, rfl⟩ | ⟨-, rfl⟩
    · exact .failed (.inl rfl) _ _
    · exact .analyzed
  | build =>
    rcases execBuild_cases h with ⟨e, info, rfl⟩ | ⟨st, hst, rfl⟩
    · exact .rejected e info
    · exact .built st hst
  | gencodes =>
    rcases execGencodes_cases h with ⟨-, rfl⟩ | ⟨hv, st, hst, rfl⟩
    · exact .failed (.inr rfl) _ _
    · exact .generated st hv hst
  | encode => exact transfer (.inl rfl)
  | decodeB => exact transfer (.inr (.inl rfl))
  | decodeS => exact transfer (.inr (.inr rfl))
  | clear =>
    injection h with h
    exact h ▸ .cleared

/-- Everything the sequencer can make of the state when it runs an accepted word (R245, R247). -/
theorem runWord_ends {w : Word} {s t : State} (h : runWord w s = .next t) :
    (∃ i, w = encodeCmd i ∧ decodeCmd w = some i ∧ CommandEnd s i t) ∨
      (decodeCmd w = none ∧ t = s.raise .illegalCommand w) := by
  rcases runWord_cases h with ⟨i, hi, hexec⟩ | hnone
  · exact .inl ⟨i, eq_encodeCmd_of_decodeCmd hi, hi, exec_commandEnd hexec⟩
  · exact .inr hnone

/-- No command changes the configuration or IBUF, and each writes only its own memories (R49, R58, R91). -/
theorem CommandEnd.frame {s t : State} {i : Instr} (h : CommandEnd s i t) :
    t.config = s.config ∧ t.ibuf = s.ibuf ∧ (t.node = s.node ∨ i = .build) ∧ (t.code = s.code ∨ i = .gencodes) ∧
      (t.obuf = s.obuf ∨ i = .encode ∨ i = .decodeB ∨ i = .decodeS) := by
  cases h with
  | failed | analyzed | rejected | cleared => exact ⟨rfl, rfl, .inl rfl, .inl rfl, .inl rfl⟩
  | built => exact ⟨rfl, rfl, .inr rfl, .inl rfl, .inl rfl⟩
  | generated => exact ⟨rfl, rfl, .inl rfl, .inr rfl, .inl rfl⟩
  | transferFailed hi | transferred hi => exact ⟨rfl, rfl, .inl rfl, .inl rfl, .inr hi⟩

/-! ### The host -/

/-- What an act of the host other than reset leaves alone (R74). -/
structure HostKeeps (s t : State) : Prop where
  config : t.config = s.config
  node : t.node = s.node
  code : t.code = s.code
  obuf : t.obuf = s.obuf
  root : t.root = s.root
  nNodes : t.nNodes = s.nNodes
  outLen : t.outLen = s.outLen
  treeValid : t.treeValid = s.treeValid
  codesValid : t.codesValid = s.codesValid

/-- Everything one request can make of the state (R71 to R76, R240 to R246). -/
inductive Served (s : State) : State → Prop
  | refused : Served s s.refuse
  | lockedOut : Served s s.refuseLockout
  | read (v : Word) (h : s.seq = .idle) : Served s (s.respond v)
  | polled (w : Word) (polls : Nat) (h : s.seq = .run w polls) : Served s (s.poll w polls)
  | accepted (w : Word) (i : Instr) (hseq : s.seq = .idle) (hi : decodeCmd w = some i)
    (herr : s.err = false ∨ i = .clear) : Served s (s.respondWrite.accept w)
  | illegal (w : Word) (hseq : s.seq = .idle) (herr : s.err = false) :
    Served s ((s.respondWrite.accept w).raise .illegalCommand w)
  | written (v : Word) (a : Addr) (l : Loc) (t : State) (hseq : s.seq = .idle) (hl : locate s.config a = some l)
    (ht : s.writeLoc v l = some t) : Served s t.respondWrite

theorem serve_served (s : State) (r : BusRequest) : Served s (s.serve r) := by
  unfold State.serve
  split
  · next w polls hseq =>
    rcases serveBusy_cases s w polls r with ⟨-, h⟩ | ⟨-, h⟩ <;> rw [h]
    · exact .polled w polls hseq
    · exact .lockedOut
  · next hseq =>
    rcases serveIdle_cases s r with h | ⟨l, hl, ⟨-, h⟩ | ⟨-, -, h⟩ | ⟨-, -, t, ht, h⟩⟩ <;> rw [h]
    · exact .refused
    · exact .read _ hseq
    · rcases present_cases s r.wdata with ⟨-, -, h⟩ | ⟨i, hi, herr, h⟩ | ⟨-, herr, h⟩ <;> rw [h]
      · exact .lockedOut
      · exact .accepted _ i hseq hi herr
      · exact .illegal _ hseq herr
    · exact .written _ _ l t hseq hl ht

theorem Served.keeps {s t : State} (h : Served s t) : HostKeeps s t := by
  cases h with
  | refused | lockedOut | read | polled | accepted | illegal => constructor <;> rfl
  | written v a l t hseq hl ht =>
    rcases (writeLoc_cases ht).2 with
      rfl | rfl | rfl | rfl | rfl | ⟨i, -, rfl⟩ | ⟨i, -, rfl⟩ | ⟨i, -, rfl⟩ <;> constructor <;> rfl

/-! ### The step -/

/-- Everything a step can make of the state: nothing, a reset edge, a request of the host served, or an accepted word
run (R20, R247, R320). -/
theorem step_ends {s t : State} (h : step s = .next t) :
    (s.sequencerTurn = false ∧
      (t = s ∨
       (∃ x rest, s.host = x :: rest ∧ x.act = .reset ∧ t = State.resetWith s.config s.draws rest) ∨
       ∃ rest, Served { s with host := rest } t)) ∨
    (s.sequencerTurn = true ∧ ∃ w polls, s.seq = .run w polls ∧
      ((∃ i, w = encodeCmd i ∧ decodeCmd w = some i ∧ CommandEnd s i t) ∨
        (decodeCmd w = none ∧ t = s.raise .illegalCommand w))) := by
  rcases step_cases h with ⟨hseq, -, rfl⟩ | ⟨hturn, x, rest, hhost, ht⟩ | ⟨hturn, w, polls, hseq, hrun⟩
  · exact .inl ⟨by simp [State.sequencerTurn, hseq], .inl rfl⟩
  · refine .inl ⟨hturn, .inr ?_⟩
    cases hact : x.act with
    | reset => exact .inl ⟨x, rest, hhost, hact, by rw [ht, hact]; rfl⟩
    | request r => exact .inr ⟨rest, by rw [ht, hact]; exact serve_served _ r⟩
  · exact .inr ⟨hturn, w, polls, hseq, runWord_ends hrun⟩

/-- Settles O59: by the cases of a step, a command's frame and the host's. -/
theorem eachMemoryHasItsWriter : Obligations.EachMemoryHasItsWriter := by
  intro s t h
  rcases step_ends h with ⟨hturn, hhost⟩ | ⟨hturn, w, polls, hseq, hrun⟩
  · refine ⟨fun h => by simp [hturn] at h, fun _ hreset => ?_⟩
    rcases hhost with rfl | ⟨x, rest, hx, hact, -⟩ | ⟨rest, hserved⟩
    · exact ⟨rfl, rfl, rfl, rfl, rfl, rfl, rfl, rfl⟩
    · exact absurd hact (hreset x rest hx)
    · obtain ⟨-, hnode, hcode, hobuf, hroot, hnNodes, houtLen, htree, hcodes⟩ := hserved.keeps
      exact ⟨hnode, hcode, hobuf, hroot, hnNodes, houtLen, htree, hcodes⟩
  · refine ⟨fun _ => ?_, fun h => by simp [hturn] at h⟩
    rcases hrun with ⟨i, rfl, -, hend⟩ | ⟨-, rfl⟩
    · obtain ⟨-, hibuf, hnode, hcode, hobuf⟩ := hend.frame
      refine ⟨hibuf, hnode.imp_right ?_, hcode.imp_right ?_, hobuf.imp_right ?_⟩
      · rintro rfl; exact ⟨polls, hseq⟩
      · rintro rfl; exact ⟨polls, hseq⟩
      · rintro (rfl | rfl | rfl)
        · exact ⟨polls, .inl hseq⟩
        · exact ⟨polls, .inr (.inl hseq)⟩
        · exact ⟨polls, .inr (.inr hseq)⟩
    · exact ⟨rfl, .inl rfl, .inl rfl, .inl rfl⟩

/-- Settles O9, by the arms of `step`. -/
theorem stepServesTheHost : Obligations.StepServesTheHost := by
  refine fun s => ⟨fun x rest r hhost hact hwhen => ?_, fun hseq hhost => by simp [step, hseq, hhost]⟩
  cases hseq : s.seq with
  | idle => simp [step, hseq, hhost, hact, State.hostAct]
  | run w polls =>
    have hduring : x.during = true := hwhen.resolve_right (by simp [hseq])
    simp [step, hseq, hhost, hact, hduring, State.hostAct]

/-- The reset state of a legal configuration meets the invariant (R57, R33). -/
theorem resetWith_inv {c : Config} (hc : c.wellFormed = true) (draws : Nat) (host : List HostInput) :
    (State.resetWith c draws host).Inv where
  config := hc
  flags := by simp [State.FlagsOk, State.resetWith, State.seqOk]
  memories := by simp [State.MemoriesOk, State.resetWith]
  tree := by simp [State.TreeOk, State.resetWith]
  codes := by simp [State.CodesOk, State.resetWith]

/-- Settles O2: `State.reset` is the reset state of the default configuration. -/
theorem resetStateMeetsTheInvariant : Obligations.ResetStateMeetsTheInvariant :=
  ⟨resetWith_inv (by decide) 0 [], fun _ draws host hc => resetWith_inv hc draws host⟩

end Sys2Proof.Machine

/-! ## Reads of the host (spec/10_state.md R34 to R39, spec/20_memory.md R72, R78) -/

namespace Sys2Proof.Machine

/-- The map up to the buffers does not depend on the capacities (R78). -/
theorem locate_congr (c c' : Config) {a : Addr} (ha : a.toNat < 0x1000000) : locate c a = locate c' a := by
  unfold locate
  simp only [show a.toNat < 0x1000000 from ha, if_true]

/-- A location of the map that stands before the buffers is at its address in every configuration (R78). -/
theorem locate_addr_of_lt {c : Config} {l : Loc} (hl : l.mapped Config.default = true)
    (ha : l.addr.toNat < 0x1000000) : locate c l.addr = some l :=
  (locate_congr c Config.default ha).trans (locate_addr (by decide) hl)

/-- A read of a location while no command runs answers with its word and changes nothing else (R72). -/
theorem serve_read {s : State} {a : Addr} {l : Loc} (x : Word) (hseq : s.seq = .idle)
    (hl : locate s.config a = some l) :
    s.serve { write := false, addr := a, wdata := x } = s.respond (s.readLoc l) := by
  simp [State.serve, hseq, State.serveIdle, hl]

/-- The STATUS word as a number (R36). -/
theorem statusWord_eq_ofNat (done err haz treeValid codesValid : Bool) :
    statusWord false done err haz treeValid codesValid =
      BitVec.ofNat 32 (2 * done.toNat + 4 * err.toNat + 8 * haz.toNat + 16 * treeValid.toNat +
        32 * codesValid.toNat) := by
  revert done err haz treeValid codesValid
  decide

/-- Settles O12: each address is that of a location, and a read answers with the location's word. -/
theorem registerReads : Obligations.RegisterReads := by
  intro s x hseq
  refine ⟨?registers, fun i hi => ⟨?symtab, ?freqtab⟩, fun hc => ⟨fun i hi => ?ibuf, fun j hj => ?obuf⟩, ?outputs⟩
  case registers =>
    have hstatus : s.readLoc .status = BitVec.ofNat 32 (2 * s.done.toNat + 4 * s.err.toNat + 8 * s.haz.toNat +
        16 * s.treeValid.toNat + 32 * s.codesValid.toNat) := by
      rw [State.readLoc, status_idle hseq, statusWord_eq_ofNat]
    have read (l : Loc) (h : locate s.config l.addr = some l) := serve_read x hseq h
    simp only [List.forall_mem_cons, ← hstatus]
    exact ⟨read .id rfl, read .cmd rfl, read .status rfl, read .errCode rfl, read .errInfo rfl, read .inLen rfl,
      read .bitCount rfl, read .symCount rfl, read .outLen rfl, read .nSym rfl, read .root rfl, read .nNodes rfl,
      read .ibufCap rfl, read .obufCap rfl, by simp⟩
  case symtab =>
    exact serve_read x hseq (locate_addr_of_lt (l := .symtab i) (by simpa [Loc.mapped] using hi)
      (by simp [Loc.addr]; omega))
  case freqtab =>
    exact serve_read x hseq (locate_addr_of_lt (l := .freqtab i) (by simpa [Loc.mapped] using hi)
      (by simp [Loc.addr]; omega))
  case ibuf => exact serve_read x hseq (locate_addr (l := .ibuf i) hc (by simpa [Loc.mapped] using hi))
  case obuf => exact serve_read x hseq (locate_addr (l := .obuf j) hc (by simpa [Loc.mapped] using hj))
  case outputs =>
    simp only [State.busyOut, State.doneOut, State.errOut, status_idle hseq]
    obtain ⟨hbusy, hdone, herr, -⟩ := getLsbD_statusWord false s.done s.err s.haz s.treeValid s.codesValid
    exact ⟨hbusy, hdone, herr⟩

end Sys2Proof.Machine

/-! ## Every step keeps the invariant (spec/10_state.md R33, R37, R38, R40 to R50) -/

namespace Sys2Proof.Machine

/-! ### Flags and error registers (R33, R37, R38, R281) -/

theorem ErrKind.code_mem_errorCodes (e : ErrKind) : e.code ∈ errorCodes := by
  cases e <;> decide

theorem flagsOk_raise {s : State} (hvalid : s.codesValid = true → s.treeValid = true) (hdone : s.done = false)
    (e : ErrKind) (info : Word) : (s.raise e info).FlagsOk :=
  ⟨hvalid, fun h => by simp [hdone] at h, fun h => by simp at h, fun _ => e.code_mem_errorCodes, rfl⟩

theorem flagsOk_complete {s : State} (hvalid : s.codesValid = true → s.treeValid = true) (herr : s.err = false)
    (hclear : s.errCode = 0 ∧ s.errInfo = 0) : s.complete.FlagsOk :=
  ⟨hvalid, fun _ => ⟨herr, rfl⟩, fun _ => hclear, fun h => by simp [herr] at h, rfl⟩

/-- In a run DONE is 0, the word is a command's, and ERR is 0 unless it is CLEAR's (R240, R242, R245). -/
theorem State.FlagsOk.running {s : State} {w : Word} {polls : Nat} (h : s.FlagsOk) (hseq : s.seq = .run w polls) :
    s.done = false ∧ ∃ i, decodeCmd w = some i ∧ (s.err = false ∨ i = .clear) := by
  obtain ⟨-, hdone, -, -, hseqOk⟩ := h
  refine ⟨Bool.eq_false_iff.2 fun hd => by simpa [State.busy, hseq] using (hdone hd).2, ?_⟩
  simp only [State.seqOk, hseq, Bool.and_eq_true, Bool.or_eq_true, Bool.not_eq_true', beq_iff_eq] at hseqOk
  obtain ⟨hsome, hclear⟩ := hseqOk
  obtain ⟨i, hi⟩ := Option.isSome_iff_exists.1 hsome
  exact ⟨i, hi, hclear.imp_right fun h => Option.some.inj (hi.symm.trans h)⟩

theorem CommandEnd.flagsOk {s t : State} {i : Instr} (h : CommandEnd s i t) (hf : s.FlagsOk) (hdone : s.done = false)
    (herr : s.err = false ∨ i = .clear) : t.FlagsOk := by
  obtain ⟨hvalid, -, hclear, -, -⟩ := hf
  cases h with
  | failed hi e info => exact flagsOk_raise hvalid hdone e info
  | rejected e info => exact flagsOk_raise (s := s.invalidate) (by simp) hdone e info
  | transferFailed hi work e info => exact flagsOk_raise hvalid hdone e info
  | analyzed =>
    have herr : s.err = false := herr.resolve_right (by simp)
    exact flagsOk_complete (s := s.analyzed) hvalid herr (hclear herr)
  | built st h =>
    have herr : s.err = false := herr.resolve_right (by simp)
    exact flagsOk_complete (fun _ => rfl) herr (hclear herr)
  | generated st hv h =>
    have herr : s.err = false := herr.resolve_right (by simp)
    exact flagsOk_complete (fun _ => hv) herr (hclear herr)
  | transferred hi =>
    have herr : s.err = false := herr.resolve_right (by rintro rfl; simp at hi)
    exact flagsOk_complete hvalid herr (hclear herr)
  | cleared => exact flagsOk_complete (by simp) rfl ⟨rfl, rfl⟩

theorem Served.flagsOk {s t : State} (h : Served s t) (hf : s.FlagsOk) : t.FlagsOk := by
  cases h with
  | refused | lockedOut | read => exact hf
  | polled w polls hseq =>
    obtain ⟨hvalid, hdone, hclear, hcode, hseqOk⟩ := hf
    refine ⟨hvalid, fun hd => ?_, hclear, hcode, ?_⟩
    · simpa [State.busy, hseq] using (hdone hd).2
    · simpa [State.seqOk, hseq] using hseqOk
  | accepted w i hseq hi herr =>
    obtain ⟨hvalid, -, hclear, hcode, -⟩ := hf
    refine ⟨hvalid, fun hd => by simp at hd, hclear, hcode, ?_⟩
    rcases herr with herr | rfl <;> simp [State.seqOk, *]
  | illegal w hseq herr => exact flagsOk_raise (s := s.respondWrite.accept w) hf.1 rfl _ _
  | written v a l t hseq hl ht =>
    rcases (writeLoc_cases ht).2 with
      rfl | rfl | rfl | rfl | rfl | ⟨i, -, rfl⟩ | ⟨i, -, rfl⟩ | ⟨i, -, rfl⟩ <;> exact hf

/-! ### Memories (R40, R44 to R46, R49, R50) -/

/-- What the loop of ANALYZE keeps: the index lists each symbol once, at a position below `n` (R56, R132). -/
structure AnalyzeOk (st : AnalyzeLoop) : Prop where
  symtab : st.symtab.wf byteFill 256 = true
  freqtab : st.freqtab.wf wordFill 256 = true
  count : st.n = st.index.length
  nodup : (st.index.map Prod.fst).Nodup
  below : ∀ x ∈ st.index, x.2 < st.n

theorem AnalyzeOk.le {st : AnalyzeLoop} (h : AnalyzeOk st) : st.n ≤ 256 := by
  have hlen := length_le_of_nodup_byte h.nodup
  rwa [List.length_map, ← h.count] at hlen

theorem AnalyzeOk.analyzeByte {st : AnalyzeLoop} (h : AnalyzeOk st) (b : Byte) : AnalyzeOk (analyzeByte b st) := by
  rcases analyzeByte_cases b st with ⟨p, hp, he⟩ | ⟨hnew, he⟩ <;> rw [he]
  · have hpn := h.below _ (mem_of_positionOf hp)
    have hn := h.le
    exact { h with freqtab := Memory.wf_setWord h.freqtab (by omega) _ }
  · have hkeys : ((st.index ++ [(b, st.n)]).map Prod.fst).Nodup := by
      have hb : b ∉ st.index.map Prod.fst := fun hmem => by
        obtain ⟨⟨b, p⟩, hx, rfl⟩ := List.mem_map.1 hmem
        exact (positionOf_eq_none_iff _ _).1 hnew p hx
      rw [List.map_append]
      refine List.nodup_append.2 ⟨h.nodup, List.nodup_singleton _, fun x hx y hy hxy => ?_⟩
      obtain rfl := List.mem_singleton.1 hy
      exact hb (hxy ▸ hx)
    have hn : st.n < 256 := by
      have hlen := length_le_of_nodup_byte hkeys
      rw [List.length_map, List.length_append, ← h.count] at hlen
      exact hlen
    refine ⟨Memory.wf_setByte h.symtab hn _, Memory.wf_setWord h.freqtab hn _, by simp [h.count], hkeys, ?_⟩
    intro x hx
    rcases List.mem_append.1 hx with hx | hx
    · exact Nat.lt_succ_of_lt (h.below x hx)
    · obtain rfl := List.mem_singleton.1 hx
      exact Nat.lt_succ_self _

theorem AnalyzeOk.analyzeLoop {ibuf : Memory Byte} (rem i : Nat) {st : AnalyzeLoop} (h : AnalyzeOk st) :
    AnalyzeOk (analyzeLoop ibuf rem i st) := by
  induction rem generalizing i st with
  | zero => exact h
  | succ rem ih => exact ih (i + 1) (h.analyzeByte _)

theorem visit_code_wf {node : Memory NodeEntry} {k : NodeIdx} {path : List Bool} {st : TraverseLoop}
    (h : st.code.wf codeFill 256 = true) : (visit node k path st).code.wf codeFill 256 = true := by
  unfold visit
  dsimp only
  split
  · exact Memory.wf_setCode h (BitVec.isLt _) _
  · exact h

theorem traverse_code_wf {node : Memory NodeEntry} (fuel : Nat) {st st' : TraverseLoop}
    (h : st.code.wf codeFill 256 = true) (ht : traverse node fuel st = some st') :
    st'.code.wf codeFill 256 = true := by
  induction fuel generalizing st with
  | zero =>
    cases hstack : st.stack with
    | nil =>
      rw [traverse_nil _ _ hstack] at ht
      exact Option.some.inj ht ▸ h
    | cons x rest =>
      unfold traverse at ht
      simp [hstack] at ht
  | succ fuel ih =>
    cases hstack : st.stack with
    | nil =>
      rw [traverse_nil _ _ hstack] at ht
      exact Option.some.inj ht ▸ h
    | cons x rest =>
      rw [traverse_cons _ _ hstack] at ht
      exact ih (visit_code_wf (st := { st with stack := rest }) h) ht

theorem traversed_code_wf {s : State} {st : TraverseLoop} (h : s.traversed = some st) :
    st.code.wf codeFill 256 = true := by
  unfold State.traversed at h
  dsimp only at h
  split at h
  · exact Option.some.inj h ▸ Memory.wf_setCode (noCodes_wf 256) (BitVec.isLt _) _
  · exact traverse_code_wf _ (noCodes_wf 256) h

theorem CommandEnd.memoriesOk {s t : State} {i : Instr} (h : CommandEnd s i t) (hm : s.MemoriesOk) :
    t.MemoriesOk := by
  obtain ⟨hsymtab, hfreqtab, hnode, hcode, hibuf, hobuf⟩ := hm
  cases h with
  | failed | rejected | cleared => exact ⟨hsymtab, hfreqtab, hnode, hcode, hibuf, hobuf⟩
  | analyzed =>
    have hstart : AnalyzeOk { symtab := s.symtab, freqtab := s.freqtab, n := 0, index := [] } :=
      ⟨hsymtab, hfreqtab, rfl, by simp, by simp⟩
    have hend := hstart.analyzeLoop (ibuf := s.ibuf) s.inLen.toNat 0
    exact ⟨hend.symtab, hend.freqtab, hnode, hcode, hibuf, hobuf⟩
  | built st h => exact ⟨hsymtab, hfreqtab, h.wf hnode, hcode, hibuf, hobuf⟩
  | generated st hv h => exact ⟨hsymtab, hfreqtab, hnode, traversed_code_wf h, hibuf, hobuf⟩
  | transferFailed => exact ⟨hsymtab, hfreqtab, hnode, hcode, hibuf, Memory.wf_unspecified ..⟩
  | transferred hi obuf j bitCount symCount work h =>
    exact ⟨hsymtab, hfreqtab, hnode, hcode, hibuf, h.wf hobuf⟩

theorem mapped_of_regAt {c : Config} {n : Nat} {l : Loc} (h : regAt n = some l) : l.mapped c = true := by
  unfold regAt at h
  split at h
  case h_15 => cases h
  all_goals
    injection h with h
    subst h
    rfl

/-- The map names no location that does not exist (R78). -/
theorem mapped_of_locate {c : Config} {a : Addr} {l : Loc} (h : locate c a = some l) : l.mapped c = true := by
  unfold locate at h
  generalize a.toNat = n at h
  dsimp only at h
  rcases ite_eq_iff.1 h with ⟨-, h⟩ | ⟨-, h⟩
  · cases h
  rcases ite_eq_iff.1 h with ⟨-, h⟩ | ⟨h1, h⟩
  · exact mapped_of_regAt h
  rcases ite_eq_iff.1 h with ⟨h2, h⟩ | ⟨h2, h⟩
  · rw [← Option.some.inj h, Loc.mapped, decide_eq_true_eq]
    omega
  rcases ite_eq_iff.1 h with ⟨h3, h⟩ | ⟨h3, h⟩
  · rw [← Option.some.inj h, Loc.mapped, decide_eq_true_eq]
    omega
  rcases ite_eq_iff.1 h with ⟨-, h⟩ | ⟨h4, h⟩
  · cases h
  rcases ite_eq_iff.1 h with ⟨h5, h⟩ | ⟨h5, h⟩
  · rw [← Option.some.inj h, Loc.mapped, Bool.and_eq_true, decide_eq_true_eq, decide_eq_true_eq]
    omega
  rcases ite_eq_iff.1 h with ⟨-, h⟩ | ⟨h6, h⟩
  · cases h
  rcases ite_eq_iff.1 h with ⟨h7, h⟩ | ⟨h7, h⟩
  · rw [← Option.some.inj h, Loc.mapped, Bool.and_eq_true, decide_eq_true_eq, decide_eq_true_eq]
    omega
  rcases ite_eq_iff.1 h with ⟨-, h⟩ | ⟨h8, h⟩
  · cases h
  rcases ite_eq_iff.1 h with ⟨h9, h⟩ | ⟨h9, h⟩
  · rcases ite_eq_iff.1 h with ⟨hi, h⟩ | ⟨-, h⟩
    · rw [← Option.some.inj h, Loc.mapped, decide_eq_true_eq]
      exact hi
    · cases h
  rcases ite_eq_iff.1 h with ⟨hj, h⟩ | ⟨-, h⟩
  · rw [← Option.some.inj h, Loc.mapped, decide_eq_true_eq]
    exact hj
  · cases h

theorem Served.memoriesOk {s t : State} (h : Served s t) (hm : s.MemoriesOk) : t.MemoriesOk := by
  cases h with
  | refused | lockedOut | read | polled | accepted | illegal => exact hm
  | written v a l t hseq hl ht =>
    have hmapped := mapped_of_locate hl
    rcases (writeLoc_cases ht).2 with
      rfl | rfl | rfl | rfl | rfl | ⟨i, rfl, rfl⟩ | ⟨i, rfl, rfl⟩ | ⟨i, rfl, rfl⟩
    iterate 5 exact hm
    all_goals
      obtain ⟨hsymtab, hfreqtab, hnode, hcode, hibuf, hobuf⟩ := hm
      simp only [Loc.mapped, decide_eq_true_eq] at hmapped
    · exact ⟨Memory.wf_setByte hsymtab hmapped _, hfreqtab, hnode, hcode, hibuf, hobuf⟩
    · exact ⟨hsymtab, Memory.wf_setWord hfreqtab hmapped _, hnode, hcode, hibuf, hobuf⟩
    · exact ⟨hsymtab, hfreqtab, hnode, hcode, Memory.wf_setByte hibuf hmapped _, hobuf⟩

/-! ### The tree and the code table (R33, R43, R47) -/

theorem CommandEnd.treeOk {s t : State} {i : Instr} (h : CommandEnd s i t) (ht : s.TreeOk) : t.TreeOk := by
  cases h with
  | failed | analyzed | generated | transferFailed | transferred => exact ht
  | rejected | cleared => exact fun hv => by simp at hv
  | built st h => exact fun _ => h.hasTree

theorem CommandEnd.codesOk {s t : State} {i : Instr} (h : CommandEnd s i t) (ht : s.TreeOk) (hc : s.CodesOk) :
    t.CodesOk := by
  cases h with
  | failed | analyzed | transferFailed | transferred => exact hc
  | rejected | cleared => exact fun hv => by simp at hv
  | built st h => exact fun hv => by simp [State.merged] at hv
  | generated st hv h =>
    intro _
    obtain ⟨T, hT⟩ := ht hv
    obtain ⟨st', h', hcodes⟩ := traversed_of_hasTree hT
    obtain rfl := Option.some.inj (h.symm.trans h')
    exact ⟨T, hT, hcodes⟩

theorem HostKeeps.treeOk {s t : State} (h : HostKeeps s t) (ht : s.TreeOk) : t.TreeOk := by
  simpa only [State.TreeOk, State.HasTree, h.treeValid, h.node, h.root, h.nNodes] using ht

theorem HostKeeps.codesOk {s t : State} (h : HostKeeps s t) (hc : s.CodesOk) : t.CodesOk := by
  simpa only [State.CodesOk, State.HasTree, State.HasCodes, h.codesValid, h.node, h.code, h.root, h.nNodes] using hc

/-! ### The whole invariant -/

/-- A command that runs in a state that meets the invariant ends in one that does. -/
theorem CommandEnd.inv {s t : State} {w : Word} {polls : Nat} {i : Instr} (h : CommandEnd s i t) (hs : s.Inv)
    (hseq : s.seq = .run w polls) (hi : decodeCmd w = some i) : t.Inv where
  config := by rw [State.ConfigOk, h.frame.1]; exact hs.config
  flags := by
    obtain ⟨hdone, j, hj, herr⟩ := hs.flags.running hseq
    obtain rfl := Option.some.inj (hi.symm.trans hj)
    exact h.flagsOk hs.flags hdone herr
  memories := h.memoriesOk hs.memories
  tree := h.treeOk hs.tree
  codes := h.codesOk hs.tree hs.codes

/-- A request keeps the invariant. -/
theorem Served.inv {s t : State} (h : Served s t) (hs : s.Inv) : t.Inv where
  config := by rw [State.ConfigOk, h.keeps.config]; exact hs.config
  flags := h.flagsOk hs.flags
  memories := h.memoriesOk hs.memories
  tree := h.keeps.treeOk hs.tree
  codes := h.keeps.codesOk hs.codes

/-- What the host does next is no part of the invariant. -/
theorem State.Inv.withHost {s : State} (h : s.Inv) (host : List HostInput) : ({ s with host } : State).Inv :=
  ⟨h.config, h.flags, h.memories, h.tree, h.codes⟩

/-- Every step keeps the invariant and the configuration. -/
theorem step_inv {s t : State} (hs : s.Inv) (h : step s = .next t) : t.Inv ∧ t.config = s.config := by
  rcases step_ends h with ⟨-, rfl | ⟨x, rest, -, -, rfl⟩ | ⟨rest, hserved⟩⟩ | ⟨-, w, polls, hseq, hrun⟩
  · exact ⟨hs, rfl⟩
  · exact ⟨resetWith_inv hs.config _ _, rfl⟩
  · exact ⟨hserved.inv (hs.withHost rest), hserved.keeps.config⟩
  · rcases hrun with ⟨i, -, hi, hend⟩ | ⟨hnone, -⟩
    · exact ⟨hend.inv hs hseq hi, hend.frame.1⟩
    · obtain ⟨-, i, hi, -⟩ := hs.flags.running hseq
      simp [hnone] at hi

/-- Settles O3, by the flag part of the invariant that every step keeps. -/
theorem stepKeepsTheFlagInvariant : Obligations.StepKeepsTheFlagInvariant := fun _ _ hs h =>
  ⟨(step_inv hs h).2, (step_inv hs h).1.flags⟩

/-- Settles O4, by the memory part of the invariant. -/
theorem stepKeepsMemoriesCanonical : Obligations.StepKeepsMemoriesCanonical := fun _ _ hs h =>
  (step_inv hs h).1.memories

/-- Settles O5, by the tree part of the invariant. -/
theorem stepKeepsTheTree : Obligations.StepKeepsTheTree := fun _ _ hs h => (step_inv hs h).1.tree

/-- Settles O6, by the code-table part of the invariant. -/
theorem stepKeepsTheCodeTable : Obligations.StepKeepsTheCodeTable := fun _ _ hs h => (step_inv hs h).1.codes

end Sys2Proof.Machine

/-! ## STATUS during a run (spec/46_command_control.md R246, R340; spec/60_exceptions.md R296) -/

namespace Sys2Proof.Machine

/-! ### The response channel is no input of a command -/

/-- An outcome with another response. -/
def withRsp (rsp : Option BusResponse) : Result → Result
  | .next t => .next { t with rsp }
  | .fault f => .fault f
  | .refused r => .refused r

section Response

variable (s : State) (rsp : Option BusResponse)

theorem walkBits_rsp (n : Nat) (st : WalkLoop) : { s with rsp }.walkBits n st = s.walkBits n st := by
  induction n generalizing st with
  | zero => rfl
  | succ n ih => simp only [State.walkBits, ih]; rfl

theorem walkSyms_rsp (n : Nat) (st : WalkLoop) : { s with rsp }.walkSyms n st = s.walkSyms n st := by
  induction n generalizing st with
  | zero => rfl
  | succ n ih => simp only [State.walkSyms, ih]; rfl

theorem packed_rsp (r : Ended PackLoop) : { s with rsp }.packed r = { s.packed r with rsp } := by
  cases r <;> rfl

theorem unpackedB_rsp (r : Ended WalkLoop) : { s with rsp }.unpackedB r = { s.unpackedB r with rsp } := by
  cases r with
  | done st => simp only [State.unpackedB]; split <;> rfl
  | raised => rfl

theorem unpackedS_rsp (r : Ended WalkLoop) : { s with rsp }.unpackedS r = { s.unpackedS r with rsp } := by
  cases r <;> rfl

theorem merged_rsp (r : Ended BuildLoop) : { s with rsp }.merged r = { s.merged r with rsp } := by
  cases r <;> rfl

theorem buildTree_rsp : { s with rsp }.buildTree = { s.buildTree with rsp } := by
  unfold State.buildTree
  simp only [merged_rsp]
  split
  · rfl
  · split
    · rfl
    · split <;> rfl

/-- No command looks at the last response, and none changes it (R71, R341). -/
theorem exec_rsp (i : Instr) : exec i { s with rsp } = withRsp rsp (exec i s) := by
  cases i with
  | analyze => simp only [exec, execAnalyze]; split <;> rfl
  | build => exact congrArg Host.Outcome.next (buildTree_rsp s.invalidate rsp)
  | gencodes =>
    simp only [exec, execGencodes]
    split
    · rfl
    · rw [show ({ s with rsp } : State).traversed = s.traversed from rfl]
      cases s.traversed <;> rfl
  | encode =>
    simp only [exec, execEncode, packed_rsp]
    split
    · rfl
    · split <;> rfl
  | decodeB =>
    simp only [exec, execDecodeB, walkBits_rsp, unpackedB_rsp]
    split
    · rfl
    · split
      · rfl
      · split <;> rfl
  | decodeS =>
    simp only [exec, execDecodeS, walkSyms_rsp, unpackedS_rsp]
    split
    · rfl
    · split <;> rfl
  | clear => rfl

theorem lastViews_rsp (i : Instr) : { s with rsp }.lastViews i = s.lastViews i := by
  rw [State.lastViews, exec_rsp, State.lastViews]
  cases exec i s <;> rfl

theorem currentView_rsp : { s with rsp }.currentView = s.currentView := by
  simp only [State.currentView, lastViews_rsp]
  rfl

theorem status_rsp : { s with rsp }.status = s.status := by
  simp only [State.status, currentView_rsp]
  rfl

end Response

/-! ### The views of a run -/

section Views

variable (s : State) (i : Instr)

/-- The flags as a run of `i` shows them from `s` when it has passed `k` of its flag writes (R246, log entry 7). -/
def State.viewIn (k : Nat) : FlagView := viewAt s.flagView (s.midViews i ++ s.lastViews i) k

variable {s i}

/-- While a command runs STATUS shows one of its views, with BUSY 1 (R246). -/
theorem status_run {w : Word} (m : Nat) (hi : decodeCmd w = some i) :
    ({ s with seq := .run w m } : State).status =
      statusWord true s.done (s.viewIn i (passedWrites s.draws m)).err s.haz
        (s.viewIn i (passedWrites s.draws m)).treeValid (s.viewIn i (passedWrites s.draws m)).codesValid := by
  have hlast : ({ s with seq := .run w m } : State).lastViews i = s.lastViews i := by
    rw [State.lastViews, exec_seq, State.lastViews]
  simp only [State.status, State.currentView, hi, hlast]
  rfl

/-- What holds of the flags at acceptance, of those between, and of those at the end holds of every view. -/
theorem viewIn_of {P : FlagView → Prop} (k : Nat) (hstart : P s.flagView) (hmid : ∀ u ∈ s.midViews i, P u)
    (hend : ∀ t, exec i s = .next t → CommandEnd s i t → P t.flagView) : P (s.viewIn i k) := by
  rcases viewAt_mem s.flagView (s.midViews i ++ s.lastViews i) k with h | h
  · rwa [State.viewIn, h]
  · rcases List.mem_append.1 h with h | h
    · exact hmid _ h
    · cases hexec : exec i s with
      | next t =>
        simp only [State.lastViews, hexec, List.mem_singleton] at h
        simp only [State.viewIn, State.lastViews, hexec, h]
        exact hend t hexec (exec_commandEnd hexec)
      | fault | refused => simp [State.lastViews, hexec] at h

/-- Between its flag writes no command touches ERR, and what it has cleared was set before. -/
theorem midViews_le {u : FlagView} (hu : u ∈ s.midViews i) :
    u.err = s.err ∧ (u.treeValid = true → s.treeValid = true) ∧ (u.codesValid = true → s.codesValid = true) := by
  cases i with
  | analyze | encode | decodeB | decodeS => cases hu
  | build | clear =>
    simp only [State.midViews, List.mem_cons, List.not_mem_nil, or_false] at hu
    rcases hu with rfl | rfl <;> simp [State.flagView]
  | gencodes =>
    simp only [State.midViews] at hu
    split at hu
    · obtain rfl := List.mem_singleton.1 hu
      simp [State.flagView]
    · cases hu

theorem midViews_gencodes {u : FlagView} (hu : u ∈ s.midViews .gencodes) :
    s.treeValid = true ∧ u.treeValid = s.treeValid := by
  simp only [State.midViews] at hu
  split at hu
  · next hv =>
    obtain rfl := List.mem_singleton.1 hu
    exact ⟨hv, rfl⟩
  · cases hu

theorem CommandEnd.valid_of_keeps {t : State} (h : CommandEnd s i t)
    (hi : i = .analyze ∨ i = .encode ∨ i = .decodeB ∨ i = .decodeS) :
    t.treeValid = s.treeValid ∧ t.codesValid = s.codesValid := by
  cases h with
  | failed | analyzed | transferFailed | transferred => exact ⟨rfl, rfl⟩
  | rejected | built | generated | cleared => simp at hi

theorem CommandEnd.valid_of_gencodes {t : State} (h : CommandEnd s .gencodes t) :
    t.treeValid = s.treeValid ∧ (s.treeValid = false → t.codesValid = s.codesValid) := by
  cases h with
  | failed | transferFailed | transferred => exact ⟨rfl, fun _ => rfl⟩
  | generated st hv h => exact ⟨rfl, fun hv' => by simp [hv] at hv'⟩

theorem CommandEnd.codesValid_of_discards {t : State} (h : CommandEnd s i t) (hi : i = .build ∨ i = .clear) :
    t.codesValid = false := by
  cases h with
  | rejected | built | cleared => rfl
  | failed hi' | transferFailed hi' | transferred hi' => rcases hi with rfl | rfl <;> simp at hi'
  | analyzed | generated => simp at hi

theorem CommandEnd.treeValid_of_clear {t : State} (h : CommandEnd s .clear t) : t.treeValid = false := by
  cases h with
  | cleared => rfl
  | failed hi | transferFailed hi | transferred hi => simp at hi

theorem CommandEnd.err_of_err {t : State} (h : CommandEnd s i t) (hi : i ≠ .clear) (herr : s.err = true) :
    t.err = true := by
  cases h with
  | failed | rejected | transferFailed => rfl
  | analyzed | built | generated | transferred => exact herr
  | cleared => exact absurd rfl hi

/-- In every command but GENCODES a CODES_VALID that has fallen stays down (R161, R250). -/
theorem codesValid_chain (hi : i ≠ .gencodes) :
    List.IsChain (fun u v : FlagView => u.codesValid = false → v.codesValid = false)
      (s.flagView :: (s.midViews i ++ s.lastViews i)) := by
  unfold State.lastViews
  cases i with
  | gencodes => exact absurd rfl hi
  | analyze | encode | decodeB | decodeS =>
    split
    · next t ht =>
      have hkeep := ((exec_commandEnd ht).valid_of_keeps (by simp)).2
      simp [State.midViews, State.flagView, hkeep]
    · simp [State.midViews]
    · simp [State.midViews]
  | build | clear =>
    split
    · next t ht =>
      have hfall := (exec_commandEnd ht).codesValid_of_discards (by simp)
      simp [State.midViews, State.flagView, hfall]
    · simp [State.midViews, State.flagView]
    · simp [State.midViews, State.flagView]

/-- A later read shows no CODES_VALID that an earlier one did not (R340). -/
theorem viewIn_codesValid_mono (hi : i ≠ .gencodes) {k k' : Nat} (hk : k ≤ k')
    (h : (s.viewIn i k').codesValid = true) : (s.viewIn i k).codesValid = true := by
  by_contra hf
  have := viewAt_mono (codesValid_chain hi) hk (Bool.not_eq_true _ ▸ hf)
  exact absurd (h.symm.trans this) (by simp)

/-- A run of ANALYZE, ENCODE or DECODE shows the validity flags as they stand (R246). -/
theorem viewIn_keeps (k : Nat) (hi : i = .analyze ∨ i = .encode ∨ i = .decodeB ∨ i = .decodeS) :
    (s.viewIn i k).treeValid = s.treeValid ∧ (s.viewIn i k).codesValid = s.codesValid := by
  refine viewIn_of (P := fun u => u.treeValid = s.treeValid ∧ u.codesValid = s.codesValid) k ⟨rfl, rfl⟩ ?_
    fun t _ h => h.valid_of_keeps hi
  rcases hi with rfl | rfl | rfl | rfl <;> exact fun u hu => by cases hu

/-- A run of GENCODES shows TREE_VALID as it stands, and without a tree CODES_VALID too (R181). -/
theorem viewIn_gencodes (k : Nat) : (s.viewIn .gencodes k).treeValid = s.treeValid ∧
    (s.treeValid = false → (s.viewIn .gencodes k).codesValid = s.codesValid) := by
  refine viewIn_of (P := fun u => u.treeValid = s.treeValid ∧ (s.treeValid = false → u.codesValid = s.codesValid)) k
    ⟨rfl, fun _ => rfl⟩ (fun u hu => ?_) fun t _ h => h.valid_of_gencodes
  obtain ⟨hv, hu⟩ := midViews_gencodes hu
  exact ⟨hu, fun hf => by simp [hv] at hf⟩

/-- A run of BUILD shows a tree only where one was or one comes, and codes only where they were (R161). -/
theorem viewIn_build (k : Nat) :
    ((s.viewIn .build k).treeValid = true →
      s.treeValid = true ∨ ∃ u, exec .build s = .next u ∧ u.treeValid = true) ∧
    ((s.viewIn .build k).codesValid = true → s.codesValid = true) := by
  refine viewIn_of (P := fun u =>
    (u.treeValid = true → s.treeValid = true ∨ ∃ u, exec .build s = .next u ∧ u.treeValid = true) ∧
      (u.codesValid = true → s.codesValid = true)) k ⟨.inl, id⟩ (fun u hu => ?_) fun t ht h => ?_
  · obtain ⟨-, htree, hcodes⟩ := midViews_le hu
    exact ⟨fun h => .inl (htree h), hcodes⟩
  · refine ⟨fun hv => .inr ⟨t, ht, hv⟩, fun hv => ?_⟩
    exact absurd (hv.symm.trans (h.codesValid_of_discards (.inl rfl))) (by simp)

/-- A run of CLEAR shows a validity flag only where it was set (R250). -/
theorem viewIn_clear (k : Nat) : ((s.viewIn .clear k).treeValid = true → s.treeValid = true) ∧
    ((s.viewIn .clear k).codesValid = true → s.codesValid = true) := by
  refine viewIn_of (P := fun u => (u.treeValid = true → s.treeValid = true) ∧
    (u.codesValid = true → s.codesValid = true)) k ⟨id, id⟩ (fun u hu => (midViews_le hu).2) fun t _ h => ?_
  exact ⟨fun hv => absurd (hv.symm.trans h.treeValid_of_clear) (by simp),
    fun hv => absurd (hv.symm.trans (h.codesValid_of_discards (.inr rfl))) (by simp)⟩

/-- ERR stays up in every run but CLEAR's (R300). -/
theorem viewIn_err_of_err (k : Nat) (hi : i ≠ .clear) (herr : s.err = true) : (s.viewIn i k).err = true :=
  viewIn_of (P := fun u => u.err = true) k herr (fun _ hu => (midViews_le hu).1.trans herr)
    fun _ _ h => h.err_of_err hi herr

/-- A run shows ERR only where it was set or the command fails (R290). -/
theorem err_of_viewIn (k : Nat) :
    (s.viewIn i k).err = true → s.err = true ∨ ∃ u, exec i s = .next u ∧ u.err = true :=
  viewIn_of (P := fun u => u.err = true → s.err = true ∨ ∃ u, exec i s = .next u ∧ u.err = true) k .inl
    (fun _ hu he => .inl ((midViews_le hu).1.symm.trans he)) fun t ht _ he => .inr ⟨t, ht, he⟩

end Views

/-- A STATUS read in a run polls it (R246). -/
theorem serve_status_of_run {s : State} {w : Word} {n : Nat} (x : Word) (hseq : s.seq = .run w n) :
    s.serve { write := false, addr := 0x008, wdata := x } = s.poll w n := by
  simp [State.serve, hseq, State.serveBusy, BusRequest.readsStatus, Loc.addr]

/-- Settles O22: both words read are STATUS words of views of the run, the second no earlier than the first. -/
theorem statusReadWhileBusy : Obligations.StatusReadWhileBusy := by
  intro s w x n i hseq hi
  have hnext : ((s.poll w n).serve { write := false, addr := 0x008, wdata := x }).rsp =
      some { rdata := ({ s with seq := .run w (n + 2) } : State).status, err := false } := by
    rw [serve_status_of_run x (s.poll_seq w n), State.poll_rsp]
    congr 2
    exact status_rsp { s with seq := .run w (n + 2) } _
  have hout : (s.poll w n).status = ({ s with seq := .run w (n + 1) } : State).status :=
    status_rsp { s with seq := .run w (n + 1) } _
  refine ⟨_, _, s.poll w n, serve_status_of_run x hseq, rfl, hnext, ?_⟩
  simp only [State.busyOut, State.doneOut, State.errOut, hout, and_true]
  rw [status_run (n + 1) hi, status_run (n + 2) hi]
  have hle := passedWrites_mono s.draws (Nat.le_succ (n + 1))
  generalize passedWrites s.draws (n + 1) = k at *
  generalize passedWrites s.draws (n + 2) = k' at *
  obtain ⟨hbusy, hdone, herr, hhaz, htree, hcodes⟩ := getLsbD_statusWord true s.done (s.viewIn i k).err s.haz
    (s.viewIn i k).treeValid (s.viewIn i k).codesValid
  obtain ⟨-, -, -, -, -, hcodes'⟩ := getLsbD_statusWord true s.done (s.viewIn i k').err s.haz
    (s.viewIn i k').treeValid (s.viewIn i k').codesValid
  simp only [hbusy, hdone, herr, hhaz, htree, hcodes, hcodes', true_and]
  refine ⟨fun b hb => getLsbD_statusWord_reserved _ _ _ _ _ _ hb, viewIn_keeps k, ?_, ?_, ?_, viewIn_err_of_err k,
    err_of_viewIn k, fun hg => viewIn_codesValid_mono hg hle⟩
  · rintro rfl; exact viewIn_gencodes k
  · rintro rfl; exact viewIn_build k
  · rintro rfl; exact viewIn_clear k

end Sys2Proof.Machine

/-! ## Requests of the host while no command runs (spec/20_memory.md R72 to R78, R86, spec/30_encoding.md R112) -/

namespace Sys2Proof.Machine

/-! ### The address map -/

/-- The rows of the map (R78): a location and the byte address at which it stands. -/
inductive MapRow (c : Config) (n : Nat) : Loc → Prop
  | register {l : Loc} (k : Nat) (hl : regAt k = some l) (hn : n = 4 * k) : MapRow c n l
  | symtab (i : Nat) (hi : i < 256) (hn : n = 0x400 + 4 * i) : MapRow c n (.symtab i)
  | freqtab (i : Nat) (hi : i < 256) (hn : n = 0x800 + 4 * i) : MapRow c n (.freqtab i)
  | node (k w : Nat) (hk : k < 511) (hw : w < 4) (hn : n = 0x2000 + 16 * k + 4 * w) : MapRow c n (.node k w)
  | code (s w : Nat) (hs : s < 256) (hw : w < 16) (hn : n = 0x4000 + 64 * s + 4 * w) : MapRow c n (.code s w)
  | ibuf (i : Nat) (hi : i < c.ibufBytes) (hn : n = 0x1000000 + 4 * i) (hlt : n < 0x8000000) : MapRow c n (.ibuf i)
  | obuf (j : Nat) (hj : j < c.obufBytes) (hn : n = 0x8000000 + 4 * j) : MapRow c n (.obuf j)

/-- Everything `locate` can answer. -/
theorem mapRow_of_locate {c : Config} {a : Addr} {l : Loc} (h : locate c a = some l) : MapRow c a.toNat l := by
  unfold locate at h
  generalize a.toNat = n at h
  dsimp only at h
  simp only [ite_eq_iff, reduceCtorEq, and_false, false_or, or_false, Option.some.injEq] at h
  obtain ⟨halign, h⟩ := h
  rcases h with ⟨-, h⟩ | ⟨_, ⟨_, rfl⟩ | ⟨_, ⟨_, rfl⟩ | ⟨_, _, ⟨_, rfl⟩ | ⟨_, _, ⟨_, rfl⟩ |
    ⟨_, _, ⟨hlt, hi, rfl⟩ | ⟨_, hj, rfl⟩⟩⟩⟩⟩⟩
  · exact .register (n / 4) h (by omega)
  · exact .symtab _ (by omega) (by omega)
  · exact .freqtab _ (by omega) (by omega)
  · exact .node _ _ (by omega) (by omega) (by omega)
  · exact .code _ _ (by omega) (by omega) (by omega)
  · exact .ibuf _ hi (by omega) hlt
  · exact .obuf _ hj (by omega)

/-- The registers stand in the words 0 to 13, and the host may write five of them (R74, R78). -/
theorem regAt_eq_some {k : Nat} {l : Loc} (h : regAt k = some l) :
    k < 14 ∧ l.addr = BitVec.ofNat 28 (4 * k) ∧ (l.writable = true → k = 1 ∨ k = 5 ∨ k = 6 ∨ k = 7 ∨ k = 9) := by
  unfold regAt at h
  split at h
  case h_15 => cases h
  all_goals
    injection h with h
    subst h
    exact ⟨by decide, rfl, by decide⟩

theorem MapRow.addr_eq {c : Config} {n : Nat} {l : Loc} (h : MapRow c n l) : l.addr = BitVec.ofNat 28 n := by
  cases h with
  | register k hl hn => exact hn ▸ (regAt_eq_some hl).2.1
  | symtab _ _ hn | freqtab _ _ hn | node _ _ _ _ hn | code _ _ _ _ hn | ibuf _ _ hn | obuf _ _ hn =>
    rw [hn, Loc.addr]

/-- No two addresses name the same location. -/
theorem addr_of_locate {c : Config} {a : Addr} {l : Loc} (h : locate c a = some l) : l.addr = a := by
  simpa using (mapRow_of_locate h).addr_eq

/-- The addresses at which the map has nothing (R75, R76, R78). -/
theorem locate_eq_none {c : Config} {a : Addr}
    (h : a.toNat % 4 ≠ 0 ∨
      (0x38 ≤ a.toNat ∧ a.toNat < 0x400) ∨ (0xC00 ≤ a.toNat ∧ a.toNat < 0x2000) ∨
      (0x3FF0 ≤ a.toNat ∧ a.toNat < 0x4000) ∨ (0x8000 ≤ a.toNat ∧ a.toNat < 0x1000000) ∨
      (0x1000000 + 4 * c.ibufBytes ≤ a.toNat ∧ a.toNat < 0x8000000) ∨
      0x8000000 + 4 * c.obufBytes ≤ a.toNat) : locate c a = none := by
  rw [Option.eq_none_iff_forall_ne_some]
  intro l hl
  cases mapRow_of_locate hl with
  | register k hk hn =>
    have := (regAt_eq_some hk).1
    omega
  | symtab | freqtab | node | code | ibuf | obuf => omega

/-- The addresses of the read-only locations (R74, R78). -/
theorem not_writable_of_locate {c : Config} {a : Addr} {l : Loc} (hl : locate c a = some l)
    (h : a ∈ ([0x000, 0x008, 0x00C, 0x010, 0x020, 0x028, 0x02C, 0x030, 0x034] : List Addr) ∨
      (0x2000 ≤ a.toNat ∧ a.toNat < 0x8000) ∨ 0x8000000 ≤ a.toNat) : l.writable = false := by
  rw [← Bool.not_eq_true]
  intro hw
  simp only [List.mem_cons, List.not_mem_nil, or_false, BitVec.toNat_eq, BitVec.ofNat_eq_ofNat,
    BitVec.toNat_ofNat, Nat.reducePow, Nat.reduceMod] at h
  cases mapRow_of_locate hl with
  | register k hk hn =>
    obtain ⟨-, -, hkeep⟩ := regAt_eq_some hk
    have := hkeep hw
    omega
  | symtab | freqtab | ibuf => omega
  | node | code | obuf => cases hw

/-! ### Refused requests and reads -/

theorem serve_idle {s : State} (hseq : s.seq = .idle) (r : BusRequest) : s.serve r = s.serveIdle r := by
  simp [State.serve, hseq]

theorem serve_unmapped {s : State} {r : BusRequest} (hseq : s.seq = .idle) (h : locate s.config r.addr = none) :
    s.serve r = s.refuse := by
  simp [serve_idle hseq, State.serveIdle, h]

theorem writeLoc_eq_none {l : Loc} (h : l.writable = false) (s : State) (v : Word) : s.writeLoc v l = none := by
  by_contra hne
  obtain ⟨t, ht⟩ := Option.ne_none_iff_exists'.1 hne
  exact absurd ((writeLoc_cases ht).1.symm.trans h) (by simp)

/-- A write to a read-only location is refused (R74). -/
theorem serve_readOnly {s : State} {r : BusRequest} {l : Loc} (hseq : s.seq = .idle) (hw : r.write = true)
    (hl : locate s.config r.addr = some l) (h : l.writable = false) : s.serve r = s.refuse := by
  have hcmd : l ≠ .cmd := by rintro rfl; cases h
  simp [serve_idle hseq, State.serveIdle, hl, hw, writeLoc_eq_none h]

/-- Settles O16: the first seven ranges name no location, and the others only read-only ones. -/
theorem refusedAccessChangesNothing : Obligations.RefusedAccessChangesNothing := by
  intro s r hseq h
  simp only [← or_assoc] at h
  rcases h with h | ⟨hw, h⟩
  · exact serve_unmapped hseq (locate_eq_none (by simpa only [or_assoc] using h))
  · cases hl : locate s.config r.addr with
    | none => exact serve_unmapped hseq hl
    | some l => exact serve_readOnly hseq hw hl (not_writable_of_locate hl (by simpa only [or_assoc] using h))

/-- Settles O17: a read is answered or refused. -/
theorem readChangesOnlyTheResponse : Obligations.ReadChangesOnlyTheResponse := by
  intro s r hseq hr
  rw [serve_idle hseq]
  rcases serveIdle_cases s r with h | ⟨l, -, ⟨-, h⟩ | ⟨hw, -⟩ | ⟨hw, -⟩⟩
  · rw [h]; rfl
  · rw [h]; rfl
  all_goals exact absurd (hw.symm.trans hr) (by simp)

/-! ### Writes -/

/-- A location the host may write takes every word (R73, R77). -/
theorem exists_writeLoc {l : Loc} (h : l.writable = true) (s : State) (v : Word) : ∃ t, s.writeLoc v l = some t := by
  cases l with
  | cmd | inLen | bitCount | symCount | nSym | symtab | freqtab | ibuf => exact ⟨_, rfl⟩
  | _ => cases h

/-- A served write starts no command and changes neither the configuration nor the STATUS word (R73). -/
theorem respondWrite_frame {s t : State} {v : Word} {l : Loc} (hseq : s.seq = .idle) (h : s.writeLoc v l = some t) :
    t.respondWrite.seq = .idle ∧ t.respondWrite.config = s.config ∧ t.respondWrite.status = s.status := by
  rcases (writeLoc_cases h).2 with rfl | rfl | rfl | rfl | rfl | ⟨i, -, rfl⟩ | ⟨i, -, rfl⟩ | ⟨i, -, rfl⟩ <;>
    exact ⟨hseq, rfl, by rw [status_idle hseq, status_idle (by exact hseq)]; rfl⟩

/-- What each location reads as after a write (R73, R77). -/
theorem readLoc_respondWrite {s t : State} {v : Word} {l : Loc} (hseq : s.seq = .idle) (hl : l ≠ .cmd)
    (h : s.writeLoc v l = some t) (m : Loc) :
    t.respondWrite.readLoc m = if m = l then l.keep v else s.readLoc m := by
  have hstatus := (respondWrite_frame hseq h).2.2
  cases l with
  | cmd => exact absurd rfl hl
  | inLen | bitCount | symCount | nSym =>
    injection h with h
    subst h
    cases m <;> simp [State.readLoc, Loc.keep, hstatus]
  | symtab | freqtab | ibuf =>
    injection h with h
    subst h
    cases m <;> simp [State.readLoc, Loc.keep, hstatus, Memory.byte_setByte, Memory.word_setWord,
      apply_ite (BitVec.setWidth 32)]
  | _ => cases h

/-- A write to a location that stores it is answered with `rsp_err = 0` (R73). -/
theorem serve_write {s t : State} {a : Addr} {v : Word} {l : Loc} (hseq : s.seq = .idle)
    (hl : locate s.config a = some l) (hcmd : l ≠ .cmd) (ht : s.writeLoc v l = some t) :
    s.serve { write := true, addr := a, wdata := v } = t.respondWrite := by
  simp [serve_idle hseq, State.serveIdle, hl, ht]

/-- Settles O15: the write is served by a store, and no other address names its location. -/
theorem hostWriteThenRead : Obligations.HostWriteThenRead := by
  intro s a v l hseq hl hwritable hcmd
  obtain ⟨t, ht⟩ := exists_writeLoc hwritable s v
  obtain ⟨htseq, hconfig, -⟩ := respondWrite_frame hseq ht
  have hread := readLoc_respondWrite hseq hcmd ht
  rw [serve_write hseq hl hcmd ht]
  refine ⟨⟨_, rfl⟩, fun x => ?same, fun b x hb => ?other⟩
  case same => rw [serve_read x htseq (by rwa [hconfig]), hread, if_pos rfl]; rfl
  case other =>
    cases hm : locate s.config b with
    | none => rw [serve_unmapped htseq (by rwa [hconfig]), serve_unmapped hseq hm]; rfl
    | some m =>
      have hml : m ≠ l := by
        rintro rfl
        exact hb ((addr_of_locate hm).symm.trans (addr_of_locate hl))
      rw [serve_read x htseq (by rwa [hconfig]), serve_read x hseq hm, hread, if_neg hml]
      rfl

/-! ### The window of CODE -/

/-- The bits of the words 1 to 8 of a CODE entry, the digits and one 0 below them (R112). -/
theorem CodeEntry.getLsbD_window (c : CodeEntry) {w b : Nat} (hw : 1 ≤ w) (hw' : w ≤ 8) (hb : b < 32) :
    (c.window w).getLsbD b = (c.dig ++ (0 : BitVec 1)).getLsbD (32 * (8 - w) + b) := by
  rw [CodeEntry.window, if_neg (by omega), if_pos hw', BitVec.getLsbD_extractLsb', decide_eq_true hb, Bool.true_and]

/-- The place of a digit in the window (R112). -/
theorem CodeEntry.window_digit (c : CodeEntry) {i : Nat} (hi : i < 255) :
    (c.window (1 + i / 32)).getLsbD (31 - i % 32) = c.digit i := by
  have hpos : 32 * (8 - (1 + i / 32)) + (31 - i % 32) = 255 - i := by omega
  rw [c.getLsbD_window (by omega) (by omega) (by omega), hpos,
    BitVec.getLsbD_append, if_neg (by omega), CodeEntry.digit, BitVec.getMsbD, decide_eq_true hi, Bool.true_and]
  congr 1
  omega

/-- Settles O14: a read answers with the window word, whose digits stand as `CodeEntry.window_digit` says. -/
theorem codeWindowBits : Obligations.CodeWindowBits := by
  intro s c w x hseq hc hw
  have hl : locate s.config (Loc.code c w).addr = some (.code c w) :=
    locate_addr_of_lt (by simp only [Loc.mapped, Bool.and_eq_true, decide_eq_true_eq]; omega)
      (by simp only [Loc.addr, BitVec.toNat_ofNat]; omega)
  refine ⟨(s.code.code c).window w, serve_read x hseq hl, ?len, ?digits, ?low, ?zero⟩
  case len => rintro rfl; rfl
  case digits => rintro i hi rfl; exact CodeEntry.window_digit _ hi
  case low => rintro rfl; rw [CodeEntry.getLsbD_window _ (by omega) (by omega) (by omega), BitVec.getLsbD_append]; rfl
  case zero => intro h9; rw [CodeEntry.window, if_neg (by omega), if_neg (by omega)]

end Sys2Proof.Machine

/-! ## The command map and the window of NODE (spec/30_encoding.md R104, R107, R110) -/

namespace Sys2Proof.Machine

/-! ### The decoder and the encoder -/

/-- The word of a command decodes to the command (R104, R107). -/
@[simp] theorem decodeCmd_encodeCmd (i : Instr) : decodeCmd (encodeCmd i) = some i := by
  rw [decodeCmd_eq_some_iff, decodeWord, encodeCmd, fieldsOf_wordOf]
  cases i <;> rfl

/-- Decoder and encoder are each other's inverse (R104, R107). -/
theorem decodeCmd_eq_some_iff_eq_encodeCmd {w : Word} {i : Instr} : decodeCmd w = some i ↔ w = encodeCmd i :=
  ⟨eq_encodeCmd_of_decodeCmd, fun h => h ▸ decodeCmd_encodeCmd i⟩

/-- ILLEGAL is every word that is no command's (R106). -/
theorem decodeCmd_eq_none_iff {w : Word} : decodeCmd w = none ↔ ∀ i, w ≠ encodeCmd i := by
  simp only [Option.eq_none_iff_forall_ne_some, ne_eq, decodeCmd_eq_some_iff_eq_encodeCmd]

/-- The fields of a command's word are the command's (R101, R104). -/
theorem fieldsOf_encodeCmd (i : Instr) : fieldsOf (encodeCmd i) = i.fields := fieldsOf_wordOf _

/-- A word with a reserved bit set is ILLEGAL (R101, R106). -/
theorem decodeCmd_of_reserved {w : Word} (h : w.extractLsb' 9 23 ≠ 0) : decodeCmd w = none := by
  refine decodeCmd_eq_none_iff.2 fun i hw => h ?_
  have hrsv : i.fields.rsv = 0 := by cases i <;> rfl
  rw [hw, ← hrsv, ← fieldsOf_encodeCmd]
  rfl

/-- A word with MODE 1 is ILLEGAL unless its OPC is that of DECODE (R101, R106). -/
theorem decodeCmd_of_mode {w : Word} (h : w.extractLsb' 8 1 = 1 ∧ w.extractLsb' 0 8 ≠ 0x05) :
    decodeCmd w = none := by
  refine decodeCmd_eq_none_iff.2 fun i hw => ?_
  have hlegal : ¬(i.fields.mode = 1 ∧ i.fields.opc ≠ 0x05) := by cases i <;> decide
  rw [← fieldsOf_encodeCmd, ← hw] at hlegal
  exact hlegal h

/-- Settles O11: each numeral is its command's word. -/
theorem commandWordsDecode : Obligations.CommandWordsDecode :=
  ⟨decodeCmd_encodeCmd .analyze, decodeCmd_encodeCmd .build, decodeCmd_encodeCmd .gencodes,
    decodeCmd_encodeCmd .encode, decodeCmd_encodeCmd .decodeB, decodeCmd_encodeCmd .decodeS,
    decodeCmd_encodeCmd .clear⟩

/-- Settles O10: a command's word passes the two checks of the fields, and the seven words of the map are all the
words of commands. -/
theorem decodeIsExactlyTheCommandMap : Obligations.DecodeIsExactlyTheCommandMap := by
  refine ⟨fun w => ?_, fun w i => decodeCmd_eq_some_iff_eq_encodeCmd⟩
  obtain ⟨analyze, build, gencodes, encode, decodeB, decodeS, clear⟩ := commandWordsDecode
  split_ifs with hrsv hmode h1 h2 h3 h4 h5 h105 h6
  · exact decodeCmd_of_reserved hrsv
  · exact decodeCmd_of_mode hmode
  · exact h1 ▸ analyze
  · exact h2 ▸ build
  · exact h3 ▸ gencodes
  · exact h4 ▸ encode
  · exact h5 ▸ decodeB
  · exact h105 ▸ decodeS
  · exact h6 ▸ clear
  · refine decodeCmd_eq_none_iff.2 fun i => ?_
    cases i with
    | analyze => exact h1
    | build => exact h2
    | gencodes => exact h3
    | encode => exact h4
    | decodeB => exact h5
    | decodeS => exact h105
    | clear => exact h6

/-! ### The window of NODE -/

/-- The bits of a word that holds two fields, 0 between and above them. -/
theorem getLsbD_two_fields {above high gap low : Nat} (x : BitVec high) (y : BitVec low) (b : Nat) :
    ((0 : BitVec above) ++ (x ++ ((0 : BitVec gap) ++ y))).getLsbD b =
      if b < low then y.getLsbD b
      else decide (gap + low ≤ b ∧ b < high + (gap + low)) && x.getLsbD (b - (gap + low)) := by
  simp only [BitVec.getLsbD_append, BitVec.ofNat_eq_ofNat, BitVec.getLsbD_zero]
  by_cases hlow : b < low
  · simp [hlow, show b < gap + low by omega, show b < high + (gap + low) by omega]
  by_cases hgap : b < gap + low
  · simp [hlow, hgap]
  by_cases hhigh : b < high + (gap + low)
  · simp [hlow, hgap, hhigh, Nat.not_lt.1 hgap]
  · simp [hlow, hhigh]

namespace NodeEntry

/-- Word 0: bits 31:0 of the frequency (R110). -/
theorem getLsbD_window_zero (e : NodeEntry) {b : Nat} (hb : b < 32) : (e.window 0).getLsbD b = e.freq.getLsbD b := by
  rw [window, BitVec.getLsbD_extractLsb', decide_eq_true hb, Bool.true_and, Nat.zero_add]

/-- Word 1: bits 39:32 of the frequency (R110). -/
theorem getLsbD_window_one (e : NodeEntry) {b : Nat} (hb : b < 32) :
    (e.window 1).getLsbD b = (decide (b ≤ 7) && e.freq.getLsbD (32 + b)) := by
  rw [window, BitVec.getLsbD_setWidth, BitVec.getLsbD_extractLsb', decide_eq_true hb, Bool.true_and]
  simp only [Nat.lt_succ_iff]

/-- Word 2: the leaf flag in bit 0, the Symbol in bits 15:8 (R110). -/
theorem getLsbD_window_two (e : NodeEntry) (b : Nat) :
    (e.window 2).getLsbD b =
      if b = 0 then e.leaf else decide (8 ≤ b ∧ b ≤ 15) && e.sym.getLsbD (b - 8) := by
  refine (getLsbD_two_fields e.sym (BitVec.ofBool e.leaf) b).trans ?_
  by_cases h : b = 0
  · simp [h]
  · simp [h, Nat.lt_succ_iff]

/-- Word 3: the left child in bits 8:0, the right child in bits 24:16 (R110). -/
theorem getLsbD_window_three (e : NodeEntry) (b : Nat) :
    (e.window 3).getLsbD b =
      if b ≤ 8 then e.left.getLsbD b else decide (16 ≤ b ∧ b ≤ 24) && e.right.getLsbD (b - 16) := by
  refine (getLsbD_two_fields e.right e.left b).trans ?_
  simp only [Nat.lt_succ_iff, Nat.reduceAdd]

end NodeEntry

/-- Settles O13: a read answers with the window word, whose bits the four lemmas above give. -/
theorem nodeWindowBits : Obligations.NodeWindowBits := by
  intro s k w x hseq hk hw
  have hl : locate s.config (Loc.node k w).addr = some (.node k w) :=
    locate_addr_of_lt (by simp only [Loc.mapped, Bool.and_eq_true, decide_eq_true_eq]; omega)
      (by simp only [Loc.addr, BitVec.toNat_ofNat]; omega)
  refine ⟨(s.node.node k).window w, serve_read x hseq hl, fun b hb => ?_⟩
  match w, hw with
  | 0, _ => exact NodeEntry.getLsbD_window_zero _ hb
  | 1, _ => exact NodeEntry.getLsbD_window_one _ hb
  | 2, _ => exact NodeEntry.getLsbD_window_two _ b
  | 3, _ => exact NodeEntry.getLsbD_window_three _ b

end Sys2Proof.Machine

/-! ## ANALYZE finds the distinct symbols and counts them (spec/40_analyze.md R131 to R133) -/

namespace Sys2Proof.Machine

/-! ### The input bytes -/

theorem mem_inputBytes {s : State} {k : Nat} {b : Byte} : b ∈ s.inputBytes k ↔ ∃ i < k, s.ibuf.byte i = b := by
  simp [State.inputBytes]

@[simp] theorem inputBytes_length (s : State) (k : Nat) : (s.inputBytes k).length = k := by
  simp [State.inputBytes]

theorem count_inputBytes_succ (s : State) (k : Nat) (b : Byte) :
    (s.inputBytes (k + 1)).count b = (s.inputBytes k).count b + if s.ibuf.byte k = b then 1 else 0 := by
  simp [State.inputBytes, List.range_succ, List.count_singleton]

/-- A symbol's occurrences, as the input indices at which it stands. -/
theorem count_inputBytes_eq_length_filter (s : State) (k : Nat) (b : Byte) :
    (s.inputBytes k).count b = ((List.range k).filter fun i => s.ibuf.byte i == b).length := by
  rw [State.inputBytes, List.count, List.countP_map, List.countP_eq_length_filter]
  rfl

/-! ### The loop -/

/-- What the loop of ANALYZE, started in `s`, has established when it has taken the first `k` input bytes (R131,
R132). -/
structure AnalyzedUpTo (s : State) (k : Nat) (st : AnalyzeLoop) : Prop where
  /-- The symbol index is the inverse of the first `n` entries of SYMTAB (R56). -/
  index : ∀ b p, (b, p) ∈ st.index ↔ p < st.n ∧ st.symtab.byte p = b
  /-- Every byte taken has an entry. -/
  found : ∀ i < k, ∃ p < st.n, st.symtab.byte p = s.ibuf.byte i
  /-- Every symbol stands in the input at some index up to which no later symbol occurs. -/
  order : ∀ p < st.n, ∃ i < k, s.ibuf.byte i = st.symtab.byte p ∧
    ∀ q, p < q → q < st.n → ∀ i' ≤ i, s.ibuf.byte i' ≠ st.symtab.byte q
  counts : ∀ p < st.n, st.freqtab.word p = BitVec.ofNat 32 ((s.inputBytes k).count (st.symtab.byte p))
  symtab_above : ∀ a, st.n ≤ a → st.symtab.byte a = s.symtab.byte a
  freqtab_above : ∀ a, st.n ≤ a → st.freqtab.word a = s.freqtab.word a

namespace AnalyzedUpTo

variable {s : State} {k : Nat} {st : AnalyzeLoop}

theorem start (s : State) : AnalyzedUpTo s 0 { symtab := s.symtab, freqtab := s.freqtab, n := 0, index := [] } where
  index := by simp
  found := by simp
  order := by simp
  counts := by simp
  symtab_above _ _ := rfl
  freqtab_above _ _ := rfl

theorem distinct (h : AnalyzedUpTo s k st) {p q : Nat} (hpq : p < q) (hq : q < st.n) :
    st.symtab.byte p ≠ st.symtab.byte q := by
  obtain ⟨i, -, hi, hlater⟩ := h.order p (hpq.trans hq)
  exact hi ▸ hlater q hpq hq i (Nat.le_refl i)

theorem eq_of_byte_eq (h : AnalyzedUpTo s k st) {p q : Nat} (hp : p < st.n) (hq : q < st.n)
    (he : st.symtab.byte p = st.symtab.byte q) : p = q := by
  rcases Nat.lt_trichotomy p q with hlt | heq | hlt
  · exact absurd he (h.distinct hlt hq)
  · exact heq
  · exact absurd he.symm (h.distinct hlt hp)

/-- The entries of SYMTAB are exactly the bytes taken. -/
theorem exists_entry_iff (h : AnalyzedUpTo s k st) (b : Byte) :
    (∃ p < st.n, st.symtab.byte p = b) ↔ ∃ i < k, s.ibuf.byte i = b := by
  constructor
  · rintro ⟨p, hp, rfl⟩
    obtain ⟨i, hi, hib, -⟩ := h.order p hp
    exact ⟨i, hi, hib⟩
  · rintro ⟨i, hi, rfl⟩
    exact h.found i hi

/-- A byte that has the entry `p` is counted there. -/
theorem count_known (h : AnalyzedUpTo s k st) {p : Nat} (hp : p < st.n) (hb : st.symtab.byte p = s.ibuf.byte k) :
    AnalyzedUpTo s (k + 1) { st with freqtab := st.freqtab.setWord p (st.freqtab.word p + 1) } where
  index := h.index
  found i hi := by
    rcases Nat.lt_succ_iff_lt_or_eq.1 hi with hi | rfl
    · exact h.found i hi
    · exact ⟨p, hp, hb⟩
  order q hq := by
    obtain ⟨i, hi, hlater⟩ := h.order q hq
    exact ⟨i, Nat.lt_succ_of_lt hi, hlater⟩
  counts q hq := by
    dsimp only at hq ⊢
    rw [Memory.word_setWord, count_inputBytes_succ, ← hb]
    by_cases hqp : q = p
    · subst hqp
      rw [if_pos rfl, if_pos rfl, h.counts q hq, BitVec.ofNat_add]
      rfl
    · have hne : st.symtab.byte p ≠ st.symtab.byte q := fun he => hqp (h.eq_of_byte_eq hp hq he).symm
      rw [if_neg hqp, if_neg hne, h.counts q hq, Nat.add_zero]
  symtab_above := h.symtab_above
  freqtab_above a ha := by
    have hap : a ≠ p := (Nat.lt_of_lt_of_le hp ha).ne'
    rw [Memory.word_setWord, if_neg hap, h.freqtab_above a ha]

/-- A byte that has no entry becomes the next one, with the count 1. -/
theorem add_new (h : AnalyzedUpTo s k st) (hnew : ∀ p < st.n, st.symtab.byte p ≠ s.ibuf.byte k) :
    AnalyzedUpTo s (k + 1)
      { symtab := st.symtab.setByte st.n (s.ibuf.byte k), freqtab := st.freqtab.setWord st.n 1, n := st.n + 1,
        index := st.index ++ [(s.ibuf.byte k, st.n)] } := by
  have hunseen : ∀ i < k, s.ibuf.byte i ≠ s.ibuf.byte k := fun i hi he => by
    obtain ⟨p, hp, hpb⟩ := h.found i hi
    exact hnew p hp (hpb.trans he)
  have hold : ∀ p < st.n, (st.symtab.setByte st.n (s.ibuf.byte k)).byte p = st.symtab.byte p := fun p hp => by
    rw [Memory.byte_setByte, if_neg hp.ne]
  constructor <;> dsimp only
  case index =>
    intro b p
    simp only [List.mem_append, h.index, List.mem_singleton, Prod.mk.injEq, Nat.lt_succ_iff_lt_or_eq]
    constructor
    · rintro (⟨hp, hb⟩ | ⟨rfl, rfl⟩)
      · exact ⟨.inl hp, (hold p hp).trans hb⟩
      · exact ⟨.inr rfl, Memory.byte_setByte_same ..⟩
    · rintro ⟨hp | rfl, hb⟩
      · exact .inl ⟨hp, (hold p hp).symm.trans hb⟩
      · exact .inr ⟨hb.symm.trans (Memory.byte_setByte_same ..), rfl⟩
  case found =>
    intro i hi
    rcases Nat.lt_succ_iff_lt_or_eq.1 hi with hi | rfl
    · obtain ⟨p, hp, hpb⟩ := h.found i hi
      exact ⟨p, Nat.lt_succ_of_lt hp, (hold p hp).trans hpb⟩
    · exact ⟨st.n, Nat.lt_succ_self _, Memory.byte_setByte_same ..⟩
  case order =>
    intro p hp
    rcases Nat.lt_succ_iff_lt_or_eq.1 hp with hp | rfl
    · obtain ⟨i, hi, hib, hlater⟩ := h.order p hp
      refine ⟨i, Nat.lt_succ_of_lt hi, hib.trans (hold p hp).symm, fun q hpq hq i' hi' => ?_⟩
      rcases Nat.lt_succ_iff_lt_or_eq.1 hq with hq | rfl
      · exact hold q hq ▸ hlater q hpq hq i' hi'
      · rw [Memory.byte_setByte_same]
        exact hunseen i' (Nat.lt_of_le_of_lt hi' hi)
    · exact ⟨k, Nat.lt_succ_self k, (Memory.byte_setByte_same ..).symm, fun q hpq hq => by omega⟩
  case counts =>
    intro p hp
    rw [count_inputBytes_succ]
    rcases Nat.lt_succ_iff_lt_or_eq.1 hp with hp | rfl
    · rw [hold p hp, Memory.word_setWord, if_neg hp.ne, if_neg (hnew p hp).symm, h.counts p hp, Nat.add_zero]
    · have hzero : (s.inputBytes k).count (s.ibuf.byte k) = 0 :=
        List.count_eq_zero.2 fun hmem => by
          obtain ⟨i, hi, he⟩ := mem_inputBytes.1 hmem
          exact hunseen i hi he
      rw [Memory.byte_setByte_same, Memory.word_setWord_same, if_pos rfl, hzero]
      rfl
  case symtab_above =>
    intro a ha
    rw [Memory.byte_setByte, if_neg (by omega), h.symtab_above a (by omega)]
  case freqtab_above =>
    intro a ha
    rw [Memory.word_setWord, if_neg (by omega), h.freqtab_above a (by omega)]

/-- The loop body takes one byte more: the symbol index tells whether it has an entry. -/
theorem analyzeByte (h : AnalyzedUpTo s k st) : AnalyzedUpTo s (k + 1) (analyzeByte (s.ibuf.byte k) st) := by
  rcases analyzeByte_cases (s.ibuf.byte k) st with ⟨p, hp, he⟩ | ⟨hnone, he⟩ <;> rw [he]
  · obtain ⟨hpn, hb⟩ := (h.index _ p).1 (mem_of_positionOf hp)
    exact h.count_known hpn hb
  · exact h.add_new fun p hp hb => (positionOf_eq_none_iff _ _).1 hnone p ((h.index _ p).2 ⟨hp, hb⟩)

theorem analyzeLoop (h : AnalyzedUpTo s k st) (rem : Nat) :
    AnalyzedUpTo s (k + rem) (analyzeLoop s.ibuf rem k st) := by
  induction rem generalizing k st with
  | zero => exact h
  | succ rem ih =>
    have htail := ih h.analyzeByte
    rwa [Nat.add_assoc, Nat.add_comm 1] at htail

/-! ### The symbols found -/

/-- The symbols found, in their order, are distinct. -/
theorem symbols_nodup (h : AnalyzedUpTo s k st) : ((List.range st.n).map st.symtab.byte).Nodup :=
  List.nodup_range.map_on fun _ hp _ hq he =>
    h.eq_of_byte_eq (List.mem_range.1 hp) (List.mem_range.1 hq) he

theorem n_le (h : AnalyzedUpTo s k st) : st.n ≤ 256 := by
  simpa using length_le_of_nodup_byte h.symbols_nodup

/-- A symbol found occurs in the input. -/
theorem count_pos (h : AnalyzedUpTo s k st) {p : Nat} (hp : p < st.n) :
    0 < (s.inputBytes k).count (st.symtab.byte p) :=
  List.count_pos_iff.2 (mem_inputBytes.2 ((h.exists_entry_iff _).1 ⟨p, hp, rfl⟩))

/-- A count does not wrap, since the input has fewer than `2 ^ 32` bytes (R132). -/
theorem toNat_word (h : AnalyzedUpTo s k st) (hk : k < 2 ^ 32) {p : Nat} (hp : p < st.n) :
    (st.freqtab.word p).toNat = (s.inputBytes k).count (st.symtab.byte p) := by
  have hle : (s.inputBytes k).count (st.symtab.byte p) ≤ k := by
    simpa using List.count_le_length (l := s.inputBytes k) (a := st.symtab.byte p)
  rw [h.counts p hp, BitVec.toNat_ofNat, Nat.mod_eq_of_lt (Nat.lt_of_le_of_lt hle hk)]

/-- The symbols found are the distinct bytes of the input, so their occurrences make up the whole input. -/
theorem sum_counts (h : AnalyzedUpTo s k st) :
    ((List.range st.n).map fun p => (s.inputBytes k).count (st.symtab.byte p)).sum = k := by
  have hperm : ((List.range st.n).map st.symtab.byte).Perm (s.inputBytes k).dedup := by
    refine (List.perm_ext_iff_of_nodup h.symbols_nodup (List.nodup_dedup _)).2 fun b => ?_
    rw [List.mem_dedup, mem_inputBytes, ← h.exists_entry_iff]
    simp
  calc ((List.range st.n).map fun p => (s.inputBytes k).count (st.symtab.byte p)).sum
      = (((List.range st.n).map st.symtab.byte).map (s.inputBytes k).count).sum := by rw [List.map_map]; rfl
    _ = ((s.inputBytes k).dedup.map (s.inputBytes k).count).sum := (hperm.map _).sum_eq
    _ = k := by rw [List.sum_map_count_dedup_eq_length, inputBytes_length]

end AnalyzedUpTo

/-! ### The command -/

/-- The tables and NSYM after ANALYZE are those of its loop over the whole input (R131). -/
theorem analyzed_analyzedUpTo (s : State) :
    ∃ st, AnalyzedUpTo s s.inLen.toNat st ∧ s.analyzed.symtab = st.symtab ∧ s.analyzed.freqtab = st.freqtab ∧
      s.analyzed.nSym.toNat = st.n := by
  have h := (AnalyzedUpTo.start s).analyzeLoop s.inLen.toNat
  rw [Nat.zero_add] at h
  have hn := h.n_le
  exact ⟨_, h, rfl, rfl, (BitVec.toNat_ofNat ..).trans (Nat.mod_eq_of_lt (by omega))⟩

/-- Settles O26: ANALYZE completes, and what its loop keeps says the rest when all of the input is taken. -/
theorem analyzeCountsTheInput : Obligations.AnalyzeCountsTheInput := by
  intro s hfits
  obtain ⟨st, h, hsymtab, hfreqtab, hnSym⟩ := analyzed_analyzedUpTo s
  have hword {p : Nat} (hp : p < st.n) := h.toNat_word s.inLen.isLt hp
  refine ⟨s.analyzed.complete, if_neg (Nat.not_lt.2 hfits), rfl, rfl, ?_⟩
  simp only [State.complete_nSym, State.complete_symtab, State.complete_freqtab, hsymtab, hfreqtab, hnSym]
  refine ⟨h.n_le, fun p q => h.distinct, h.exists_entry_iff, ?order, fun p hp => ⟨?count, ?pos⟩, ?sum, rfl, rfl⟩
  case order =>
    intro p q hpq hq
    obtain ⟨i, hi, hib, hlater⟩ := h.order p (hpq.trans hq)
    exact ⟨i, hi, hib, hlater q hpq hq⟩
  case count => rw [hword hp, count_inputBytes_eq_length_filter]
  case pos => exact hword hp ▸ h.count_pos hp
  case sum =>
    rw [List.map_congr_left fun p hp => hword (List.mem_range.1 hp), h.sum_counts]

/-- Settles O27: the loop of ANALYZE writes no entry from `n` on, and its failure writes none. -/
theorem analyzeFrame : Obligations.AnalyzeFrame := by
  intro s t hexec
  rcases execAnalyze_cases hexec with ⟨-, rfl⟩ | ⟨-, rfl⟩
  · exact ⟨rfl, fun _ _ => ⟨rfl, rfl⟩⟩
  · obtain ⟨st, h, hsymtab, hfreqtab, hnSym⟩ := analyzed_analyzedUpTo s
    refine ⟨rfl, fun a ha => ?_⟩
    simp only [State.complete_nSym, State.complete_symtab, State.complete_freqtab, hsymtab, hfreqtab, hnSym] at ha ⊢
    exact ⟨h.symtab_above a ha, h.freqtab_above a ha⟩

end Sys2Proof.Machine

/-! ## The order of the heap and its operations (spec/41_minheap.md R141, R145 to R147) -/

namespace Sys2Proof.Machine

/-- Of two different nodes one has the lower rank, so one is less exactly when the other is not (R141). -/
theorem less_iff_less_eq_false (m : Memory NodeEntry) {a b : NodeIdx} (hne : a ≠ b) :
    less m a b = true ↔ less m b a = false := by
  have hrank : rank m a ≠ rank m b := (rank_injective m).ne hne
  rw [less_iff_rank, less_eq_false_iff_rank]
  exact hrank.le_iff_lt.symm

/-- Settles O28: `less` compares ranks, which are numbers, and no two nodes have the same. -/
theorem lessIsAStrictTotalOrder : Obligations.LessIsAStrictTotalOrder := by
  intro m a b c
  refine ⟨?definition, ?irreflexive, ?transitive, less_iff_less_eq_false m⟩
  case definition => rw [less_iff, BitVec.toNat_inj]
  case irreflexive => exact (less_eq_false_iff_rank m a a).2 (Nat.le_refl _)
  case transitive =>
    simp only [less_iff_rank]
    exact Nat.lt_trans

/-- Settles O29: each parent is sifted down, the last one first, which only rearranges the nodes. -/
theorem buildFromUnorderedMakesAHeap : Obligations.BuildFromUnorderedMakesAHeap :=
  buildFromUnordered_spec

/-- Settles O30: the new node, at the end, is the only one that can be out of order, and it is sifted up. -/
theorem insertKeepsTheHeap : Obligations.InsertKeepsTheHeap :=
  fun m _ k => heapInsert_spec m k

/-- Settles O31: the top of a heap is its least node, and the last node, moved to the top, is sifted down. -/
theorem extractMinReturnsTheLeast : Obligations.ExtractMinReturnsTheLeast :=
  ⟨fun _ => rfl, fun m _ => extractMin_spec m⟩

end Sys2Proof.Machine

/-! ## BUILD in every state: its errors, its frame and its tree (spec/42_build.md R161 to R170) -/

namespace Sys2Proof.Machine

/-! ### The errors -/

theorem buildTree_of_oversized {s : State} (h : 256 < s.nSym.toNat) :
    s.buildTree = s.raise .badParameter s.nSym :=
  if_pos h

theorem buildTree_of_empty {s : State} (h : s.nSym = 0) : s.buildTree = s.raise .emptyInput 0 := by
  simp [State.buildTree, h]

theorem buildTree_of_duplicate {s : State} {q : Nat} (hle : s.nSym.toNat ≤ 256)
    (hq : firstDuplicate s.symtab s.nSym.toNat = some q) :
    s.buildTree = s.raise .duplicateSymbol ((BitVec.ofNat 32 q <<< 8) ||| (s.symtab.byte q).setWidth 32) := by
  have h0 : s.nSym ≠ 0 := fun h => by simp [h, firstDuplicate] at hq
  rw [State.buildTree, if_neg (Nat.not_lt.2 hle), if_neg h0, hq]

/-- Settles O32: the checks are made in this order, and `firstDuplicate` answers the least second position. -/
theorem buildRejects : Obligations.BuildRejects := by
  intro s
  have hexec : exec .build s = .next s.invalidate.buildTree := rfl
  refine ⟨fun hbig => ?oversized, fun hzero => ?empty, fun p q hpq hq hle heq hfirst => ?duplicate⟩
  case oversized => exact ⟨_, hexec, buildTree_of_oversized (s := s.invalidate) hbig⟩
  case empty => exact ⟨_, hexec, buildTree_of_empty (s := s.invalidate) hzero⟩
  case duplicate =>
    have hfound := (firstDuplicate_eq_some_iff s.symtab s.nSym.toNat q).2 ⟨hq, ⟨p, hpq, heq⟩, hfirst⟩
    exact ⟨_, hexec, buildTree_of_duplicate (s := s.invalidate) hle hfound⟩

/-! ### The two ends of the command -/

/-- Everything BUILD can do: one of its three errors, or its loop runs to the end (R161, R170). -/
theorem execBuild_ends {s t : State} (h : execBuild s = .next t) :
    (∃ e ∈ [ErrKind.badParameter, .emptyInput, .duplicateSymbol], ∃ info, t = s.invalidate.raise e info) ∨
      ∃ st, mergeLoop s.nSym.toNat s.leavesPlaced = .done st ∧ Built s st ∧ t = s.invalidate.merged (.done st) := by
  injection h with h
  subst h
  rcases buildTree_cases s.invalidate with ⟨-, h⟩ | ⟨-, h⟩ | ⟨-, -, q, -, h⟩ | ⟨h256, h0, hdistinct, h⟩
  · exact .inl ⟨_, by simp, _, h⟩
  · exact .inl ⟨_, by simp, _, h⟩
  · exact .inl ⟨_, by simp, _, h⟩
  · obtain ⟨st, hloop, hst⟩ := exists_built (s := s) h0 h256 hdistinct
    exact .inr ⟨st, hloop, hst, h.trans (congrArg s.invalidate.merged hloop)⟩

/-- A BUILD that leaves TREE_VALID set has completed (R161). -/
theorem built_of_treeValid {s t : State} (h : execBuild s = .next t) (hv : t.treeValid = true) :
    ∃ st, Built s st ∧ t = s.invalidate.merged (.done st) := by
  rcases execBuild_cases h with ⟨e, info, rfl⟩ | hbuilt
  · cases hv
  · exact hbuilt

theorem Built.pos {s : State} {st : BuildLoop} (h : Built s st) : 1 ≤ s.nSym.toNat := by
  have hcount := h.inv.count
  have hsingle := h.single
  omega

/-- BUILD makes a tree exactly of a table of 1 to 256 distinct symbols (R161). -/
theorem treeValid_iff_of_execBuild {s t : State} (h : execBuild s = .next t) :
    t.treeValid = true ↔ 1 ≤ s.nSym.toNat ∧ s.nSym.toNat ≤ 256 ∧
      ∀ p q, p < q → q < s.nSym.toNat → s.symtab.byte p ≠ s.symtab.byte q := by
  constructor
  · intro hv
    obtain ⟨st, hst, -⟩ := built_of_treeValid h hv
    exact ⟨hst.pos, hst.le, hst.distinct⟩
  · rintro ⟨h1, h256, hdistinct⟩
    obtain ⟨st, -, hexec⟩ := execBuild_of_distinct h1 h256 hdistinct
    injection h.symm.trans hexec with ht
    rw [ht]
    rfl

/-- Settles O36: the loop runs to its end, and the checks before it raise other errors. -/
theorem buildNeverUnderflows : Obligations.BuildNeverUnderflows := by
  intro s t hcode h
  have hother : ∀ e ∈ [ErrKind.badParameter, .emptyInput, .duplicateSymbol], e.code ≠ 0x02 := by decide
  rcases execBuild_ends h with ⟨e, he, info, rfl⟩ | ⟨st, -, -, rfl⟩
  · exact hother e he
  · exact hcode

/-! ### The tree -/

/-- Settles O35: every internal node merges the two least nodes, the least to the left. -/
theorem leftChildIsTheLesser : Obligations.LeftChildIsTheLesser := by
  intro s t h hv k hk hle
  obtain ⟨st, hst, rfl⟩ := built_of_treeValid h hv
  obtain ⟨hnodes, -⟩ := hst.inv.heap_eq hst.le hst.single
  have hpos := hst.pos
  exact (hst.inv.internal k hk (by omega)).ordered

/-- Settles O34: the frequencies in the heap keep the sum of the table, and at the end the root is alone there. -/
theorem rootFrequencyIsTheSum : Obligations.RootFrequencyIsTheSum := by
  intro s t h hv
  obtain ⟨st, hst, rfl⟩ := built_of_treeValid h hv
  obtain ⟨r, hr⟩ := List.length_eq_one_iff.1 hst.single
  have htotal := hst.inv.total
  rw [hr, List.map_singleton, List.sum_singleton] at htotal
  change (st.node.node (heapAt st.heap 0).toNat).freq.toNat = _
  rw [hr]
  exact htotal

/-! ### The frame -/

/-- The merge loop writes NODE from NNODES on, upwards (R161). -/
theorem node_mergeLoop_above {fuel : Nat} {st st' : BuildLoop} (h : mergeLoop fuel st = .done st') :
    st.nNodes ≤ st'.nNodes ∧ ∀ k, st'.nNodes ≤ k → st'.node.node k = st.node.node k := by
  induction fuel generalizing st with
  | zero =>
    injection h with h
    exact h ▸ ⟨Nat.le_refl _, fun _ _ => rfl⟩
  | succ fuel ih =>
    simp only [mergeLoop] at h
    split at h
    case isTrue =>
      injection h with h
      exact h ▸ ⟨Nat.le_refl _, fun _ _ => rfl⟩
    case isFalse =>
      split at h
      case h_1 => cases h
      case h_2 _ a h1 _ =>
        split at h
        case h_1 => cases h
        case h_2 _ b h2 _ =>
          obtain ⟨hle, hkeep⟩ := ih (st := st.merge a b h2) h
          rw [BuildLoop.merge_nNodes] at hle
          exact ⟨by omega, fun k hk => (hkeep k hk).trans (st.merge_node_old a b h2 (by omega))⟩

/-- Settles O37: each end is one update of the state, and neither the leaves nor the merges stand at NNODES or
above. -/
theorem buildFrame : Obligations.BuildFrame := by
  intro s t h
  rcases execBuild_ends h with ⟨e, -, info, rfl⟩ | ⟨st, hloop, hst, rfl⟩
  · exact ⟨rfl, fun _ => ⟨rfl, rfl, rfl, rfl⟩, fun hv => (nomatch hv)⟩
  · refine ⟨rfl, fun hv => (nomatch hv), fun _ => ⟨rfl, rfl, fun k hk => ?_⟩⟩
    obtain ⟨hnodes, -⟩ := hst.inv.heap_eq hst.le hst.single
    obtain ⟨-, habove⟩ := node_mergeLoop_above hloop
    have hpos := hst.pos
    rw [hst.nNodes_toNat] at hk
    calc st.node.node k
      _ = (placeLeaves s.symtab s.freqtab s.nSym.toNat s.node).node k := habove k (by omega)
      _ = s.node.node k := by rw [node_placeLeaves, if_neg (by omega)]

/-! ### The tree is a function of the table -/

section Unique

variable {node node' : Memory NodeEntry} {n k : Nat}

/-- The left child is the least of the nodes that had no parent yet (R165). -/
theorem MergesTwoLeast.rank_left_le (h : MergesTwoLeast node n k) {c : NodeIdx} (hc : c.toNat < k)
    (ho : Orphan node n k c) : rank node (node.node k).left ≤ rank node c := by
  by_cases hl : c = (node.node k).left
  · rw [hl]
  by_cases hr : c = (node.node k).right
  · rw [hr]
    exact ((less_iff_rank ..).1 h.ordered).le
  · exact ((less_iff_rank ..).1 (h.least c hc hl hr ho).1).le

/-- The right child is the least of the others (R165). -/
theorem MergesTwoLeast.rank_right_le (h : MergesTwoLeast node n k) {c : NodeIdx} (hc : c.toNat < k)
    (ho : Orphan node n k c) (hl : c ≠ (node.node k).left) : rank node (node.node k).right ≤ rank node c := by
  by_cases hr : c = (node.node k).right
  · rw [hr]
  · exact ((less_iff_rank ..).1 (h.least c hc hl hr ho).2).le

theorem MergesTwoLeast.right_ne_left (h : MergesTwoLeast node n k) : (node.node k).right ≠ (node.node k).left :=
  fun he => Nat.lt_irrefl _ (he ▸ (less_iff_rank ..).1 h.ordered)

/-- Two memories that agree below `k` agree on the two least nodes without a parent, so on the node that merges
them (R168). -/
theorem MergesTwoLeast.node_eq (h : MergesTwoLeast node n k) (h' : MergesTwoLeast node' n k)
    (heq : ∀ j < k, node'.node j = node.node j) : node'.node k = node.node k := by
  have hrank : ∀ c : NodeIdx, c.toNat < k → rank node' c = rank node c := fun c hc => rank_congr (heq _ hc)
  have heq' : ∀ j < k, node.node j = node'.node j := fun j hj => (heq j hj).symm
  have hleft : (node'.node k).left = (node.node k).left := by
    have hle := h.rank_left_le h'.left_lt (h'.left_orphan.congr heq')
    have hge := h'.rank_left_le h.left_lt (h.left_orphan.congr heq)
    rw [hrank _ h'.left_lt, hrank _ h.left_lt] at hge
    exact rank_injective node (Nat.le_antisymm hge hle)
  have hright : (node'.node k).right = (node.node k).right := by
    have hle := h.rank_right_le h'.right_lt (h'.right_orphan.congr heq') (hleft ▸ h'.right_ne_left)
    have hge := h'.rank_right_le h.right_lt (h.right_orphan.congr heq) (hleft ▸ h.right_ne_left)
    rw [hrank _ h'.right_lt, hrank _ h.right_lt] at hge
    exact rank_injective node (Nat.le_antisymm hge hle)
  have hfreq : (node'.node k).freq = (node.node k).freq := BitVec.eq_of_toNat_eq <| by
    rw [h'.freq, h.freq, hleft, hright, heq _ h.left_lt, heq _ h.right_lt]
  calc node'.node k
    _ = ⟨false, 0, (node'.node k).freq, (node'.node k).left, (node'.node k).right⟩ := by rw [← h'.leaf, ← h'.sym]
    _ = ⟨false, 0, (node.node k).freq, (node.node k).left, (node.node k).right⟩ := by rw [hfreq, hleft, hright]
    _ = node.node k := by rw [← h.leaf, ← h.sym]

end Unique

/-- Two merge loops over the same table make the same nodes (R168). -/
theorem MergeInv.node_eq {symtab symtab' : Memory Byte} {freqtab freqtab' : Memory Word} {n : Nat}
    {st st' : BuildLoop} (inv : MergeInv symtab freqtab n st) (inv' : MergeInv symtab' freqtab' n st')
    (htable : ∀ p < n, symtab.byte p = symtab'.byte p ∧ freqtab.word p = freqtab'.word p) (k : Nat)
    (hk : k < st.nNodes) (hk' : k < st'.nNodes) : st'.node.node k = st.node.node k := by
  induction k using Nat.strong_induction_on with
  | h k ih =>
    rcases Nat.lt_or_ge k n with hleaf | hinternal
    · obtain ⟨hsym, hfreq⟩ := htable k hleaf
      rw [inv.leaf k hleaf, inv'.leaf k hleaf, leafEntry, leafEntry, hsym, hfreq]
    · exact (inv.internal k hinternal hk).node_eq (inv'.internal k hinternal hk') fun j hj =>
        ih j hj (by omega) (by omega)

/-- Settles O38: the checks read the table only, and so does what `MergeInv` says of the nodes. -/
theorem buildDependsOnTheTableOnly : Obligations.BuildDependsOnTheTableOnly := by
  intro s s' t t' hn htable h h'
  have hvalid : t.treeValid = t'.treeValid := by
    rw [Bool.eq_iff_iff, treeValid_iff_of_execBuild h, treeValid_iff_of_execBuild h', ← hn]
    refine and_congr_right fun _ => and_congr_right fun _ => forall_congr' fun p => forall_congr' fun q =>
      forall_congr' fun hpq => forall_congr' fun hq => ?_
    rw [(htable p (by omega)).1, (htable q hq).1]
  refine ⟨hvalid, fun hv => ?_⟩
  obtain ⟨st, hst, rfl⟩ := built_of_treeValid h hv
  obtain ⟨st', hst', rfl⟩ := built_of_treeValid h' (hvalid ▸ hv)
  refine ⟨BitVec.eq_of_toNat_eq ?_, BitVec.eq_of_toNat_eq ?_, fun k hk => ?_⟩
  · rw [hst.nNodes_toNat, hst'.nNodes_toNat, hn]
  · rw [hst.root_toNat, hst'.root_toNat, hn]
  · obtain ⟨hnodes, -⟩ := hst.inv.heap_eq hst.le hst.single
    obtain ⟨hnodes', -⟩ := hst'.inv.heap_eq hst'.le hst'.single
    rw [hst.nNodes_toNat] at hk
    rw [← hn] at hnodes'
    exact (hst.inv.node_eq (hn ▸ hst'.inv) htable k (by omega) (by omega)).symm

end Sys2Proof.Machine

/-! ## GENCODES of a valid tree, the single-leaf tree too (spec/43_gencodes.md R181 to R185) -/

namespace Sys2Proof.Machine

theorem State.generated_code (s : State) (st : TraverseLoop) : (s.generated st).code = st.code := rfl

/-- With a tree GENCODES completes when its traversal does (R181). -/
theorem execGencodes_of_traversed {s : State} {st : TraverseLoop} (hv : s.treeValid = true)
    (hst : s.traversed = some st) : execGencodes s = .next (s.generated st) := by
  rw [execGencodes, if_neg (by simp [hv]), hst]
  rfl

/-- In the single-leaf tree there is nothing to traverse (R184). -/
theorem traversed_of_leaf {s : State} (hleaf : (s.node.node s.root.toNat).leaf = true) :
    s.traversed = some
      { code := noCodes.setCode (s.node.node s.root.toNat).sym.toNat (CodeEntry.ofDigits [false])
        stack := [], d := 1 } :=
  if_pos hleaf

/-- The entry of the code "0" (R46). -/
theorem CodeEntry.ofDigits_zero : CodeEntry.ofDigits [false] = { len := 1, dig := 0 } := by decide

/-- Settles O39: the traversal of a stored tree ends within its visits with the tree's table, and the command keeps
the tree. -/
theorem gencodesRecordsThePaths : Obligations.GencodesRecordsThePaths := by
  intro s T hv hT
  obtain ⟨st, hst, hcodes⟩ := traversed_of_hasTree hT
  exact ⟨s.generated st, execGencodes_of_traversed hv hst, rfl, hT, hcodes⟩

/-- Settles O40: the one entry of the table is that of the leaf's symbol. -/
theorem singleLeafGetsTheCodeZero : Obligations.SingleLeafGetsTheCodeZero := by
  intro s hv hleaf
  refine ⟨_, execGencodes_of_traversed hv (traversed_of_leaf hleaf), rfl, rfl, fun c => ?_⟩
  rw [State.generated_code, Memory.code_setCode, noCodes_code, CodeEntry.ofDigits_zero]
  exact if_congr BitVec.toNat_inj rfl rfl

end Sys2Proof.Machine

/-! ## ENCODE packs the codes of the input bytes (spec/44_encode.md R196 to R204) -/

namespace Sys2Proof.Machine

/-! ### The digits of the input -/

@[simp] theorem CodeEntry.length_digits (c : CodeEntry) : c.digits.length = c.len.toNat := by
  simp [CodeEntry.digits]

theorem codeDigits_succ (s : State) (n : Nat) :
    s.codeDigits (n + 1) = s.codeDigits n ++ (s.code.code (s.ibuf.byte n).toNat).digits := by
  simp [State.codeDigits, State.inputBytes, List.range_succ]

theorem length_codeDigits_succ (s : State) (n : Nat) :
    (s.codeDigits (n + 1)).length = (s.codeDigits n).length + (s.code.code (s.ibuf.byte n).toNat).len.toNat := by
  rw [codeDigits_succ, List.length_append, CodeEntry.length_digits]

/-- A code has 1 to 255 digits (R7, R204). -/
theorem length_codeDigits_bounds (s : State) (n : Nat)
    (hcodes : ∀ i < n, (s.code.code (s.ibuf.byte i).toNat).len ≠ 0) :
    n ≤ (s.codeDigits n).length ∧ (s.codeDigits n).length ≤ 255 * n := by
  induction n with
  | zero => exact ⟨Nat.zero_le _, Nat.le_refl _⟩
  | succ n ih =>
    obtain ⟨hge, hle⟩ := ih fun i hi => hcodes i (by omega)
    have hpos : 0 < (s.code.code (s.ibuf.byte n).toNat).len.toNat :=
      Nat.pos_of_ne_zero (BitVec.toNat_ne_iff_ne.2 (hcodes n n.lt_succ_self))
    rw [length_codeDigits_succ]
    omega

/-! ### One byte of the packed output -/

/-- `v` is byte `a` of the digits, MSB-first and padded with zeros (R81, R198). -/
def PacksByte (ds : List Bool) (a : Nat) (v : Byte) : Prop := ∀ p < 8, v.getLsbD (7 - p) = ds.getD (8 * a + p) false

/-- Bit `7 - n` is the only one of a digit moved there. -/
theorem getLsbD_ofBool_shiftLeft (b : Bool) {n p : Nat} (hn : n ≤ 7) (hp : p < 8) :
    ((BitVec.ofBool b).setWidth 8 <<< (7 - n)).getLsbD (7 - p) = (p == n && b) := by
  cases b with
  | false => simp
  | true =>
    rw [Bool.eq_iff_iff]
    simp only [BitVec.getLsbD_shiftLeft, BitVec.getLsbD_setWidth, BitVec.getLsbD_ofBool, Bool.and_eq_true,
      Bool.not_eq_true', decide_eq_true_eq, decide_eq_false_iff_not, beq_iff_eq, and_true]
    omega

section PacksByte

variable {ds : List Bool} {a : Nat} {v : Byte}

/-- Later digits do not touch a full byte. -/
theorem PacksByte.append (h : PacksByte ds a v) (hfull : 8 * a + 8 ≤ ds.length) (es : List Bool) :
    PacksByte (ds ++ es) a v := fun p hp => by
  rw [List.getD_append _ _ _ _ (by omega)]
  exact h p hp

/-- A byte behind the last digit is 0. -/
theorem packsByte_zero (h : ds.length ≤ 8 * a) : PacksByte ds a 0 := fun p _ => by
  rw [List.getD_eq_default _ _ (by omega)]
  simp

/-- The next digit goes to bit `7 - n` of the byte that holds `n` digits (R197). -/
theorem PacksByte.place (h : PacksByte ds a v) {n : Nat} (hlen : 8 * a + n = ds.length) (hn : n ≤ 7) (b : Bool) :
    PacksByte (ds ++ [b]) a (v ||| ((BitVec.ofBool b).setWidth 8 <<< (7 - n))) := fun p hp => by
  rw [BitVec.getLsbD_or, h p hp, getLsbD_ofBool_shiftLeft b hn hp]
  rcases Nat.lt_trichotomy p n with hlt | rfl | hgt
  · rw [List.getD_append _ _ _ _ (by omega)]
    simp [hlt.ne]
  · rw [List.getD_eq_default _ _ (by omega), hlen, List.getD_append_right _ _ _ _ (Nat.le_refl _)]
    simp
  · rw [List.getD_eq_default _ _ (by omega),
      List.getD_eq_default _ _ (by rw [List.length_append, List.length_singleton]; omega)]
    simp [hgt.ne']

end PacksByte

/-! ### What the loops have packed -/

/-- What the loops of ENCODE have done when they have placed these digits (R196, R197): the full bytes stand in OBUF,
the digits of the partial one in ACC. -/
structure PackedDigits (ds : List Bool) (st : PackLoop) : Prop where
  total : st.total = ds.length
  position : 8 * st.j + st.nb = ds.length
  nb_le : st.nb ≤ 7
  full : ∀ a < st.j, PacksByte ds a (st.obuf.byte a)
  pending : PacksByte ds st.j st.acc

namespace PackedDigits

variable {ds : List Bool} {st : PackLoop}

theorem start (s : State) : PackedDigits [] s.packStart where
  total := rfl
  position := rfl
  nb_le := Nat.zero_le _
  full _ ha := absurd ha (Nat.not_lt_zero _)
  pending := packsByte_zero (Nat.le_refl _)

/-- Placing a digit keeps the form: a byte that it fills is written out, and ACC starts anew (R197). -/
theorem packDigit (h : PackedDigits ds st) (b : Bool) : PackedDigits (ds ++ [b]) (packDigit b st) := by
  obtain ⟨htotal, hposition, hnb, hfull, hpending⟩ := h
  obtain ⟨hposition', hnb'⟩ := packDigit_position b hnb
  have hlen : (ds ++ [b]).length = ds.length + 1 := List.length_append
  have hkept (a : Nat) (ha : a < st.j) := (hfull a ha).append (by omega) [b]
  have hplaced := hpending.place hposition hnb b
  obtain ⟨hfull', hpending'⟩ :
      (∀ a < (Machine.packDigit b st).j, PacksByte (ds ++ [b]) a ((Machine.packDigit b st).obuf.byte a)) ∧
      PacksByte (ds ++ [b]) (Machine.packDigit b st).j (Machine.packDigit b st).acc := by
    unfold Machine.packDigit
    dsimp only
    split
    · refine ⟨fun a ha => ?_, packsByte_zero (by dsimp only; omega)⟩
      rw [Memory.byte_setByte]
      split
      · next ha' => exact ha' ▸ hplaced
      · exact hkept a (by dsimp only at ha; omega)
    · exact ⟨hkept, hplaced⟩
  exact ⟨by rw [packDigit_total, htotal, hlen], by omega, hnb', hfull', hpending'⟩

/-- The inner loop places the rest of a code's digits. -/
theorem packCode (h : PackedDigits ds st) (c : CodeEntry) (rem : Nat) :
    PackedDigits (ds ++ (List.range' st.d rem).map c.digit) (packCode c rem st) := by
  induction rem generalizing ds st with
  | zero => simpa [Machine.packCode] using h
  | succ rem ih => simpa [Machine.packCode, List.range'_succ] using ih (h.packDigit (c.digit st.d))

/-- The outer loop's body places a code, whatever the digit index was before. -/
theorem packEntry (h : PackedDigits ds st) (c : CodeEntry) (i : Nat) :
    PackedDigits (ds ++ c.digits) { Machine.packCode c c.len.toNat { st with d := 0 } with i } := by
  obtain ⟨htotal, hposition, hnb, hfull, hpending⟩ := h
  have hstart : PackedDigits ds { st with d := 0 } := ⟨htotal, hposition, hnb, hfull, hpending⟩
  obtain ⟨htotal, hposition, hnb, hfull, hpending⟩ := hstart.packCode c c.len.toNat
  rw [CodeEntry.digits, List.range_eq_range']
  exact ⟨htotal, hposition, hnb, hfull, hpending⟩

end PackedDigits

/-- When the first `n` input bytes have codes that fit in OBUF, the outer loop of ENCODE gets past them with their
digits packed (R196). -/
theorem exists_packLoop_past (s : State) (n : Nat)
    (hcodes : ∀ i < n, (s.code.code (s.ibuf.byte i).toNat).len ≠ 0)
    (hfits : (s.codeDigits n).length ≤ 8 * s.config.obufBytes) :
    ∃ st, PackedDigits (s.codeDigits n) st ∧ st.i = n ∧ ∀ rem,
      packLoop s.config.obufBytes s.ibuf s.code (n + rem) s.packStart =
        packLoop s.config.obufBytes s.ibuf s.code rem st := by
  induction n with
  | zero => exact ⟨s.packStart, .start s, rfl, fun rem => by rw [Nat.zero_add]⟩
  | succ n ih =>
    have hlen := length_codeDigits_succ s n
    obtain ⟨st, hst, rfl, hloop⟩ := ih (fun i hi => hcodes i (by omega)) (by omega)
    refine ⟨_, codeDigits_succ s st.i ▸ hst.packEntry _ (st.i + 1), rfl, fun rem => ?_⟩
    rw [Nat.add_right_comm, Nat.add_assoc, hloop, packLoop, if_neg (hcodes st.i (by omega)),
      if_neg (by rw [hst.total]; omega)]
    simp only [packCode_i]

/-! ### The last byte -/

/-- `m` holds the digits from byte 0 on, the last byte padded with zeros, and `j` is their number in bytes
(R198). -/
structure PaddedOutput (ds : List Bool) (m : Memory Byte) (j : Nat) : Prop where
  size : j = (ds.length + 7) / 8
  bytes : ∀ a < j, PacksByte ds a (m.byte a)

@[simp] theorem flushAcc_total (st : PackLoop) : (flushAcc st).total = st.total := by
  unfold flushAcc
  split <;> rfl

theorem PackedDigits.flushAcc {ds : List Bool} {st : PackLoop} (h : PackedDigits ds st) :
    PaddedOutput ds (flushAcc st).obuf (flushAcc st).j := by
  obtain ⟨-, hposition, hnb, hfull, hpending⟩ := h
  unfold Machine.flushAcc
  split
  · refine ⟨by dsimp only; omega, fun a ha => ?_⟩
    rw [Memory.byte_setByte]
    split
    · next ha' => exact ha' ▸ hpending
    · exact hfull a (by dsimp only at ha; omega)
  · exact ⟨by omega, hfull⟩

section Output

variable {ds : List Bool} {t : State} {j : Nat}

/-- Bit `b` of the output is digit `b`, and 0 behind the last digit. -/
theorem PaddedOutput.outbit (h : PaddedOutput ds t.obuf j) {b : Nat} (hb : b < 8 * j) :
    t.outbit b = ds.getD b false := by
  rw [State.outbit, h.bytes (b / 8) (by omega) (b % 8) (by omega), Nat.div_add_mod]

theorem PaddedOutput.map_outbit (h : PaddedOutput ds t.obuf j) : (List.range ds.length).map t.outbit = ds := by
  have hsize := h.size
  refine List.ext_getElem (by simp) fun b hb hb' => ?_
  rw [List.getElem_map, List.getElem_range, h.outbit (by omega), List.getD_eq_getElem]

theorem PaddedOutput.outbit_pad (h : PaddedOutput ds t.obuf j) {b : Nat} (hle : ds.length ≤ b) (hb : b < 8 * j) :
    t.outbit b = false := by
  rw [h.outbit hb, List.getD_eq_default _ _ hle]

end Output

/-! ### The command -/

/-- With a code table, and an input that fits in IBUF, ENCODE is its loops and their end (R196, R298). -/
theorem execEncode_of_ready {s : State} (hv : s.codesValid = true) (hin : s.inLen.toNat ≤ s.config.ibufBytes) :
    exec .encode s = .next (s.packed (packLoop s.config.obufBytes s.ibuf s.code s.inLen.toNat s.packStart)) := by
  rw [exec, execEncode, if_neg (by simp [hv]), if_neg (Nat.not_lt.2 hin)]

/-- A completed ENCODE shows the number of its digits and of its bytes, neither of which wraps (R198, R204). -/
theorem PackedDigits.packed {ds : List Bool} {st : PackLoop} (h : PackedDigits ds st) (hds : ds.length < 2 ^ 32)
    (s : State) :
    (s.packed (.done st)).bitCount.toNat = ds.length ∧
      PaddedOutput ds (s.packed (.done st)).obuf (s.packed (.done st)).outLen.toNat := by
  have hout := h.flushAcc
  have hsize := hout.size
  simp only [State.packed, State.complete_bitCount, State.complete_obuf, State.complete_outLen, BitVec.toNat_ofNat,
    flushAcc_total, h.total]
  rw [Nat.mod_eq_of_lt hds, Nat.mod_eq_of_lt (by omega)]
  exact ⟨rfl, hout⟩

/-- Settles O44: the loops get past every input byte, and the last byte is written out padded. -/
theorem encodePacksTheCodes : Obligations.EncodePacksTheCodes := by
  intro s hc hv hin hcodes hfits
  simp only [State.ConfigOk, Config.wellFormed, Config.obufOk, Bool.and_eq_true, decide_eq_true_eq] at hc
  obtain ⟨st, hst, -, hloop⟩ := exists_packLoop_past s s.inLen.toNat hcodes hfits
  have hdone : packLoop s.config.obufBytes s.ibuf s.code s.inLen.toNat s.packStart = .done st := hloop 0
  obtain ⟨hbits, hout⟩ := hst.packed (by omega) s
  have hsize := hout.size
  refine ⟨s.packed (.done st), hdone ▸ execEncode_of_ready hv hin, rfl, hbits, ?_⟩
  rw [hbits]
  exact ⟨hsize, by omega, hout.map_outbit, fun b => hout.outbit_pad, length_codeDigits_bounds s _ hcodes⟩

/-- Settles O46: the loop gets past the bytes before index `i`, whose code is then too long. -/
theorem encodeReportsTheOverflow : Obligations.EncodeReportsTheOverflow := by
  intro s i _ hv hin hi hcodes hfits hover
  obtain ⟨st, hst, rfl, hloop⟩ := exists_packLoop_past s i (fun i' hi' => hcodes i' (by omega)) hfits
  obtain ⟨rem, hrem⟩ := Nat.exists_eq_add_of_lt hi
  have hlen := length_codeDigits_succ s st.i
  have hraised : packLoop s.config.obufBytes s.ibuf s.code s.inLen.toNat s.packStart =
      .raised st .outputOverflow (BitVec.ofNat 32 st.i) := by
    rw [hrem, Nat.add_assoc, hloop, packLoop, if_neg (hcodes st.i (Nat.le_refl _)),
      if_pos (by rw [hst.total]; omega)]
  refine ⟨_, execEncode_of_ready hv hin, ?_⟩
  rw [hraised]
  rfl

end Sys2Proof.Machine

/-! ## DECODE walks the codes of its input (spec/45_decode.md R216 to R229) -/

namespace Sys2Proof.Machine

/-! ### The packed bits -/

/-- The packed input has these bits from index `k` on (R82). -/
def State.ReadsAt (s : State) : Nat → List Bool → Prop
  | _, [] => True
  | k, b :: ds => s.inbit k = b ∧ s.ReadsAt (k + 1) ds

theorem State.readsAt_append {s : State} {k : Nat} {ds es : List Bool} :
    s.ReadsAt k (ds ++ es) ↔ s.ReadsAt k ds ∧ s.ReadsAt (k + ds.length) es := by
  induction ds generalizing k with
  | nil => simp [State.ReadsAt]
  | cons b ds ih => simp [State.ReadsAt, ih, and_assoc, Nat.add_assoc, Nat.add_comm 1]

theorem State.readsAt_inputBits (s : State) (n : Nat) : s.ReadsAt 0 (s.inputBits n) := by
  induction n with
  | zero => trivial
  | succ n ih =>
    have hsplit : s.inputBits (n + 1) = s.inputBits n ++ [s.inbit n] := by simp [State.inputBits, List.range_succ]
    rw [hsplit, State.readsAt_append]
    exact ⟨ih, by simp [State.ReadsAt, State.inputBits]⟩

@[simp] theorem State.length_inputBits (s : State) (n : Nat) : (s.inputBits n).length = n := by
  simp [State.inputBits]

/-! ### The bytes put out -/

/-- The buffer after these bytes are written from entry `a` on. -/
def Memory.putBytes (m : Memory Byte) : Nat → List Byte → Memory Byte
  | _, [] => m
  | a, c :: cs => (m.setByte a c).putBytes (a + 1) cs

theorem Memory.byte_putBytes (m : Memory Byte) (a i : Nat) (cs : List Byte) :
    (m.putBytes a cs).byte i = if a ≤ i ∧ i < a + cs.length then cs.getD (i - a) 0 else m.byte i := by
  induction cs generalizing m a with
  | nil => rw [Memory.putBytes, List.length_nil, if_neg (by omega)]
  | cons c cs ih =>
    rw [Memory.putBytes, ih, Memory.byte_setByte, List.length_cons]
    rcases Nat.lt_trichotomy i a with hlt | rfl | hgt
    · rw [if_neg (by omega), if_neg (by omega), if_neg (by omega)]
    · rw [if_neg (by omega), if_pos rfl, if_pos (by omega), Nat.sub_self, List.getD_cons_zero]
    · obtain ⟨n, rfl⟩ := Nat.exists_eq_add_of_lt hgt
      rw [if_neg (by omega : ¬ a + n + 1 = a), show a + n + 1 - a = n + 1 by omega, List.getD_cons_succ,
        show a + n + 1 - (a + 1) = n by omega]
      exact if_congr (by omega) rfl rfl

/-- Bytes written from the start of a buffer stand there, and the rest is as before. -/
theorem Memory.putBytes_zero (m : Memory Byte) (cs : List Byte) :
    (List.range cs.length).map (m.putBytes 0 cs).byte = cs ∧
      ∀ a, cs.length ≤ a → (m.putBytes 0 cs).byte a = m.byte a := by
  refine ⟨List.ext_getElem (by simp) fun i hi hi' => ?_, fun a ha => ?_⟩
  · rw [List.getElem_map, List.getElem_range, Memory.byte_putBytes, if_pos (by omega), Nat.sub_zero,
      List.getD_eq_getElem]
  · rw [Memory.byte_putBytes, if_neg (by omega)]

/-- The walk has put out these symbols and taken `n` bits, and stands at the node it stood at. -/
def WalkLoop.emitted (st : WalkLoop) (cs : List Byte) (n : Nat) : WalkLoop :=
  { obuf := st.obuf.putBytes st.j cs, j := st.j + cs.length, cur := st.cur, k := st.k + n }

@[simp] theorem WalkLoop.emitted_j (st : WalkLoop) (cs : List Byte) (n : Nat) :
    (st.emitted cs n).j = st.j + cs.length := rfl
@[simp] theorem WalkLoop.emitted_cur (st : WalkLoop) (cs : List Byte) (n : Nat) :
    (st.emitted cs n).cur = st.cur := rfl
@[simp] theorem WalkLoop.emitted_k (st : WalkLoop) (cs : List Byte) (n : Nat) :
    (st.emitted cs n).k = st.k + n := rfl

@[simp] theorem State.walkStart_j (s : State) : s.walkStart.j = 0 := rfl
@[simp] theorem State.walkStart_cur (s : State) : s.walkStart.cur = s.root := rfl
@[simp] theorem State.walkStart_k (s : State) : s.walkStart.k = 0 := rfl

/-! ### One bit -/

/-- The bit at `st` completes the symbol `c`: it is put out, where OBUF has room (R219). -/
structure State.Completes (s : State) (c : Byte) (st : WalkLoop) : Prop where
  emits : st.j < s.config.obufBytes →
    s.walkBit st = .done { obuf := st.obuf.setByte st.j c, j := st.j + 1, cur := s.root, k := st.k + 1 }
  overflows : s.config.obufBytes ≤ st.j → ∃ st', s.walkBit st = .raised st' .outputOverflow (BitVec.ofNat 32 st.k)

/-- The child that a bit leads to (R220). -/
def NodeEntry.child (e : NodeEntry) (bit : Bool) : NodeIdx := if bit then e.right else e.left

/-- The step to the next bit, where a bit was walked without an error (R216, R224). -/
def Ended.advance : Ended WalkLoop → Ended WalkLoop
  | .done st => .done { st with k := st.k + 1 }
  | .raised st e info => .raised st e info

section WalkBit

variable {s : State} {st : WalkLoop}

theorem walkBit_of_single (hroot : (s.node.node s.root.toNat).leaf = true) :
    s.walkBit st = (walkLeaf s.config.obufBytes (s.node.node s.root.toNat).sym (s.inbit st.k) st).advance := by
  simp only [State.walkBit, hroot, if_true]
  rfl

theorem walkBit_of_inner (hroot : (s.node.node s.root.toNat).leaf = false) :
    s.walkBit st = (walkInner s.config.obufBytes s.node s.root (s.inbit st.k) st).advance := by
  simp only [State.walkBit, hroot, Bool.false_eq_true, if_false]
  rfl

/-- In the single-leaf tree a 0 bit completes the leaf's symbol (R221). -/
theorem completes_of_single (hroot : (s.node.node s.root.toNat).leaf = true) (hcur : st.cur = s.root)
    (hbit : s.inbit st.k = false) : s.Completes (s.node.node s.root.toNat).sym st := by
  have hwalk : s.walkBit st = (emit s.config.obufBytes (s.node.node s.root.toNat).sym st).advance := by
    rw [walkBit_of_single hroot, hbit]
    rfl
  rcases emit_cases s.config.obufBytes (s.node.node s.root.toNat).sym st with ⟨hfull, he⟩ | ⟨hroom, he⟩ <;>
    rw [he] at hwalk
  · exact ⟨fun hroom => absurd hfull (Nat.not_le.2 hroom), fun _ => ⟨_, hwalk⟩⟩
  · exact ⟨fun _ => hcur ▸ hwalk, fun hfull => absurd hroom (Nat.not_lt.2 hfull)⟩

/-- In the single-leaf tree a 1 bit is corrupt (R221). -/
theorem walkBit_of_single_one (hroot : (s.node.node s.root.toNat).leaf = true) (hbit : s.inbit st.k = true) :
    s.walkBit st = .raised st .truncatedOrCorruptBitstream (BitVec.ofNat 32 st.k) := by
  rw [walkBit_of_single hroot, hbit]
  rfl

/-- Below an internal root the walk goes to a child, and a leaf completes its symbol (R220). -/
theorem walkBit_inner {cur : NodeIdx} (hroot : (s.node.node s.root.toNat).leaf = false)
    (hcur : (s.node.node st.cur.toNat).child (s.inbit st.k) = cur) :
    ((s.node.node cur.toNat).leaf = false → s.walkBit st = .done { st with cur, k := st.k + 1 }) ∧
      ((s.node.node cur.toNat).leaf = true → s.Completes (s.node.node cur.toNat).sym st) := by
  have hwalk := walkBit_of_inner (st := st) hroot
  obtain ⟨cur', hcur', hcases⟩ := walkInner_cases s.config.obufBytes s.node s.root (s.inbit st.k) st
  obtain rfl : cur' = cur := hcur'.trans hcur
  rcases hcases with ⟨hleaf, hr⟩ | ⟨hleaf, hfull, hr⟩ | ⟨hleaf, hroom, hr⟩ <;> rw [hr] at hwalk <;>
    simp only [hleaf, Bool.false_eq_true, Bool.true_eq_false, false_implies, true_implies, true_and, and_true]
  · exact hwalk
  · exact ⟨fun hroom => absurd hfull (Nat.not_le.2 hroom), fun _ => ⟨_, hwalk⟩⟩
  · exact ⟨fun _ => hwalk, fun hfull => absurd hroom (Nat.not_lt.2 hfull)⟩

end WalkBit

/-! ### Many bits -/

/-- The walk takes `n` bits from `st` to `st'`, and fewer than `lim` symbols are out before each of them. `step` is
`walkBit` of a state, so that what `walkBit` does not read of the state does not matter. -/
inductive Walks (step : WalkLoop → Ended WalkLoop) (lim : Nat) : Nat → WalkLoop → WalkLoop → Prop
  | refl (st : WalkLoop) : Walks step lim 0 st st
  | head {n : Nat} {st st1 st' : WalkLoop} (hj : st.j < lim) (hstep : step st = .done st1)
      (htail : Walks step lim n st1 st') : Walks step lim (n + 1) st st'

section Walks

variable {s : State} {lim n : Nat} {st st' st'' : WalkLoop}

theorem Walks.trans {step : WalkLoop → Ended WalkLoop} {n' : Nat} (h : Walks step lim n st st')
    (h' : Walks step lim n' st' st'') : Walks step lim (n + n') st st'' := by
  induction h with
  | refl st => rwa [Nat.zero_add]
  | head hj hstep _ ih => rw [Nat.add_right_comm]; exact .head hj hstep (ih h')

theorem Walks.mono {step : WalkLoop → Ended WalkLoop} {lim' : Nat} (h : Walks step lim n st st') (hle : lim ≤ lim') :
    Walks step lim' n st st' := by
  induction h with
  | refl st => exact .refl st
  | head hj hstep _ ih => exact .head (Nat.lt_of_lt_of_le hj hle) hstep ih

theorem Walks.single {step : WalkLoop → Ended WalkLoop} (hj : st.j < lim) (hstep : step st = .done st') :
    Walks step lim 1 st st' :=
  .head hj hstep (.refl st')

/-- The loop of DECODE.B gets past bits that are walked (R216). -/
theorem Walks.walkBits (h : Walks s.walkBit lim n st st') (rem : Nat) :
    s.walkBits (n + rem) st = s.walkBits rem st' := by
  induction h with
  | refl st => rw [Nat.zero_add]
  | head hj hstep _ ih =>
    rw [Nat.add_right_comm, State.walkBits, hstep]
    exact ih

/-- The loop of DECODE.S gets past bits that are walked before SYMCOUNT symbols are out (R224). -/
theorem Walks.walkSyms (h : Walks s.walkBit s.symCount.toNat n st st') (rem : Nat) :
    s.walkSyms (n + rem) st = s.walkSyms rem st' := by
  induction h with
  | refl st => rw [Nat.zero_add]
  | head hj hstep _ ih =>
    rw [Nat.add_right_comm, State.walkSyms, if_pos hj, hstep]
    exact ih

/-- An error of a bit ends the loop of DECODE.B. -/
theorem walkBits_of_raised {e : ErrKind} {info : Word} (h : s.walkBit st = .raised st' e info) (rem : Nat) :
    s.walkBits (rem + 1) st = .raised st' e info := by
  rw [State.walkBits, h]

/-- An error of a bit ends the loop of DECODE.S. -/
theorem walkSyms_of_raised {e : ErrKind} {info : Word} (h : s.walkBit st = .raised st' e info) (rem : Nat)
    (hj : st.j < s.symCount.toNat) : s.walkSyms (rem + 1) st = .raised st' e info := by
  rw [State.walkSyms, if_pos hj, h]

/-- DECODE.S stops when SYMCOUNT symbols are out (R224). -/
theorem walkSyms_of_enough (rem : Nat) (hj : s.symCount.toNat ≤ st.j) : s.walkSyms rem st = .done st := by
  cases rem <;> simp [State.walkSyms, Nat.not_lt.2 hj]

end Walks

/-! ### One code -/

/-- What a stored leaf says of its entry, as far as the walk reads it (R41). -/
theorem Tree.leaf_of_stored {m : Memory NodeEntry} {k : Nat} (h : (Tree.leaf k).stored m = true) :
    (m.node k).leaf = true := by
  simp only [Tree.stored, Bool.and_eq_true] at h
  obtain ⟨⟨⟨hleaf, -⟩, -⟩, -⟩ := h
  exact hleaf

/-- What a stored internal node says of its entry, as far as the walk reads it: the children stand further down (R41,
R43). -/
theorem Tree.inner_of_stored {m : Memory NodeEntry} {k : Nat} {l r : Tree} (h : (Tree.node k l r).stored m = true) :
    (m.node k).leaf = false ∧ (((m.node k).child false).toNat = l.root ∧ l.root < k ∧ l.stored m = true) ∧
      (((m.node k).child true).toNat = r.root ∧ r.root < k ∧ r.stored m = true) := by
  simp only [Tree.stored, Bool.and_eq_true, Bool.not_eq_true', beq_iff_eq, decide_eq_true_eq] at h
  obtain ⟨⟨⟨⟨⟨⟨⟨⟨hleaf, -⟩, hleft⟩, hright⟩, -⟩, hlk⟩, hrk⟩, hsl⟩, hsr⟩ := h
  exact ⟨hleaf, ⟨hleft, hlk, hsl⟩, hright, hrk, hsr⟩

section Code

variable {s : State} {c : Byte} {st : WalkLoop}

/-- The first digit of a path leads from the top of a stored tree to the child that has the rest of the path
(R182, R220). -/
theorem Tree.pathTo_cons {m : Memory NodeEntry} {t : Tree} {b : Bool} {p : List Bool} (hs : t.stored m = true)
    (hp : t.pathTo m c = some (b :: p)) :
    (m.node t.root).leaf = false ∧ ∃ t' : Tree, t'.stored m = true ∧ t'.pathTo m c = some p ∧
      ((m.node t.root).child b).toNat = t'.root ∧ t'.root < t.root := by
  cases t with
  | leaf k =>
    rw [Tree.pathTo] at hp
    split at hp <;> cases hp
  | node k l r =>
    obtain ⟨hleaf, ⟨hleft, hlk, hsl⟩, hright, hrk, hsr⟩ := Tree.inner_of_stored hs
    refine ⟨hleaf, ?_⟩
    rw [Tree.pathTo] at hp
    split at hp
    · next q hq =>
      cases hp
      exact ⟨l, hsl, hq, hleft, hlk⟩
    · split at hp
      · next q hq =>
        cases hp
        exact ⟨r, hsr, hq, hright, hrk⟩
      · cases hp

/-- A path ends at the leaf of its symbol (R182). -/
theorem Tree.pathTo_nil {m : Memory NodeEntry} {t : Tree} (hs : t.stored m = true) (hp : t.pathTo m c = some []) :
    (m.node t.root).leaf = true ∧ (m.node t.root).sym = c := by
  cases t with
  | leaf k =>
    rw [Tree.pathTo] at hp
    split at hp
    · next hc => exact ⟨Tree.leaf_of_stored hs, hc⟩
    · cases hp
  | node k l r =>
    rw [Tree.pathTo] at hp
    split at hp
    · cases hp
    · split at hp <;> cases hp

/-- Below an internal root the beginning of a path leads to a node further down, from which the last digit completes
the symbol (R220). -/
theorem walks_path {lim : Nat} (hroot : (s.node.node s.root.toNat).leaf = false) {q rest : List Bool} {b : Bool}
    {t : Tree} (hs : t.stored s.node = true) (hp : t.pathTo s.node c = some (q ++ b :: rest))
    (hcur : st.cur.toNat = t.root) (hj : st.j < lim) (hbits : s.ReadsAt st.k q) :
    ∃ cur, Walks s.walkBit lim q.length st { st with cur, k := st.k + q.length } ∧
      (q ≠ [] → cur.toNat < t.root) ∧
      (rest = [] → s.inbit (st.k + q.length) = b → s.Completes c { st with cur, k := st.k + q.length }) := by
  induction q generalizing t st with
  | nil =>
    refine ⟨st.cur, .refl st, fun h => absurd rfl h, ?_⟩
    rintro rfl hb
    obtain ⟨-, t', hs', hp', hchild, -⟩ := Tree.pathTo_cons hs hp
    obtain ⟨hleaf, hsym⟩ := Tree.pathTo_nil hs' hp'
    rw [← hcur] at hchild
    obtain ⟨-, hcompletes⟩ := walkBit_inner (st := st) hroot (congrArg _ hb)
    rw [hchild, hsym] at hcompletes
    exact hcompletes hleaf
  | cons x q ih =>
    obtain ⟨hx, hbits⟩ := hbits
    obtain ⟨-, t', hs', hp', hchild, hlt⟩ := Tree.pathTo_cons hs hp
    have hinner : (s.node.node t'.root).leaf = false := by
      cases q with
      | nil => exact (Tree.pathTo_cons hs' hp').1
      | cons y q => exact (Tree.pathTo_cons hs' hp').1
    rw [← hcur] at hchild
    obtain ⟨hdescend, -⟩ := walkBit_inner (st := st) hroot (congrArg _ hx)
    rw [hchild] at hdescend
    obtain ⟨cur, hwalks, hbelow, hcompletes⟩ :=
      ih (st := { st with cur := (s.node.node st.cur.toNat).child x, k := st.k + 1 }) hs' hp' hchild hj hbits
    have hk : st.k + (x :: q).length = st.k + 1 + q.length := by rw [List.length_cons]; omega
    rw [hk]
    refine ⟨cur, .head hj (hdescend hinner) hwalks, fun _ => ?_, hcompletes⟩
    cases q with
    | nil =>
      cases hwalks
      exact hchild ▸ hlt
    | cons y q => exact (hbelow (by simp)).trans hlt

/-- The beginning of a code leads from ROOT to another node, from which the last digit completes the symbol; in the
single-leaf tree the code is that digit (R220, R221). -/
theorem walks_code {lim : Nat} {T : Tree} (hT : s.HasTree T) {q rest : List Bool} {b : Bool}
    (hcode : T.codeOf s.node c = some (q ++ b :: rest)) (hcur : st.cur = s.root) (hj : st.j < lim)
    (hbits : s.ReadsAt st.k q) :
    ∃ cur, Walks s.walkBit lim q.length st { st with cur, k := st.k + q.length } ∧ (q ≠ [] → cur ≠ s.root) ∧
      (rest = [] → s.inbit (st.k + q.length) = b → s.Completes c { st with cur, k := st.k + q.length }) := by
  obtain ⟨hstored, hroot, -⟩ := hT
  cases T with
  | leaf k =>
    rw [Tree.root] at hroot
    have hleaf := Tree.leaf_of_stored hstored
    rw [← hroot] at hleaf
    rw [Tree.codeOf, ← hroot] at hcode
    split at hcode
    · next hsym =>
      obtain ⟨rfl, hb, rfl⟩ : q = [] ∧ b = false ∧ rest = [] := by
        cases q <;> simp_all
      exact ⟨s.root, hcur ▸ .refl st, fun h => absurd rfl h,
        fun _ hbit => hsym ▸ completes_of_single hleaf rfl (hbit.trans hb)⟩
    · cases hcode
  | node k l r =>
    have hinner : (s.node.node s.root.toNat).leaf = false := hroot ▸ (Tree.inner_of_stored hstored).1
    obtain ⟨cur, hwalks, hbelow, hcompletes⟩ := walks_path hinner hstored hcode (hcur ▸ hroot) hj hbits
    refine ⟨cur, hwalks, fun hq => ?_, hcompletes⟩
    rintro rfl
    have := hbelow hq
    omega

end Code

end Sys2Proof.Machine

/-! ## DECODE by whole codes: what it recovers and what it reports (spec/45_decode.md R216 to R226) -/

namespace Sys2Proof.Machine

/-! ### A string of codes -/

section Codes

variable {s : State} {T : Tree} {st : WalkLoop}

theorem Tree.codesOf_cons_eq_some {m : Memory NodeEntry} {c : Byte} {cs : List Byte} {ds : List Bool}
    (h : T.codesOf m (c :: cs) = some ds) :
    ∃ d es, T.codeOf m c = some d ∧ T.codesOf m cs = some es ∧ ds = d ++ es := by
  rw [Tree.codesOf] at h
  split at h
  · next d es hd hes => exact ⟨d, es, hd, hes, (Option.some.inj h).symm⟩
  · cases h

/-- The last of a string of codes. -/
theorem Tree.codesOf_concat_eq_some {m : Memory NodeEntry} {c : Byte} {cs : List Byte} {ds : List Bool}
    (h : T.codesOf m (cs ++ [c]) = some ds) :
    ∃ es d, T.codesOf m cs = some es ∧ T.codeOf m c = some d ∧ ds = es ++ d := by
  induction cs generalizing ds with
  | nil =>
    obtain ⟨d, es, hd, hes, rfl⟩ := Tree.codesOf_cons_eq_some h
    obtain rfl := Option.some.inj hes
    exact ⟨[], d, rfl, hd, by simp⟩
  | cons x cs ih =>
    obtain ⟨dx, es, hdx, hes, rfl⟩ := Tree.codesOf_cons_eq_some h
    obtain ⟨es', d, hes', hd, rfl⟩ := ih hes
    exact ⟨dx ++ es', d, by rw [Tree.codesOf, hdx, hes'], hd, by rw [List.append_assoc]⟩

/-- The walk of a code gets to its last digit, which completes the symbol (R220, R221). -/
theorem exists_walks_completes {lim : Nat} {c : Byte} {d : List Bool} (hT : s.HasTree T)
    (hcode : T.codeOf s.node c = some d) (hcur : st.cur = s.root) (hj : st.j < lim) (hbits : s.ReadsAt st.k d) :
    ∃ cur n, d.length = n + 1 ∧ Walks s.walkBit lim n st { st with cur, k := st.k + n } ∧
      s.Completes c { st with cur, k := st.k + n } := by
  obtain ⟨hpos, -⟩ := Tree.length_codeOf s.node hcode
  have hne : d ≠ [] := List.ne_nil_of_length_pos hpos
  rw [← List.dropLast_append_getLast hne] at hcode hbits ⊢
  obtain ⟨hinit, hlast, -⟩ := State.readsAt_append.1 hbits
  obtain ⟨cur, hwalks, -, hcompletes⟩ := walks_code hT hcode hcur hj hinit
  exact ⟨cur, _, by simp, hwalks, hcompletes rfl hlast⟩

/-- The walk of a string of codes puts out their symbols, where OBUF has room (R216, R223). -/
theorem walks_codes {lim : Nat} {cs : List Byte} {ds : List Bool} (hT : s.HasTree T)
    (hcodes : T.codesOf s.node cs = some ds) (hcur : st.cur = s.root) (hbits : s.ReadsAt st.k ds)
    (hroom : st.j + cs.length ≤ s.config.obufBytes) (hlim : st.j + cs.length ≤ lim) :
    Walks s.walkBit lim ds.length st (st.emitted cs ds.length) := by
  induction cs generalizing ds st with
  | nil =>
    obtain rfl := Option.some.inj hcodes
    exact .refl st
  | cons c cs ih =>
    obtain ⟨d, es, hd, hes, rfl⟩ := Tree.codesOf_cons_eq_some hcodes
    obtain ⟨hdbits, hesbits⟩ := State.readsAt_append.1 hbits
    rw [List.length_cons] at hroom hlim
    obtain ⟨cur, n, hn, hwalks, hcompletes⟩ := exists_walks_completes (lim := lim) hT hd hcur (by omega) hdbits
    have hstep := hcompletes.emits (Nat.lt_of_lt_of_le (by dsimp only; omega) hroom)
    have hlast := Walks.single (lim := lim) (by dsimp only; omega) hstep
    have htail := ih hes (st := { obuf := st.obuf.setByte st.j c, j := st.j + 1, cur := s.root, k := st.k + n + 1 }) rfl
      (by rwa [hn] at hesbits) (by dsimp only; omega) (by dsimp only; omega)
    have hall := (hwalks.trans hlast).trans htail
    have hend : WalkLoop.emitted { obuf := st.obuf.setByte st.j c, j := st.j + 1, cur := s.root, k := st.k + n + 1 }
        cs es.length = st.emitted (c :: cs) (d ++ es).length := by
      simp only [WalkLoop.emitted, Memory.putBytes, hcur, List.length_append, List.length_cons, hn,
        WalkLoop.mk.injEq, true_and]
      omega
    rw [hend, ← hn, ← List.length_append] at hall
    exact hall

/-- The same from the start of the command. -/
theorem walks_codes_from_start {lim : Nat} {cs : List Byte} {ds : List Bool} (hT : s.HasTree T)
    (hcodes : T.codesOf s.node cs = some ds) (hbits : s.ReadsAt 0 ds) (hroom : cs.length ≤ s.config.obufBytes)
    (hlim : cs.length ≤ lim) : Walks s.walkBit lim ds.length s.walkStart (s.walkStart.emitted cs ds.length) :=
  walks_codes hT hcodes rfl hbits (by simpa using hroom) (by simpa using hlim)

/-- Codes and then the beginning of one: their symbols are out, and CUR is off ROOT unless the beginning is empty. -/
theorem walks_codes_stopped {cs : List Byte} {ds rest : List Bool} (hT : s.HasTree T)
    (hcodes : T.codesOf s.node cs = some ds) (hstop : T.StopsInside s.node rest) (hbits : s.ReadsAt 0 (ds ++ rest))
    (hroom : cs.length ≤ s.config.obufBytes) :
    ∃ cur, Walks s.walkBit (cs.length + 1) (ds ++ rest).length s.walkStart
        { s.walkStart.emitted cs (ds ++ rest).length with cur } ∧ (rest ≠ [] → cur ≠ s.root) := by
  obtain ⟨hdbits, hrbits⟩ := State.readsAt_append.1 hbits
  have hwalks := walks_codes_from_start hT hcodes hdbits hroom cs.length.le_succ
  obtain ⟨c, d, hcode, ⟨tail, rfl⟩, hne⟩ := hstop
  cases tail with
  | nil => exact absurd (List.append_nil rest).symm hne
  | cons b tail =>
    obtain ⟨cur, hwalks', hoff, -⟩ := walks_code (st := s.walkStart.emitted cs ds.length) hT hcode rfl
      (by simp : _ < cs.length + 1) (by simpa using hrbits)
    refine ⟨cur, ?_, hoff⟩
    simpa [WalkLoop.emitted, Nat.add_assoc] using hwalks.trans hwalks'

end Codes

/-! ### The ends of the two commands -/

section Commands

variable {s : State}

/-- With a tree, and counts that the packed bytes hold, DECODE.B is its loop and its end (R216, R298). -/
theorem execDecodeB_of_ready (hv : s.treeValid = true) (hin : s.inLen.toNat ≤ s.config.ibufBytes)
    (hbits : s.bitCount.toNat ≤ 8 * s.inLen.toNat) :
    exec .decodeB s = .next (s.unpackedB (s.walkBits s.bitCount.toNat s.walkStart)) := by
  rw [exec, execDecodeB, if_neg (by simp [hv]), if_neg (Nat.not_lt.2 hin), if_neg (Nat.not_lt.2 hbits)]

/-- With a tree, and an input that fits in IBUF, DECODE.S is its loop and its end (R224, R298). -/
theorem execDecodeS_of_ready (hv : s.treeValid = true) (hin : s.inLen.toNat ≤ s.config.ibufBytes) :
    exec .decodeS s = .next (s.unpackedS (s.walkSyms (8 * s.inLen.toNat) s.walkStart)) := by
  rw [exec, execDecodeS, if_neg (by simp [hv]), if_neg (Nat.not_lt.2 hin)]

/-- Where the bits below BITCOUNT are walked, DECODE.B ends as the walk stands (R216). -/
theorem execDecodeB_of_walks {lim : Nat} {st : WalkLoop} (hv : s.treeValid = true)
    (hin : s.inLen.toNat ≤ s.config.ibufBytes) (hbits : s.bitCount.toNat ≤ 8 * s.inLen.toNat)
    (h : Walks s.walkBit lim s.bitCount.toNat s.walkStart st) :
    exec .decodeB s = .next (s.unpackedB (.done st)) := by
  have hdone : s.walkBits s.bitCount.toNat s.walkStart = .done st := h.walkBits 0
  rw [execDecodeB_of_ready hv hin hbits, hdone]

/-- Where the walk of bits that IBUF holds puts out SYMCOUNT symbols, DECODE.S ends as the walk stands (R224). -/
theorem execDecodeS_of_walks {n : Nat} {st : WalkLoop} (hv : s.treeValid = true)
    (hin : s.inLen.toNat ≤ s.config.ibufBytes) (hn : n ≤ 8 * s.inLen.toNat)
    (h : Walks s.walkBit s.symCount.toNat n s.walkStart st) (hj : s.symCount.toNat ≤ st.j) :
    exec .decodeS s = .next (s.unpackedS (.done st)) := by
  obtain ⟨rem, hrem⟩ := Nat.exists_eq_add_of_le hn
  rw [execDecodeS_of_ready hv hin, hrem, h.walkSyms, walkSyms_of_enough _ hj]

/-- An error within the loop of DECODE is how the command ends (R292). -/
theorem failedTransfer_unpacked (s : State) (st : WalkLoop) (e : ErrKind) (info : Word) :
    FailedTransfer s e.code info (s.unpackedB (.raised st e info)) ∧
      FailedTransfer s e.code info (s.unpackedS (.raised st e info)) :=
  ⟨rfl, rfl⟩

/-- An error of the bit at index `n`, with fewer than `lim` symbols out, ends both forms when they take that bit. -/
theorem exec_decode_raised {lim n : Nat} {st st' : WalkLoop} {e : ErrKind} {info : Word}
    (hv : s.treeValid = true) (hin : s.inLen.toNat ≤ s.config.ibufBytes)
    (hwalks : Walks s.walkBit lim n s.walkStart st) (hj : st.j < lim) (hr : s.walkBit st = .raised st' e info) :
    (n < s.bitCount.toNat → s.bitCount.toNat ≤ 8 * s.inLen.toNat →
      ∃ t, exec .decodeB s = .next t ∧ FailedTransfer s e.code info t) ∧
    (lim ≤ s.symCount.toNat → n < 8 * s.inLen.toNat →
      ∃ t, exec .decodeS s = .next t ∧ FailedTransfer s e.code info t) := by
  refine ⟨fun hn hbits => ?_, fun hlim hn => ?_⟩
  · obtain ⟨rem, hrem⟩ := Nat.exists_eq_add_of_lt hn
    have hloop : s.walkBits s.bitCount.toNat s.walkStart = .raised st' e info := by
      rw [hrem, Nat.add_assoc, hwalks.walkBits, walkBits_of_raised hr]
    exact ⟨_, hloop ▸ execDecodeB_of_ready hv hin hbits, (failedTransfer_unpacked s st' e info).1⟩
  · obtain ⟨rem, hrem⟩ := Nat.exists_eq_add_of_lt hn
    have hloop : s.walkSyms (8 * s.inLen.toNat) s.walkStart = .raised st' e info := by
      rw [hrem, Nat.add_assoc, (hwalks.mono hlim).walkSyms, walkSyms_of_raised hr _ (by omega)]
    exact ⟨_, hloop ▸ execDecodeS_of_ready hv hin, (failedTransfer_unpacked s st' e info).2⟩

end Commands

/-- A count that was read from a register goes back unchanged. -/
theorem ofNat_toNat_word (w : Word) : BitVec.ofNat 32 w.toNat = w := by
  rw [BitVec.ofNat_toNat, BitVec.setWidth_eq]

/-- `8 * IN_LEN` as ERRINFO (R218, R225). -/
theorem ofNat_eight_mul (w : Word) : BitVec.ofNat 32 (8 * w.toNat) = 8 * w := by
  apply BitVec.eq_of_toNat_eq
  simp [BitVec.toNat_mul]

/-- Settles O47: the walk takes all the bits as whole codes. -/
theorem decodeBRecoversTheSymbols : Obligations.DecodeBRecoversTheSymbols := by
  intro s T cs _ hv hT hin hbits hcodes hroom
  have hwalks := walks_codes_from_start hT hcodes (s.readsAt_inputBits _) hroom (Nat.le_refl _)
  rw [State.length_inputBits] at hwalks
  refine ⟨_, execDecodeB_of_walks hv hin hbits hwalks, ?_, ?_⟩ <;> rw [State.unpackedB, if_neg (by simp)]
  · simp [WalkLoop.emitted, State.complete]
  · exact Memory.putBytes_zero s.obuf cs

/-- Settles O48: the walk takes the codes, and stops when their symbols are out. -/
theorem decodeSRecoversTheSymbols : Obligations.DecodeSRecoversTheSymbols := by
  intro s T cs ds _ hv hT hin hcount hcodes hds hlen hroom
  have hwalks := walks_codes_from_start hT hcodes (hds ▸ s.readsAt_inputBits _) hroom hcount.ge
  have hsyms : BitVec.ofNat 32 cs.length = s.symCount := by rw [← hcount, ofNat_toNat_word]
  refine ⟨_, execDecodeS_of_walks hv hin hlen hwalks (by simp [hcount]), ?_, Memory.putBytes_zero s.obuf cs⟩
  simp [State.unpackedS, WalkLoop.emitted, State.complete, hsyms]

/-- Settles O49: the count is checked before the loop. -/
theorem decodeBRefusesTooManyBits : Obligations.DecodeBRefusesTooManyBits := by
  intro s _ hv hin hbits
  have hexec : exec .decodeB s = .next (s.failTransfer .truncatedOrCorruptBitstream (8 * s.inLen)) := by
    rw [exec, execDecodeB, if_neg (by simp [hv]), if_neg (Nat.not_lt.2 hin), if_pos hbits, ofNat_eight_mul]
  exact ⟨_, hexec, rfl⟩

/-- Settles O50: when the bits run out CUR is off ROOT. -/
theorem decodeBReportsAnIncompleteCode : Obligations.DecodeBReportsAnIncompleteCode := by
  intro s T cs ds rest _ hv hT hin hbits hcodes hinput hrest hstop hroom
  obtain ⟨cur, hwalks, hoff⟩ :=
    walks_codes_stopped hT hcodes hstop (hinput ▸ s.readsAt_inputBits _) hroom
  rw [← hinput, State.length_inputBits] at hwalks
  refine ⟨_, execDecodeB_of_walks hv hin hbits hwalks, ?_⟩
  rw [State.unpackedB, if_pos (hoff hrest)]
  rfl

/-- The 0 bits that a single-leaf tree takes (R221). -/
theorem walks_zeros {s : State} {k : Nat} (hroot : (s.node.node s.root.toNat).leaf = true)
    (hzeros : ∀ k' < k, s.inbit k' = false) (hroom : k ≤ s.config.obufBytes) :
    ∃ st, Walks s.walkBit (k + 1) k s.walkStart st ∧ st.j = k ∧ st.k = k ∧ st.cur = s.root := by
  induction k with
  | zero => exact ⟨_, .refl _, rfl, rfl, rfl⟩
  | succ k ih =>
    obtain ⟨st, hwalks, hj, hk, hcur⟩ := ih (fun k' hk' => hzeros k' (by omega)) (by omega)
    have hstep := (completes_of_single hroot hcur (by rw [hk]; exact hzeros k (by omega))).emits (by omega)
    exact ⟨_, (hwalks.mono (by omega)).trans (.single (by omega) hstep), congrArg (· + 1) hj,
      congrArg (· + 1) hk, rfl⟩

/-- Settles O51: the 0 bits before it each put out the symbol. -/
theorem singleLeafOneBitIsCorrupt : Obligations.SingleLeafOneBitIsCorrupt := by
  intro s k _ hv hroot hin hzeros hone hroom
  obtain ⟨st, hwalks, hj, hk, -⟩ := walks_zeros hroot hzeros hroom
  have hraised := walkBit_of_single_one (st := st) hroot (by rwa [hk])
  rw [hk] at hraised
  exact exec_decode_raised hv hin hwalks (by omega) hraised

/-- Settles O52: when the packed bytes run out SYMCOUNT symbols are not out. -/
theorem decodeSReportsMissingBits : Obligations.DecodeSReportsMissingBits := by
  intro s T cs ds rest _ hv hT hin hcodes hinput hstop hcount hroom
  obtain ⟨cur, hwalks, -⟩ := walks_codes_stopped hT hcodes hstop (hinput ▸ s.readsAt_inputBits _) hroom
  rw [← hinput, State.length_inputBits] at hwalks
  have hraised := (hwalks.mono hcount).walkSyms 0
  rw [Nat.add_zero, State.walkSyms, if_pos (by simpa using hcount)] at hraised
  rw [← ofNat_eight_mul, ← Nat.zero_add (8 * s.inLen.toNat)]
  exact ⟨_, hraised ▸ execDecodeS_of_ready hv hin, (failedTransfer_unpacked s _ _ _).2⟩

/-- Settles O53: the symbols before fill OBUF, and the last digit of the next code completes one more. -/
theorem decodeReportsTheOverflow : Obligations.DecodeReportsTheOverflow := by
  intro s T cs c ds _ hv hT hin hcodes hds hfull
  obtain ⟨es, d, hes, hd, rfl⟩ := Tree.codesOf_concat_eq_some hcodes
  obtain ⟨hesbits, hdbits⟩ := State.readsAt_append.1 (hds ▸ s.readsAt_inputBits _ : s.ReadsAt 0 (es ++ d))
  have hwalks := walks_codes_from_start hT hes hesbits hfull.le cs.length.le_succ
  obtain ⟨cur, n, hn, hwalks', hcompletes⟩ := exists_walks_completes (st := s.walkStart.emitted cs es.length) hT hd rfl
    (by simp : _ < cs.length + 1) (by simpa using hdbits)
  obtain ⟨st', hraised⟩ := hcompletes.overflows (by simp [hfull])
  obtain ⟨hB, hS⟩ := exec_decode_raised hv hin (hwalks.trans hwalks') (by simp) hraised
  have hlen : (es ++ d).length = es.length + n + 1 := by rw [List.length_append, hn, Nat.add_assoc]
  rw [hlen, Nat.add_sub_cancel]
  dsimp only [WalkLoop.emitted_k, State.walkStart_k] at hB hS
  rw [Nat.zero_add] at hB hS
  exact ⟨hB, hS⟩

end Sys2Proof.Machine

/-! ## The two forms of DECODE agree, and DECODE.B reads BITCOUNT bits (spec/45_decode.md R217, R229) -/

namespace Sys2Proof.Machine

/-! ### What DECODE.B reads -/

section Reads

variable {s : State} {st st' : WalkLoop}

/-- The next bit is the one at the next index, whatever the walk does (R216, R224). -/
theorem walkBit_k (h : s.walkBit st = .done st') : st'.k = st.k + 1 := by
  cases hroot : (s.node.node s.root.toNat).leaf with
  | true =>
    rw [walkBit_of_single hroot] at h
    rcases walkLeaf_cases s.config.obufBytes (s.node.node s.root.toNat).sym (s.inbit st.k) st with ⟨-, he⟩ | ⟨-, he⟩
    · rw [he] at h
      cases h
    · rw [he] at h
      rcases emit_cases s.config.obufBytes (s.node.node s.root.toNat).sym st with ⟨-, he⟩ | ⟨-, he⟩ <;> rw [he] at h <;>
        cases h
      rfl
  | false =>
    rw [walkBit_of_inner hroot] at h
    obtain ⟨cur, -, ⟨-, he⟩ | ⟨-, -, he⟩ | ⟨-, -, he⟩⟩ :=
      walkInner_cases s.config.obufBytes s.node s.root (s.inbit st.k) st <;> rw [he] at h <;> cases h
    · rfl
    · rfl

theorem Walks.k_eq {lim n : Nat} (h : Walks s.walkBit lim n st st') : st'.k = st.k + n := by
  induction h with
  | refl st => rfl
  | head hj hstep _ ih => rw [ih, walkBit_k hstep]; omega

/-- The walk reads of IBUF the bits that it takes (R217). -/
theorem walkBits_congr_ibuf {m : Memory Byte} (n : Nat)
    (h : ∀ k, st.k ≤ k → k < st.k + n → { s with ibuf := m }.inbit k = s.inbit k) :
    { s with ibuf := m }.walkBits n st = s.walkBits n st := by
  induction n generalizing st with
  | zero => rfl
  | succ n ih =>
    have hbit : { s with ibuf := m }.walkBit st = s.walkBit st := by
      rw [State.walkBit, h st.k (Nat.le_refl _) (by omega)]
      rfl
    rw [State.walkBits, State.walkBits, hbit]
    cases hstep : s.walkBit st with
    | raised st' e info => rfl
    | done st' =>
      have hk := walkBit_k hstep
      exact ih fun k hle hlt => h k (by omega) (by omega)

end Reads

/-- The end of DECODE.B does not look at IBUF. -/
theorem unpackedB_ibuf (s : State) (m : Memory Byte) (r : Ended WalkLoop) :
    { s with ibuf := m }.unpackedB r = { s.unpackedB r with ibuf := m } := by
  cases r with
  | raised st e info => rfl
  | done st =>
    rw [State.unpackedB, State.unpackedB]
    split <;> rfl

/-- Settles O54: the checks read no bit, and the loop those below BITCOUNT. -/
theorem decodeBReadsNoBitBeyondTheCount : Obligations.DecodeBReadsNoBitBeyondTheCount := by
  intro s t m hbits hexec
  have hwalk : { s with ibuf := m }.walkBits s.bitCount.toNat s.walkStart =
      s.walkBits s.bitCount.toNat s.walkStart :=
    walkBits_congr_ibuf _ fun k _ hk => hbits k (by simpa using hk)
  rcases execDecodeB_cases hexec with ⟨hv, rfl⟩ | ⟨hv, hin, rfl⟩ | ⟨hv, hin, hb, rfl⟩ | ⟨hv, hin, hb, rfl⟩
  · rw [exec, execDecodeB, if_pos hv]
    rfl
  · rw [exec, execDecodeB, if_neg (by simp [hv]), if_pos hin]
    rfl
  · rw [exec, execDecodeB, if_neg (by simp [hv]), if_neg (Nat.not_lt.2 hin), if_pos hb]
    rfl
  · rw [← unpackedB_ibuf, ← hwalk]
    exact execDecodeB_of_ready hv hin hb

/-! ### Where the walk stands -/

/-- A stored internal entry has a stored tree below each child, whose top has a lower index (R43). -/
theorem Tree.exists_child {m : Memory NodeEntry} {t : Tree} (hs : t.stored m = true)
    (hinner : (m.node t.root).leaf = false) (b : Bool) :
    ∃ t' : Tree, t'.stored m = true ∧ ((m.node t.root).child b).toNat = t'.root ∧ t'.root < t.root := by
  cases t with
  | leaf k =>
    rw [Tree.root, Tree.leaf_of_stored hs] at hinner
    cases hinner
  | node k l r =>
    obtain ⟨-, ⟨hleft, hlk, hsl⟩, hright, hrk, hsr⟩ := Tree.inner_of_stored hs
    cases b
    · exact ⟨l, hsl, hleft, hlk⟩
    · exact ⟨r, hsr, hright, hrk⟩

/-- `st` stands at an entry of the tree at ROOT from which the next bit leads on: at the one entry of the single-leaf
tree, or at an internal entry (R220, R221). -/
structure State.OnTree (s : State) (st : WalkLoop) : Prop where
  stored : ∃ t : Tree, t.stored s.node = true ∧ st.cur.toNat = t.root ∧ t.root ≤ s.root.toNat
  single : (s.node.node s.root.toNat).leaf = true → st.cur = s.root
  inner : (s.node.node s.root.toNat).leaf = false → (s.node.node st.cur.toNat).leaf = false

section OnTree

variable {s : State} {T : Tree} {st st' : WalkLoop}

theorem State.onTree_of_root (hT : s.HasTree T) (hcur : st.cur = s.root) : s.OnTree st := by
  obtain ⟨hstored, hroot, -⟩ := hT
  exact ⟨⟨T, hstored, hcur ▸ hroot, hroot.ge⟩, fun _ => hcur, fun h => hcur ▸ h⟩

/-- A bit that completes a symbol, and fits, leads back to ROOT (R219, R220). -/
theorem State.Completes.of_done {c : Byte} (h : s.Completes c st) (hw : s.walkBit st = .done st') :
    st'.j = st.j + 1 ∧ st'.cur = s.root := by
  rcases Nat.lt_or_ge st.j s.config.obufBytes with hroom | hfull
  · cases hw.symm.trans (h.emits hroom)
    exact ⟨rfl, rfl⟩
  · obtain ⟨st'', hr⟩ := h.overflows hfull
    cases hw.symm.trans hr

/-- A bit either puts out a symbol and leads back to ROOT, or leads to an entry off ROOT (R220, R221). -/
theorem State.OnTree.walkBit (h : s.OnTree st) (hT : s.HasTree T) (hw : s.walkBit st = .done st') :
    s.OnTree st' ∧ (st'.j = st.j ∧ st'.cur ≠ s.root ∨ st'.j = st.j + 1 ∧ st'.cur = s.root) := by
  obtain ⟨⟨t, hs, hcur, hle⟩, hsingle, hinner⟩ := h
  have hcompleted {c : Byte} (hc : s.Completes c st) : s.OnTree st' ∧
      (st'.j = st.j ∧ st'.cur ≠ s.root ∨ st'.j = st.j + 1 ∧ st'.cur = s.root) :=
    have hend := hc.of_done hw
    ⟨State.onTree_of_root hT hend.2, .inr hend⟩
  cases hroot : (s.node.node s.root.toNat).leaf with
  | true =>
    cases hbit : s.inbit st.k with
    | true => cases hw.symm.trans (walkBit_of_single_one hroot hbit)
    | false => exact hcompleted (completes_of_single hroot (hsingle hroot) hbit)
  | false =>
    obtain ⟨hdescend, hcompletes⟩ := walkBit_inner (st := st) hroot rfl
    have hhere := hinner hroot
    rw [hcur] at hhere
    obtain ⟨t', hs', hchild, hlt⟩ := Tree.exists_child hs hhere (s.inbit st.k)
    rw [← hcur] at hchild
    cases hleaf : (s.node.node ((s.node.node st.cur.toNat).child (s.inbit st.k)).toNat).leaf with
    | true => exact hcompleted (hcompletes hleaf)
    | false =>
      cases hw.symm.trans (hdescend hleaf)
      refine ⟨⟨⟨t', hs', hchild, by omega⟩, fun h => by simp [hroot] at h, fun _ => hleaf⟩, .inl ⟨rfl, ?_⟩⟩
      intro hback
      dsimp only at hback
      rw [hback] at hchild
      omega

/-! ### What a loop that ends well has walked -/

theorem exists_of_walkBits_succ {n : Nat} (h : s.walkBits (n + 1) st = .done st') :
    ∃ st1, s.walkBit st = .done st1 ∧ s.walkBits n st1 = .done st' := by
  rw [State.walkBits] at h
  split at h
  · next st1 hstep => exact ⟨st1, hstep, h⟩
  · cases h

/-- The loop of DECODE.S ends well only where SYMCOUNT symbols are out (R224). -/
theorem walkSyms_done_cases {rem : Nat} (h : s.walkSyms rem st = .done st') :
    (s.symCount.toNat ≤ st.j ∧ st' = st) ∨
      ∃ n st1, rem = n + 1 ∧ st.j < s.symCount.toNat ∧ s.walkBit st = .done st1 ∧ s.walkSyms n st1 = .done st' := by
  rcases Nat.lt_or_ge st.j s.symCount.toNat with hj | hj
  · cases rem with
    | zero =>
      rw [State.walkSyms, if_pos hj] at h
      cases h
    | succ n =>
      rw [State.walkSyms, if_pos hj] at h
      split at h
      · next st1 hstep => exact .inr ⟨n, st1, rfl, hj, hstep, h⟩
      · cases h
  · rw [walkSyms_of_enough rem hj] at h
    cases h
    exact .inl ⟨hj, rfl⟩

/-- Bits that end at ROOT put out their last symbol with the last bit (R216, R218). -/
theorem walks_of_walkBits (hT : s.HasTree T) (n : Nat) (h : s.OnTree st) (hw : s.walkBits n st = .done st')
    (hend : st'.cur = s.root) : Walks s.walkBit st'.j n st st' := by
  induction n generalizing st with
  | zero =>
    cases hw
    exact .refl _
  | succ n ih =>
    obtain ⟨st1, hstep, hw⟩ := exists_of_walkBits_succ hw
    obtain ⟨h1, hcases⟩ := h.walkBit hT hstep
    have htail := ih h1 hw
    refine .head ?_ hstep htail
    rcases hcases with ⟨hj, hoff⟩ | ⟨hj, -⟩
    · cases htail with
      | refl => exact absurd hend hoff
      | head hlt => exact hj ▸ hlt
    · cases htail with
      | refl => omega
      | head hlt => omega

/-- When DECODE.S stops without an error the last symbol has come out with the last bit taken (R224, R226). -/
theorem exists_walks_of_walkSyms (hT : s.HasTree T) (rem : Nat) (h : s.OnTree st)
    (hj : st.j ≤ s.symCount.toNat) (hcur : st.j = s.symCount.toNat → st.cur = s.root)
    (hw : s.walkSyms rem st = .done st') :
    ∃ n ≤ rem, Walks s.walkBit s.symCount.toNat n st st' ∧ st'.j = s.symCount.toNat ∧ st'.cur = s.root := by
  induction rem generalizing st with
  | zero =>
    obtain ⟨hge, rfl⟩ | ⟨n, st1, hn, -⟩ := walkSyms_done_cases hw
    · have heq := Nat.le_antisymm hj hge
      exact ⟨0, Nat.le_refl _, .refl _, heq, hcur heq⟩
    · cases hn
  | succ rem ih =>
    obtain ⟨hge, rfl⟩ | ⟨n, st1, hn, hlt, hstep, hw⟩ := walkSyms_done_cases hw
    · have heq := Nat.le_antisymm hj hge
      exact ⟨0, Nat.zero_le _, .refl _, heq, hcur heq⟩
    · cases hn
      obtain ⟨h1, hcases⟩ := h.walkBit hT hstep
      have hnext : st1.j ≤ s.symCount.toNat ∧ (st1.j = s.symCount.toNat → st1.cur = s.root) := by
        rcases hcases with ⟨hj1, -⟩ | ⟨hj1, hback⟩
        · exact ⟨by omega, fun _ => by omega⟩
        · exact ⟨by omega, fun _ => hback⟩
      obtain ⟨n, hle, hwalks, hend⟩ := ih h1 hnext.1 hnext.2 hw
      exact ⟨n + 1, Nat.succ_le_succ hle, .head hlt hstep hwalks, hend⟩

end OnTree

/-! ### The two forms -/

/-- A DECODE.B that ends without an error has run its loop and come back to ROOT (R216, R218). -/
theorem execDecodeB_of_no_error {s t : State} (h : exec .decodeB s = .next t) (ht : t.err = false) :
    s.treeValid = true ∧ s.inLen.toNat ≤ s.config.ibufBytes ∧ s.bitCount.toNat ≤ 8 * s.inLen.toNat ∧
      ∃ st, s.walkBits s.bitCount.toNat s.walkStart = .done st ∧ st.cur = s.root ∧ t = s.unpackedB (.done st) := by
  rcases execDecodeB_cases h with ⟨-, rfl⟩ | ⟨-, -, rfl⟩ | ⟨-, -, -, rfl⟩ | ⟨hv, hin, hb, rfl⟩
  · simp at ht
  · simp at ht
  · simp at ht
  · refine ⟨hv, hin, hb, ?_⟩
    cases hloop : s.walkBits s.bitCount.toNat s.walkStart with
    | raised st e info => simp [hloop, State.unpackedB] at ht
    | done st =>
      refine ⟨st, rfl, ?_, rfl⟩
      by_contra hoff
      simp [hloop, State.unpackedB, hoff] at ht

/-- A DECODE.S that ends without an error has run its loop (R224). -/
theorem execDecodeS_of_no_error {s t : State} (h : exec .decodeS s = .next t) (ht : t.err = false) :
    s.treeValid = true ∧ s.inLen.toNat ≤ s.config.ibufBytes ∧
      ∃ st, s.walkSyms (8 * s.inLen.toNat) s.walkStart = .done st ∧ t = s.unpackedS (.done st) := by
  rcases execDecodeS_cases h with ⟨-, rfl⟩ | ⟨-, -, rfl⟩ | ⟨hv, hin, rfl⟩
  · simp at ht
  · simp at ht
  · refine ⟨hv, hin, ?_⟩
    cases hloop : s.walkSyms (8 * s.inLen.toNat) s.walkStart with
    | raised st e info => simp [hloop, State.unpackedS] at ht
    | done st => exact ⟨st, rfl, rfl⟩

/-- Settles O55: a loop of one form that ends well has walked bits that the loop of the other form walks too, up to the
symbol that comes out with the last of them. -/
theorem decodeFormsAgree : Obligations.DecodeFormsAgree := by
  intro s T hc hv hT herr
  simp only [State.ConfigOk, Config.wellFormed, Config.ibufOk, Config.obufOk, Bool.and_eq_true, decide_eq_true_eq] at hc
  obtain ⟨⟨-, hibuf⟩, -, hobuf⟩ := hc
  refine ⟨fun t hexec ht => ?toS, fun v hexec hok => ?toB⟩
  case toS =>
    obtain ⟨-, hin, hbits, st, hloop, hend, rfl⟩ := execDecodeB_of_no_error hexec ht
    have hfits := ((Written.none _ _).walkBits (st := s.walkStart) _ hloop).fits
    have hwalks := walks_of_walkBits hT _ (State.onTree_of_root hT rfl) hloop hend
    have hcount : (BitVec.ofNat 32 st.j).toNat = st.j := by rw [BitVec.toNat_ofNat, Nat.mod_eq_of_lt (by omega)]
    have hexecS := execDecodeS_of_walks (s := { s with symCount := BitVec.ofNat 32 st.j }) hv hin hbits
      (by rw [hcount]; exact hwalks) hcount.le
    have hk : BitVec.ofNat 32 st.k = s.bitCount := by
      rw [hwalks.k_eq, State.walkStart_k, Nat.zero_add, ofNat_toNat_word]
    rw [State.unpackedB, if_neg (not_not.2 hend)]
    exact ⟨_, hexecS, herr, hk, rfl, rfl⟩
  case toB =>
    obtain ⟨-, hin, st, hloop, rfl⟩ := execDecodeS_of_no_error hexec hok
    obtain ⟨n, hn, hwalks, hj, hend⟩ :=
      exists_walks_of_walkSyms hT _ (State.onTree_of_root hT rfl) (Nat.zero_le _) (fun _ => rfl) hloop
    have hcount : (BitVec.ofNat 32 st.k).toNat = n := by
      rw [hwalks.k_eq, State.walkStart_k, Nat.zero_add, BitVec.toNat_ofNat, Nat.mod_eq_of_lt (by omega)]
    have hexecB := execDecodeB_of_walks (s := { s with bitCount := BitVec.ofNat 32 st.k }) hv hin
      (hcount.le.trans hn) (by rw [hcount]; exact hwalks)
    rw [State.unpackedB, if_neg (not_not.2 hend)] at hexecB
    have hsyms : BitVec.ofNat 32 st.j = s.symCount := by rw [hj, ofNat_toNat_word]
    exact ⟨_, hexecB, herr, hsyms, rfl, rfl⟩

end Sys2Proof.Machine

/-! ## The round trip (spec/44_encode.md R199, spec/45_decode.md R231, spec/46_command_control.md R260, R261) -/

namespace Sys2Proof.Machine

/-! ### The code table of the input's tree -/

/-- The leaf entries of a stored tree are its leaves (R41). -/
theorem Tree.mem_leaves {m : Memory NodeEntry} {t : Tree} (hs : t.stored m = true) {k : Nat} (hk : k ∈ t.indices)
    (hleaf : (m.node k).leaf = true) : k ∈ t.leaves := by
  induction t with
  | leaf j => exact hk
  | node j l r hl hr =>
    obtain ⟨hinner, ⟨-, -, hsl⟩, -, -, hsr⟩ := Tree.inner_of_stored hs
    rw [Tree.indices, List.mem_cons, List.mem_append] at hk
    rw [Tree.leaves, List.mem_append]
    rcases hk with rfl | hk | hk
    · simp [hinner] at hleaf
    · exact .inl (hl hsl hk)
    · exact .inr (hr hsr hk)

/-- The symbol of every leaf entry below NNODES is one of the tree's symbols (R43). -/
theorem State.HasTree.mem_symbols {s : State} {T : Tree} (h : s.HasTree T) {k : Nat} (hk : k < s.nNodes.toNat)
    (hleaf : (s.node.node k).leaf = true) : (s.node.node k).sym ∈ T.symbols s.node := by
  obtain ⟨hstored, -, hperm, -⟩ := h
  exact List.mem_map_of_mem (Tree.mem_leaves hstored (hperm.mem_iff.2 (List.mem_range.2 hk)) hleaf)

/-- The entries of symbols of the tree spell the codes of a string of them (R47, R199). -/
theorem codesOf_eq_digits {s : State} {T : Tree} (hT : s.HasTree T) (hcodes : s.HasCodes T) {cs : List Byte}
    (hcs : ∀ c ∈ cs, c ∈ T.symbols s.node) :
    T.codesOf s.node cs = some (cs.flatMap fun c => (s.code.code c.toNat).digits) := by
  obtain ⟨-, -, -, hnodup, -⟩ := hT
  induction cs with
  | nil => rfl
  | cons c cs ih =>
    rw [List.forall_mem_cons] at hcs
    obtain ⟨hc, hcs⟩ := hcs
    rw [Tree.codesOf, ih hcs, List.flatMap_cons, hcodes c]
    cases hd : T.codeOf s.node c with
    | none => exact absurd hc ((Tree.codeOf_eq_none_iff s.node c T).1 hd)
    | some d => simp [entryOf, CodeEntry.digits_ofDigits d (Tree.length_codeOf_le s.node hnodup hd)]

/-- A symbol of the tree has an entry (R47). -/
theorem len_ne_zero_of_mem_symbols {s : State} {T : Tree} (hT : s.HasTree T) (hcodes : s.HasCodes T) {c : Byte}
    (hc : c ∈ T.symbols s.node) : (s.code.code c.toNat).len ≠ 0 := by
  obtain ⟨hpos, -⟩ := codeTableIsLegal s T hT hcodes c
  intro hzero
  have := hpos.2 hc
  simp [hzero] at this

/-! ### The three commands before ENCODE -/

/-- The tree and the code table of `s` are those of `T`, and every input byte is one of its symbols. -/
structure State.Covers (s : State) (T : Tree) : Prop where
  treeValid : s.treeValid = true
  codesValid : s.codesValid = true
  tree : s.HasTree T
  codes : s.HasCodes T
  symbols : ∀ c ∈ s.inputBytes s.inLen.toNat, c ∈ T.symbols s.node

/-- ANALYZE of a non-empty input that fits makes a table that BUILD takes, with every input byte (R133). -/
theorem exists_analyzed {s : State} (hin : s.inLen.toNat ≤ s.config.ibufBytes) (hne : s.inLen.toNat ≠ 0) :
    ∃ t, exec .analyze s = .next t ∧ t.err = s.err ∧ 1 ≤ t.nSym.toNat ∧ t.nSym.toNat ≤ 256 ∧
      (∀ p q, p < q → q < t.nSym.toNat → t.symtab.byte p ≠ t.symtab.byte q) ∧
      ∀ c ∈ s.inputBytes s.inLen.toNat, ∃ p < t.nSym.toNat, t.symtab.byte p = c := by
  obtain ⟨t, hexec, -, -, hle, hdistinct, hfound, -⟩ := analyzeCountsTheInput s hin
  have herr : t.err = s.err := by
    rcases execAnalyze_cases hexec with ⟨hbad, -⟩ | ⟨-, rfl⟩
    · omega
    · rfl
  obtain ⟨p, hp, -⟩ := (hfound (s.ibuf.byte 0)).2 ⟨0, by omega, rfl⟩
  exact ⟨t, hexec, herr, by omega, hle, hdistinct, fun c hc => (hfound c).2 (mem_inputBytes.1 hc)⟩

/-- BUILD of a legal table makes a tree that has all of its symbols (R161, R163). -/
theorem exists_built_tree {s : State} (h1 : 1 ≤ s.nSym.toNat) (h256 : s.nSym.toNat ≤ 256)
    (hdistinct : ∀ p q, p < q → q < s.nSym.toNat → s.symtab.byte p ≠ s.symtab.byte q) :
    ∃ t T, exec .build s = .next t ∧ t.err = s.err ∧ t.treeValid = true ∧ t.HasTree T ∧
      ∀ p < s.nSym.toNat, s.symtab.byte p ∈ T.symbols t.node := by
  obtain ⟨t, hexec, -, -, hv, -, hnodes, -, hleaves, -, -, -, T, hT⟩ := buildMakesTheTree s h1 h256 hdistinct
  obtain ⟨-, -, hbuilt⟩ := buildFrame s t hexec
  obtain ⟨-, herr, -⟩ := hbuilt hv
  refine ⟨t, T, hexec, herr, hv, hT, fun p hp => ?_⟩
  have hmem := hT.mem_symbols (k := p) (by omega) (by rw [hleaves p hp])
  rwa [hleaves p hp] at hmem

/-- No command but CLEAR changes the input (R49, R250). -/
theorem CommandEnd.keeps_input {s t : State} {i : Instr} (h : CommandEnd s i t) (hi : i ≠ .clear) :
    t.config = s.config ∧ t.ibuf = s.ibuf ∧ t.inLen = s.inLen := by
  obtain ⟨hconfig, hibuf, -⟩ := h.frame
  refine ⟨hconfig, hibuf, ?_⟩
  cases h with
  | failed | analyzed | rejected | built | generated | transferFailed | transferred => rfl
  | cleared => exact absurd rfl hi

/-- ANALYZE, BUILD and GENCODES of a non-empty input that fits make a code table with every input byte (R260). -/
theorem exists_covers {s : State} (hin : s.inLen.toNat ≤ s.config.ibufBytes) (hne : s.inLen.toNat ≠ 0) :
    ∃ t1 t2 t3 T, exec .analyze s = .next t1 ∧ exec .build t1 = .next t2 ∧ exec .gencodes t2 = .next t3 ∧
      t1.err = s.err ∧ t2.err = s.err ∧ t3.err = s.err ∧
      (t3.config = s.config ∧ t3.ibuf = s.ibuf ∧ t3.inLen = s.inLen) ∧ t3.Covers T := by
  obtain ⟨t1, hexec1, herr1, h1, h256, hdistinct, hfound⟩ := exists_analyzed hin hne
  obtain ⟨t2, T, hexec2, herr2, hv2, hT2, hsyms⟩ := exists_built_tree h1 h256 hdistinct
  obtain ⟨t3, hexec3, hframe3, hT3, hcodes3⟩ := gencodesRecordsThePaths t2 T hv2 hT2
  obtain ⟨hconfig1, hibuf1, hin1⟩ := (exec_commandEnd hexec1).keeps_input (by decide)
  obtain ⟨hconfig2, hibuf2, hin2⟩ := (exec_commandEnd hexec2).keeps_input (by decide)
  obtain ⟨hconfig3, hibuf3, hin3⟩ := (exec_commandEnd hexec3).keeps_input (by decide)
  have hibuf := (hibuf3.trans hibuf2).trans hibuf1
  have hinLen := (hin3.trans hin2).trans hin1
  have hnode3 : t3.node = t2.node := by rw [hframe3]
  have herr3 : t3.err = t2.err := by rw [hframe3]
  refine ⟨t1, t2, t3, T, hexec1, hexec2, hexec3, herr1, herr2.trans herr1, (herr3.trans herr2).trans herr1,
    ⟨(hconfig3.trans hconfig2).trans hconfig1, hibuf, hinLen⟩, ?_, by rw [hframe3], hT3, hcodes3, fun c hc => ?_⟩
  · rw [hframe3]
    exact hv2
  · rw [State.inputBytes, hibuf, hinLen] at hc
    obtain ⟨p, hp, rfl⟩ := hfound c hc
    rw [hnode3]
    exact hsyms p hp

/-! ### ENCODE and DECODE -/

/-- ENCODE of an input that the tree covers, where its digits fit, packs the codes of the input (R199, R204). -/
theorem State.Covers.exists_packed {s : State} {T : Tree} (h : s.Covers T) (hc : s.ConfigOk)
    (hin : s.inLen.toNat ≤ s.config.ibufBytes)
    (hdigits : (s.codeDigits s.inLen.toNat).length ≤ 8 * s.config.obufBytes) :
    ∃ t, exec .encode s = .next t ∧ t.err = s.err ∧ t.config = s.config ∧ t.symCount = s.inLen ∧
      t.treeValid = true ∧ t.HasTree T ∧ t.bitCount.toNat ≤ 8 * t.outLen.toNat ∧
      T.codesOf t.node (s.inputBytes s.inLen.toNat) = some ((List.range t.bitCount.toNat).map t.outbit) := by
  obtain ⟨hv, hcv, hT, hcodes, hsyms⟩ := h
  have hentries (i : Nat) (hi : i < s.inLen.toNat) : (s.code.code (s.ibuf.byte i).toNat).len ≠ 0 :=
    len_ne_zero_of_mem_symbols hT hcodes (hsyms _ (mem_inputBytes.2 ⟨i, hi, rfl⟩))
  obtain ⟨t, hexec, hframe, -, hout, -, hpacked, -⟩ := encodePacksTheCodes s hc hcv hin hentries hdigits
  have hnode : t.node = s.node := by rw [hframe]
  refine ⟨t, hexec, by rw [hframe], by rw [hframe], by rw [hframe], ?_, ?_, by omega, ?_⟩
  · rwa [hframe]
  · rwa [hframe]
  · rw [hpacked, hnode]
    exact codesOf_eq_digits hT hcodes hsyms

/-- Both forms of DECODE give back `b` from packed bytes that hold its codes, with its counts (R231). -/
theorem decode_of_packed {u : State} {T : Tree} {b : List Byte} (hc : u.ConfigOk) (hv : u.treeValid = true)
    (hT : u.HasTree T) (herr : u.err = false) (hin : u.inLen.toNat ≤ u.config.ibufBytes)
    (hbits : u.bitCount.toNat ≤ 8 * u.inLen.toNat) (hcount : u.symCount.toNat = b.length)
    (hcodes : T.codesOf u.node b = some (u.inputBits u.bitCount.toNat)) (hroom : b.length ≤ u.config.obufBytes) :
    (∃ v, exec .decodeB u = .next v ∧ v.err = false ∧ v.outLen.toNat = b.length ∧
      (List.range b.length).map v.obuf.byte = b) ∧
    ∃ v, exec .decodeS u = .next v ∧ v.err = false ∧ v.outLen.toNat = b.length ∧
      (List.range b.length).map v.obuf.byte = b := by
  constructor
  · obtain ⟨v, hexec, hframe, hbytes, -⟩ := decodeBRecoversTheSymbols u T b hc hv hT hin hbits hcodes hroom
    have hlen : v.outLen = BitVec.ofNat 32 b.length := congrArg State.outLen hframe
    rw [← hcount, ofNat_toNat_word] at hlen
    exact ⟨v, hexec, (congrArg State.err hframe).trans herr, hlen ▸ hcount, hbytes⟩
  · obtain ⟨v, hexec, hframe, hbytes, -⟩ := decodeSRecoversTheSymbols u T b _ hc hv hT hin hcount hcodes
      (by rw [State.length_inputBits]) (by rwa [State.length_inputBits]) hroom
    have hlen : v.outLen = u.symCount := congrArg State.outLen hframe
    exact ⟨v, hexec, (congrArg State.err hframe).trans herr, hlen ▸ hcount, hbytes⟩

/-- The packed input, where it was copied from the packed output, has the same bits (R81, R82). -/
theorem inputBits_of_copied {t : State} {m : Memory Byte} {n len : Nat} (hn : n ≤ 8 * len)
    (hm : ∀ j < len, m.byte j = t.obuf.byte j) (inLen : Word) :
    ({ t with ibuf := m, inLen } : State).inputBits n = (List.range n).map t.outbit := by
  refine List.map_congr_left fun k hk => ?_
  rw [List.mem_range] at hk
  rw [State.inbit, State.outbit, hm (k / 8) (by omega)]

/-- Settles O60: every input byte has a code, ENCODE packs the codes of the input one after the other, and DECODE
takes them so. -/
theorem roundTrip : Obligations.RoundTrip := by
  intro s b hc herr hb hfits hlen hbytes
  have hne : s.inLen.toNat ≠ 0 := by rwa [hlen, Ne, List.length_eq_zero_iff]
  obtain ⟨t1, t2, t3, T, hexec1, hexec2, hexec3, herr1, herr2, herr3, ⟨hconfig3, hibuf3, hinLen3⟩, hcovers⟩ :=
    exists_covers (hlen ▸ hfits) hne
  refine ⟨t1, t2, t3, hexec1, hexec2, hexec3, herr1.trans herr, herr2.trans herr, herr3.trans herr, fun hdigits => ?_⟩
  have hlen3 : t3.inLen.toNat = b.length := hinLen3 ▸ hlen
  have hbytes3 : t3.inputBytes b.length = b := by rwa [State.inputBytes, hibuf3]
  obtain ⟨t4, hexec4, herr4, hconfig4, hcount4, hv4, hT4, hbits4, hcodes4⟩ := hcovers.exists_packed
    (by rwa [State.ConfigOk, hconfig3]) (by rwa [hlen3, hconfig3]) (by rwa [hlen3, hconfig3])
  rw [hconfig3] at hconfig4
  have herr4 := (herr4.trans herr3).trans herr
  refine ⟨t4, hexec4, herr4, fun hcopy hroom m hm => ?_⟩
  rw [hlen3, hbytes3, ← inputBits_of_copied hbits4 hm t4.outLen] at hcodes4
  exact decode_of_packed (u := { t4 with ibuf := m, inLen := t4.outLen }) (by rwa [State.ConfigOk, hconfig4]) hv4 hT4
    herr4 (hconfig4 ▸ hcopy) hbits4 (hcount4 ▸ hlen3) hcodes4 (hconfig4 ▸ hroom)

end Sys2Proof.Machine

/-! ## Presenting, running and ending a command (spec/46_command_control.md R240 to R250) -/

namespace Sys2Proof.Machine

/-! ### A command runs to its end -/

/-- When the sequencer moves, the step runs the word that SEQ holds (R247). -/
theorem step_of_sequencerTurn {s : State} (h : s.sequencerTurn = true) :
    ∃ w polls, s.seq = .run w polls ∧ step s = runWord w s := by
  unfold State.sequencerTurn at h
  split at h
  · cases h
  · next w polls hseq hhost => exact ⟨w, polls, hseq, by simp [step, hseq, hhost]⟩
  · next w polls x rest hseq hhost =>
    have hduring : x.during = false := by simpa using h
    exact ⟨w, polls, hseq, by simp [step, hseq, hhost, hduring]⟩

/-- With a legal word in SEQ the sequencer runs its command (R245). -/
theorem runWord_of_decodeCmd {w : Word} {i : Instr} (h : decodeCmd w = some i) (s : State) :
    runWord w s = exec i s := by
  simp [runWord, h]

/-- GENCODES does not stop while the tree invariants hold: there its traversal ends (R43, R249). -/
theorem execGencodes_next {s : State} (h : s.TreeOk) : ∃ t, execGencodes s = .next t := by
  cases hv : s.treeValid with
  | false => exact ⟨_, if_pos hv⟩
  | true =>
    obtain ⟨T, hT⟩ := h hv
    obtain ⟨st, hst, -⟩ := traversed_of_hasTree hT
    exact ⟨_, execGencodes_of_traversed hv hst⟩

/-- No command stops while the tree invariants hold; only GENCODES needs them (R249). -/
theorem exec_next {s : State} (h : s.TreeOk) (i : Instr) : ∃ t, exec i s = .next t := by
  cases i with
  | analyze => dsimp only [exec, execAnalyze]; split_ifs <;> exact ⟨_, rfl⟩
  | build => exact ⟨_, rfl⟩
  | gencodes => exact execGencodes_next h
  | encode => dsimp only [exec, execEncode]; split_ifs <;> exact ⟨_, rfl⟩
  | decodeB => dsimp only [exec, execDecodeB]; split_ifs <;> exact ⟨_, rfl⟩
  | decodeS => dsimp only [exec, execDecodeS]; split_ifs <;> exact ⟨_, rfl⟩
  | clear => exact ⟨_, rfl⟩

/-- Every command ends in `complete` or `raise`, so with `BUSY = 0` (R243, R244). -/
theorem CommandEnd.busy {s t : State} {i : Instr} (h : CommandEnd s i t) : t.busy = false := by
  cases h with
  | failed | rejected => exact State.raise_busy _ _ _
  | transferFailed => exact State.failTransfer_busy _ _ _
  | analyzed | built | generated | transferred | cleared => exact State.complete_busy _

/-- Settles O7: SEQ holds a legal word, its command does not stop, and it ends with `BUSY = 0`. -/
theorem acceptedCommandEnds : Obligations.AcceptedCommandEnds := by
  intro s hs hturn
  obtain ⟨w, polls, hseq, hstep⟩ := step_of_sequencerTurn hturn
  obtain ⟨-, i, hi, -⟩ := hs.flags.running hseq
  obtain ⟨t, ht⟩ := exec_next hs.tree i
  exact ⟨t, by rw [hstep, runWord_of_decodeCmd hi, ht], (exec_commandEnd ht).busy⟩

/-- Settles O8, by the step of the sequencer. -/
theorem stepRunsTheDecodedCommand : Obligations.StepRunsTheDecodedCommand := by
  intro s w n i hseq hturn hi
  obtain ⟨w', polls, hseq', hstep⟩ := step_of_sequencerTurn hturn
  obtain ⟨rfl, -⟩ := Seq.run.inj (hseq.symm.trans hseq')
  rw [hstep, runWord_of_decodeCmd hi]

/-- Settles O57: CLEAR is `discardSession`, then `complete`. -/
theorem clearDiscardsTheSession : Obligations.ClearDiscardsTheSession := fun _ => rfl

/-! ### A command word is presented -/

/-- While no command runs a write to CMD presents its word (R240). -/
theorem serve_cmd_of_idle {s : State} (w : Word) (hseq : s.seq = .idle) :
    s.serve { write := true, addr := 0x004, wdata := w } = s.present w := by
  have hl : locate s.config 0x004 = some .cmd := locate_addr_of_lt (l := .cmd) (by decide) (by decide)
  simp only [serve_idle hseq, State.serveIdle, hl, if_true]

/-- Settles O20: a word that does not decode to CLEAR meets the lockout. -/
theorem commandDroppedWhileInError : Obligations.CommandDroppedWhileInError := by
  intro s w hseq herr hw
  have hclear : decodeCmd w ≠ some .clear := mt decodeCmd_eq_some_iff_eq_encodeCmd.1 hw
  rw [serve_cmd_of_idle w hseq, State.present, if_pos ⟨herr, hclear⟩]
  rfl

/-- Settles O18: of what a presented word can meet, a legal one without a lockout meets acceptance only. -/
theorem legalCommandIsAccepted : Obligations.LegalCommandIsAccepted := by
  intro s i hseq hok
  rw [serve_cmd_of_idle _ hseq]
  rcases present_cases s (encodeCmd i) with ⟨herr, hclear, -⟩ | ⟨-, -, -, haccept⟩ | ⟨hnone, -⟩
  · rw [decodeCmd_encodeCmd] at hclear
    rcases hok with hok | rfl
    · exact absurd (herr.symm.trans hok) (by simp)
    · exact absurd rfl hclear
  · exact ⟨_, _, haccept⟩
  · simp at hnone

/-! ### A request during a run -/

/-- A request in a run is treated as one (R246). -/
theorem serve_run {s : State} {w : Word} {n : Nat} (hseq : s.seq = .run w n) (r : BusRequest) :
    s.serve r = s.serveBusy w n r := by
  simp [State.serve, hseq]

/-- Settles O21: such a request is no read of STATUS. -/
theorem accessRefusedWhileBusy : Obligations.AccessRefusedWhileBusy := by
  intro s w n r hseq hr
  have hstatus : r.readsStatus = false := by
    simp only [BusRequest.readsStatus, Bool.and_eq_false_iff, Bool.not_eq_false', beq_eq_false_iff_ne]
    exact hr
  rw [serve_run hseq, State.serveBusy, hstatus]
  rfl

end Sys2Proof.Machine

/-! ## The codes are prefix-free, and a rarer symbol has no shorter one (spec/47_pipeline_properties.md R262, R263) -/

namespace Sys2Proof.Machine

/-! ### No code begins another (R262) -/

section PrefixFree

variable {m : Memory NodeEntry} {c c' : Byte}

/-- A path from an internal node goes on from one of its children (R182). -/
theorem Tree.pathTo_node_cases {k : Nat} {l r : Tree} {p : List Bool}
    (h : (Tree.node k l r).pathTo m c = some p) :
    (∃ q, p = false :: q ∧ l.pathTo m c = some q) ∨ ∃ q, p = true :: q ∧ r.pathTo m c = some q := by
  rw [Tree.pathTo] at h
  split at h
  · next q hq => exact .inl ⟨q, (Option.some.inj h).symm, hq⟩
  · split at h
    · next q hq => exact .inr ⟨q, (Option.some.inj h).symm, hq⟩
    · cases h

/-- The path to a leaf goes through no other leaf. -/
theorem Tree.eq_of_pathTo_prefix {t : Tree} {p p' : List Bool} (h : t.pathTo m c = some p)
    (h' : t.pathTo m c' = some p') (hpre : p <+: p') : c = c' := by
  induction t generalizing p p' with
  | leaf k =>
    rw [Tree.pathTo, Option.ite_none_right_eq_some] at h h'
    obtain ⟨hc, -⟩ := h
    obtain ⟨hc', -⟩ := h'
    exact hc.symm.trans hc'
  | node k l r hl hr =>
    rcases Tree.pathTo_node_cases h with ⟨q, rfl, hq⟩ | ⟨q, rfl, hq⟩ <;>
      rcases Tree.pathTo_node_cases h' with ⟨q', rfl, hq'⟩ | ⟨q', rfl, hq'⟩ <;>
      obtain ⟨hbit, hpre⟩ := List.cons_prefix_cons.1 hpre
    · exact hl hq hq' hpre
    · cases hbit
    · cases hbit
    · exact hr hq hq' hpre

theorem Tree.eq_of_codeOf_prefix {t : Tree} {d d' : List Bool} (h : t.codeOf m c = some d)
    (h' : t.codeOf m c' = some d') (hpre : d <+: d') : c = c' := by
  cases t with
  | leaf k =>
    rw [Tree.codeOf, Option.ite_none_right_eq_some] at h h'
    obtain ⟨hc, -⟩ := h
    obtain ⟨hc', -⟩ := h'
    exact hc.symm.trans hc'
  | node k l r => exact Tree.eq_of_pathTo_prefix h h' hpre

end PrefixFree

/-- An entry of the table holds the digits of its symbol's code (R46, R47). -/
theorem codeOf_eq_digits {s : State} {T : Tree} (hT : s.HasTree T) (hcodes : s.HasCodes T) {c : Byte}
    (hlen : (s.code.code c.toNat).len ≠ 0) : T.codeOf s.node c = some (s.code.code c.toNat).digits := by
  obtain ⟨-, -, -, hnodup, -⟩ := hT
  rw [hcodes c] at hlen ⊢
  cases hds : T.codeOf s.node c with
  | none => simp [hds, entryOf] at hlen
  | some ds => rw [entryOf, CodeEntry.digits_ofDigits ds (Tree.length_codeOf_le s.node hnodup hds)]

/-- Settles O41: the codes are paths to leaves of one tree. -/
theorem codesArePrefixFree : Obligations.CodesArePrefixFree := by
  intro s hok hv c c' hne hlen hlen' hpre
  obtain ⟨T, hT, hcodes⟩ := hok hv
  exact hne (Tree.eq_of_codeOf_prefix (codeOf_eq_digits hT hcodes hlen) (codeOf_eq_digits hT hcodes hlen') hpre)

/-! ### The depth of an entry below ROOT -/

/-- Entry `k` stands `d` steps below the entry `root`. -/
inductive AtDepth (m : Memory NodeEntry) (root : NodeIdx) : NodeIdx → Nat → Prop
  | root : AtDepth m root root 0
  | child {k : NodeIdx} {d : Nat} (h : AtDepth m root k d) (hinner : (m.node k.toNat).leaf = false) (b : Bool) :
    AtDepth m root ((m.node k.toNat).child b) (d + 1)

/-- A path of a stored tree leads to a leaf entry of its symbol, as deep as the path is long (R182). -/
theorem AtDepth.of_pathTo {m : Memory NodeEntry} {root k : NodeIdx} {c : Byte} {t : Tree} {d : Nat} {p : List Bool}
    (h : AtDepth m root k d) (hk : k.toNat = t.root) (hs : t.stored m = true) (hp : t.pathTo m c = some p) :
    ∃ k', AtDepth m root k' (d + p.length) ∧ (m.node k'.toNat).leaf = true ∧ (m.node k'.toNat).sym = c := by
  induction p generalizing k t d with
  | nil =>
    obtain ⟨hleaf, hsym⟩ := Tree.pathTo_nil hs hp
    exact ⟨k, h, hk ▸ hleaf, hk ▸ hsym⟩
  | cons b p ih =>
    obtain ⟨hinner, t', hs', hp', hroot, -⟩ := Tree.pathTo_cons hs hp
    rw [← hk] at hinner hroot
    obtain ⟨k', hk', hleaf, hsym⟩ := ih (h.child hinner b) hroot hs' hp'
    exact ⟨k', by rwa [List.length_cons, Nat.add_comm p.length, ← Nat.add_assoc], hleaf, hsym⟩

/-- A code is as long as the path to its symbol, but of one digit in the single-leaf tree (R182, R184). -/
theorem Tree.exists_pathTo_of_codeOf {m : Memory NodeEntry} {c : Byte} {t : Tree} {ds : List Bool}
    (h : t.codeOf m c = some ds) : ∃ p, t.pathTo m c = some p ∧ ds.length = max 1 p.length := by
  cases t with
  | leaf k =>
    rw [Tree.codeOf, Option.ite_none_right_eq_some] at h
    obtain ⟨hc, ⟨⟩⟩ := h
    exact ⟨[], if_pos hc, rfl⟩
  | node k l r => exact ⟨ds, h, (Nat.max_eq_right (Tree.length_codeOf m h).1).symm⟩

/-- The length of a symbol's code is the depth of a leaf entry of the symbol (R182, R184). -/
theorem exists_atDepth_of_mem_symbols {s : State} {T : Tree} (hT : s.HasTree T) (hcodes : s.HasCodes T) {c : Byte}
    (hc : c ∈ T.symbols s.node) :
    ∃ k d, AtDepth s.node s.root k d ∧ (s.node.node k.toNat).leaf = true ∧ (s.node.node k.toNat).sym = c ∧
      (s.code.code c.toNat).len.toNat = max 1 d := by
  have hcode := codeOf_eq_digits hT hcodes (len_ne_zero_of_mem_symbols hT hcodes hc)
  obtain ⟨p, hp, hlen⟩ := Tree.exists_pathTo_of_codeOf hcode
  obtain ⟨hstored, hroot, -⟩ := hT
  obtain ⟨k, hk, hleaf, hsym⟩ := AtDepth.root.of_pathTo hroot hstored hp
  rw [Nat.zero_add] at hk
  exact ⟨k, p.length, hk, hleaf, hsym, by rw [← hlen, CodeEntry.length_digits]⟩

/-! ### Nodes are merged in the order of their ranks -/

theorem freq_le_of_rank_le {m : Memory NodeEntry} {a b : NodeIdx} (h : rank m a ≤ rank m b) :
    (m.node a.toNat).freq.toNat ≤ (m.node b.toNat).freq.toNat := by
  unfold rank at h
  omega

theorem rank_lt_of_freq_lt {m : Memory NodeEntry} {a b : NodeIdx}
    (hfreq : (m.node a.toNat).freq.toNat < (m.node b.toNat).freq.toNat) : rank m a < rank m b := by
  unfold rank
  omega

theorem rank_lt_of_freq_le {m : Memory NodeEntry} {a b : NodeIdx}
    (hfreq : (m.node a.toNat).freq.toNat ≤ (m.node b.toNat).freq.toNat) (hlt : a.toNat < b.toNat) :
    rank m a < rank m b := by
  unfold rank
  omega

section Child

variable {node : Memory NodeEntry} {n k : Nat}

theorem MergesTwoLeast.child_lt (h : MergesTwoLeast node n k) (b : Bool) : ((node.node k).child b).toNat < k := by
  cases b
  · exact h.left_lt
  · exact h.right_lt

theorem MergesTwoLeast.child_orphan (h : MergesTwoLeast node n k) (b : Bool) :
    Orphan node n k ((node.node k).child b) := by
  cases b
  · exact h.left_orphan
  · exact h.right_orphan

theorem MergesTwoLeast.freq_child_le (h : MergesTwoLeast node n k) (b : Bool) :
    (node.node ((node.node k).child b).toNat).freq.toNat ≤ (node.node k).freq.toNat := by
  rw [h.freq]
  cases b
  · exact Nat.le_add_right ..
  · exact Nat.le_add_left ..

/-- Both children rank below every other node that had no parent yet (R165). -/
theorem MergesTwoLeast.rank_child_lt (h : MergesTwoLeast node n k) (b : Bool) {c : NodeIdx} (hc : c.toNat < k)
    (ho : Orphan node n k c) (hl : c ≠ (node.node k).left) (hr : c ≠ (node.node k).right) :
    rank node ((node.node k).child b) < rank node c := by
  obtain ⟨hleft, hright⟩ := h.least c hc hl hr ho
  cases b
  · exact (less_iff_rank ..).1 hleft
  · exact (less_iff_rank ..).1 hright

/-- An orphan at `j` is no child of an internal node before `j`. -/
theorem Orphan.ne_child {c : NodeIdx} (h : Orphan node n k c) {j : Nat} (hj : n ≤ j) (hlt : j < k) :
    c ≠ (node.node j).left ∧ c ≠ (node.node j).right := by
  obtain ⟨hl, hr⟩ := h j hj hlt
  exact ⟨hl.symm, hr.symm⟩

/-- What the next round merges is no less frequent than what this one merged. -/
theorem MergesTwoLeast.freq_right_le_freq_child (h : MergesTwoLeast node n k)
    (h' : MergesTwoLeast node n (k + 1)) (hk : n ≤ k) (b : Bool) :
    (node.node (node.node k).right.toNat).freq.toNat ≤
      (node.node ((node.node (k + 1)).child b).toNat).freq.toNat := by
  have hlt := h'.child_lt b
  have ho := h'.child_orphan b
  generalize (node.node (k + 1)).child b = c at hlt ho
  rcases Nat.lt_succ_iff_lt_or_eq.1 hlt with hlt | heq
  · obtain ⟨hl, hr⟩ := ho.ne_child hk (Nat.lt_succ_self k)
    exact freq_le_of_rank_le (h.rank_child_lt true hlt (ho.mono (Nat.le_succ k)) hl hr).le
  · rw [heq]
    exact h.freq_child_le true

/-- Later merges make no less frequent nodes. -/
theorem MergesTwoLeast.freq_le_succ (h : MergesTwoLeast node n k) (h' : MergesTwoLeast node n (k + 1)) (hk : n ≤ k) :
    (node.node k).freq.toNat ≤ (node.node (k + 1)).freq.toNat := by
  have hordered := freq_le_of_rank_le ((less_iff_rank ..).1 h.ordered).le
  have hleft := h.freq_right_le_freq_child h' hk false
  have hright := h.freq_right_le_freq_child h' hk true
  rw [h.freq, h'.freq]
  exact Nat.add_le_add (hordered.trans hleft) hright

end Child

section Order

variable {symtab : Memory Byte} {freqtab : Memory Word} {n : Nat} {st : BuildLoop} {a b : NodeIdx}

theorem MergeInv.freq_mono (inv : MergeInv symtab freqtab n st) {k k' : Nat} (hk : n ≤ k) (hle : k ≤ k')
    (hk' : k' < st.nNodes) : (st.node.node k).freq.toNat ≤ (st.node.node k').freq.toNat := by
  induction k', hle using Nat.le_induction with
  | base => exact Nat.le_refl _
  | succ j hj ih =>
    have hstep := (inv.internal j (by omega) (by omega)).freq_le_succ (inv.internal (j + 1) (by omega) hk') (by omega)
    exact (ih (by omega)).trans hstep

/-- Later merges make nodes of higher rank. -/
theorem MergeInv.rank_mono (inv : MergeInv symtab freqtab n st) (ha : n ≤ a.toNat) (hle : a.toNat ≤ b.toNat)
    (hb : b.toNat < st.nNodes) : rank st.node a ≤ rank st.node b := by
  rcases Nat.lt_or_eq_of_le hle with hlt | heq
  · exact (rank_lt_of_freq_le (inv.freq_mono ha hle hb) hlt).le
  · rw [BitVec.eq_of_toNat_eq heq]

/-- A child has a lower rank than its parent. -/
theorem MergeInv.rank_child_lt (inv : MergeInv symtab freqtab n st) (ha : n ≤ a.toNat) (ha' : a.toNat < st.nNodes)
    (x : Bool) : rank st.node ((st.node.node a.toNat).child x) < rank st.node a :=
  have hmerge := inv.internal a.toNat ha ha'
  rank_lt_of_freq_le (hmerge.freq_child_le x) (hmerge.child_lt x)

/-- A node of lower rank is merged in no later round: the parents' indices are ordered as the ranks are. -/
theorem MergeInv.parent_le (inv : MergeInv symtab freqtab n st) (ha : n ≤ a.toNat) (ha' : a.toNat < st.nNodes)
    (hb : n ≤ b.toNat) (hb' : b.toNat < st.nNodes) {x y : Bool}
    (hrank : rank st.node ((st.node.node a.toNat).child x) ≤ rank st.node ((st.node.node b.toNat).child y)) :
    a.toNat ≤ b.toNat := by
  by_contra! hlt
  have ho := (inv.internal a.toNat ha ha').child_orphan x
  have hltA := (inv.internal a.toNat ha ha').child_lt x
  have hchild := inv.rank_child_lt hb hb' y
  generalize (st.node.node a.toNat).child x = c at hrank ho hltA
  rcases Nat.lt_or_ge c.toNat b.toNat with hbefore | hafter
  · obtain ⟨hl, hr⟩ := ho.ne_child hb hlt
    have := (inv.internal b.toNat hb hb').rank_child_lt y hbefore (ho.mono hlt.le) hl hr
    omega
  · have := inv.rank_mono hb hafter (hltA.trans ha')
    omega

/-! ### Deeper entries have lower ranks -/

/-- An internal node of the loop is one that a merge made (R163). -/
theorem MergeInv.le_of_inner (inv : MergeInv symtab freqtab n st) {k : Nat} (hinner : (st.node.node k).leaf = false) :
    n ≤ k := by
  by_contra! hlt
  rw [inv.leaf k hlt] at hinner
  cases hinner

variable {root : NodeIdx} {d d' : Nat}

/-- No entry below the last one stands after it. -/
theorem MergeInv.lt_of_atDepth (inv : MergeInv symtab freqtab n st) (hroot : root.toNat + 1 = st.nNodes)
    (h : AtDepth st.node root a d) : a.toNat < st.nNodes := by
  induction h with
  | root => omega
  | child _ hinner x ih => exact ((inv.internal _ (inv.le_of_inner hinner) ih).child_lt x).trans ih

/-- A node of lower rank stands no higher in the tree that BUILD makes. -/
theorem MergeInv.depth_le_of_rank_le (inv : MergeInv symtab freqtab n st) (hroot : root.toNat + 1 = st.nNodes)
    (ha : AtDepth st.node root a d) (hb : AtDepth st.node root b d') (hrank : rank st.node a ≤ rank st.node b) :
    d' ≤ d := by
  induction hb generalizing a d with
  | root => exact Nat.zero_le d
  | @child k' _ hk' hinner' y ih =>
    have hlow' := inv.le_of_inner hinner'
    have hlt' := inv.lt_of_atDepth hroot hk'
    cases ha with
    | root =>
      have hchild := inv.rank_child_lt hlow' hlt' y
      have hmono := inv.rank_mono (b := root) hlow' (by omega) (by omega)
      omega
    | @child k _ hk hinner x =>
      have hlow := inv.le_of_inner hinner
      have hlt := inv.lt_of_atDepth hroot hk
      have hle := inv.parent_le hlow hlt hlow' hlt' hrank
      exact Nat.succ_le_succ (ih hk (inv.rank_mono hlow hle hlt'))

end Order

/-! ### The code table of a built tree -/

/-- The leaf entry of a table position's symbol stands at that position (R163). -/
theorem Built.toNat_eq_of_sym {s : State} {st : BuildLoop} (h : Built s st) {k : NodeIdx} {p : Nat}
    (hp : p < s.nSym.toNat) (hk : k.toNat < st.nNodes) (hleaf : (st.node.node k.toNat).leaf = true)
    (hsym : (st.node.node k.toNat).sym = s.symtab.byte p) : k.toNat = p := by
  have hlt : k.toNat < s.nSym.toNat := by
    by_contra! hge
    cases hleaf.symm.trans (h.inv.internal k.toNat hge hk).leaf
  rw [h.inv.leaf k.toNat hlt] at hsym
  rcases Nat.lt_trichotomy k.toNat p with hlt' | heq | hgt
  · exact absurd hsym (h.distinct _ _ hlt' hp)
  · exact heq
  · exact absurd hsym.symm (h.distinct _ _ hgt hlt)

/-- After BUILD and GENCODES the code of a table position's symbol is as long as its leaf entry is deep. -/
theorem Built.exists_atDepth {s u : State} {st : BuildLoop} {T : Tree} (h : Built s st) (hnode : u.node = st.node)
    (hroot : u.root.toNat + 1 = st.nNodes) (hnodes : u.nNodes.toNat = st.nNodes) (hT : u.HasTree T)
    (hcodes : u.HasCodes T) {p : Nat} (hp : p < s.nSym.toNat) :
    ∃ k d, AtDepth st.node u.root k d ∧ (st.node.node k.toNat).freq.toNat = (s.freqtab.word p).toNat ∧
      (u.code.code (s.symtab.byte p).toNat).len.toNat = max 1 d := by
  have hbelow := h.inv.leaves_below
  have hleafp := h.inv.leaf p hp
  have hmem := hT.mem_symbols (k := p) (by omega) (by rw [hnode, hleafp]; rfl)
  rw [hnode, hleafp] at hmem
  obtain ⟨k, d, hk, hleaf, hsym, hlen⟩ := exists_atDepth_of_mem_symbols hT hcodes (hnode.symm ▸ hmem)
  rw [hnode] at hk hleaf hsym
  have hkp := h.toNat_eq_of_sym hp (h.inv.lt_of_atDepth hroot hk) hleaf hsym
  refine ⟨k, d, hk, ?_, hlen⟩
  rw [hkp, hleafp]
  exact BitVec.toNat_setWidth_of_le (by omega)

/-- Settles O43: the loop of BUILD merges the nodes in the order of their ranks, so ranks fall with the depth. -/
theorem rarerSymbolsHaveNoShorterCode : Obligations.RarerSymbolsHaveNoShorterCode := by
  intro s t u hbuild hv hgencodes p hp q hq hfreq
  obtain ⟨st, hst, rfl⟩ := built_of_treeValid hbuild hv
  obtain ⟨T, hT⟩ := hst.hasTree
  obtain ⟨u', hexec, hframe, hT', hcodes⟩ := gencodesRecordsThePaths _ T hv hT
  obtain rfl : u = u' := by injection hgencodes.symm.trans hexec
  have hpos := hst.pos
  obtain ⟨hcount, -⟩ := hst.inv.heap_eq hst.le hst.single
  have hnode : u.node = st.node := by rw [hframe]; rfl
  have hroot : u.root.toNat + 1 = st.nNodes := by
    have : u.root.toNat = 2 * s.nSym.toNat - 2 := by rw [hframe]; exact hst.root_toNat
    omega
  have hnodes : u.nNodes.toNat = st.nNodes := by rw [hframe, hcount]; exact hst.nNodes_toNat
  obtain ⟨a, d, ha, hfreqa, hlena⟩ := hst.exists_atDepth hnode hroot hnodes hT' hcodes hp
  obtain ⟨b, d', hb, hfreqb, hlenb⟩ := hst.exists_atDepth hnode hroot hnodes hT' hcodes hq
  rw [BitVec.lt_def, ← hfreqa, ← hfreqb] at hfreq
  have hdepth := hst.inv.depth_le_of_rank_le hroot ha hb (rank_lt_of_freq_lt hfreq).le
  rw [BitVec.le_def, hlena, hlenb]
  omega

end Sys2Proof.Machine

/-! ## Exceptions and reset (spec/60_exceptions.md R284 to R300, spec/70_reset_and_hazards.md R320, R341) -/

namespace Sys2Proof.Machine

/-! ### Failures of a command -/

/-- Settles O45: the loop gets past the bytes before index `i`, and byte `i` has no code. -/
theorem encodeReportsTheMissingCode : Obligations.EncodeReportsTheMissingCode := by
  intro s i _ hv hin hi hmissing hcodes hfits
  obtain ⟨st, -, rfl, hloop⟩ := exists_packLoop_past s i hcodes hfits
  obtain ⟨rem, hrem⟩ := Nat.exists_eq_add_of_lt hi
  have hraised : packLoop s.config.obufBytes s.ibuf s.code s.inLen.toNat s.packStart =
      .raised st .missingCodeForSymbol
        ((BitVec.ofNat 32 st.i <<< 8) ||| (s.ibuf.byte st.i).setWidth 32) := by
    rw [hrem, Nat.add_assoc, hloop, packLoop, if_pos hmissing]
  exact ⟨_, hraised ▸ execEncode_of_ready hv hin, rfl⟩

/-- A command that ends as a failing transfer has the failure post-state of R292. -/
theorem exists_failedTransfer {i : Instr} {s : State} {e : ErrKind} {info : Word}
    (h : exec i s = .next (s.failTransfer e info)) : ∃ t, exec i s = .next t ∧ FailedTransfer s e.code info t :=
  ⟨_, h, rfl⟩

/-- Settles O24: in each command this check comes next when the validity flag it needs is 1. -/
theorem badParameterIsRaised : Obligations.BadParameterIsRaised := by
  refine fun s => ⟨fun hin => ⟨⟨_, if_pos hin, rfl⟩, fun hv => ?encode, fun hv => ?decodeB, fun hv => ?decodeS⟩,
    fun hn => ⟨_, congrArg Host.Outcome.next (if_pos hn), rfl⟩⟩
  all_goals refine exists_failedTransfer (e := .badParameter) ?_
  case encode => rw [exec, execEncode, if_neg (by simp [hv]), if_pos hin]
  case decodeB => rw [exec, execDecodeB, if_neg (by simp [hv]), if_pos hin]
  case decodeS => rw [exec, execDecodeS, if_neg (by simp [hv]), if_pos hin]

/-- Settles O25: the validity flag is what each command checks first. -/
theorem noTreeAndNoCodesAreRaised : Obligations.NoTreeAndNoCodesAreRaised := fun _ =>
  ⟨fun hv => ⟨⟨_, if_pos hv, rfl⟩, exists_failedTransfer (e := .noTree) (if_pos hv),
    exists_failedTransfer (e := .noTree) (if_pos hv)⟩, fun hv => exists_failedTransfer (e := .noCodes) (if_pos hv)⟩

/-! ### An illegal word -/

/-- Settles O19: of what a presented word can meet, an illegal one without a lockout meets only the failure. -/
theorem illegalWordFailsAtOnce : Obligations.IllegalWordFailsAtOnce := by
  intro s w hseq herr hw
  have hnone : decodeCmd w = none := decodeCmd_eq_none_iff.2 hw
  rw [serve_cmd_of_idle w hseq]
  rcases present_cases s w with ⟨herr', -⟩ | ⟨i, hi, -⟩ | ⟨-, -, hpresent⟩
  · exact absurd (herr.symm.trans herr') (by simp)
  · exact absurd (hnone.symm.trans hi) (by simp)
  · rw [hpresent, hseq]
    exact ⟨_, _, rfl⟩

/-! ### How an error ends -/

/-- No request of the host changes an error that stands (R242, R300). -/
theorem Served.keeps_error {s t : State} (h : Served s t) (herr : s.err = true) :
    t.err = true ∧ t.errCode = s.errCode ∧ t.errInfo = s.errInfo := by
  cases h with
  | refused | lockedOut | read | polled | accepted => exact ⟨herr, rfl, rfl⟩
  | illegal w hseq hok => exact absurd (herr.symm.trans hok) (by simp)
  | written v a l t hseq hl ht =>
    rcases (writeLoc_cases ht).2 with
      rfl | rfl | rfl | rfl | rfl | ⟨i, -, rfl⟩ | ⟨i, -, rfl⟩ | ⟨i, -, rfl⟩ <;> exact ⟨herr, rfl, rfl⟩

/-- Settles O58: the host keeps the error, and the only word that runs while it stands is CLEAR's. -/
theorem errorPersistsUntilClearOrReset : Obligations.ErrorPersistsUntilClearOrReset := by
  intro s t hf herr h
  rcases step_ends h with ⟨hturn, rfl | ⟨x, rest, hhost, hact, -⟩ | ⟨rest, hserved⟩⟩ | ⟨hturn, w, polls, hseq, -⟩
  · exact .inl ⟨herr, rfl, rfl⟩
  · exact .inr (.inr ⟨hturn, x, rest, hhost, hact⟩)
  · exact .inl (hserved.keeps_error herr)
  · obtain ⟨-, i, hi, hclear⟩ := hf.running hseq
    obtain rfl : i = .clear := hclear.resolve_left (by simp [herr])
    obtain rfl := eq_encodeCmd_of_decodeCmd hi
    exact .inr (.inl ⟨hturn, polls, hseq⟩)

/-! ### Polls and reset -/

/-- Settles O23: a poll changes SEQ and the response, and neither is an input of a command. -/
theorem pollsLeaveNoTrace : Obligations.PollsLeaveNoTrace := by
  intro s t w x n i hseq _ hexec
  rw [serve_status_of_run x hseq, State.poll, State.respond, exec_rsp, exec_seq, hexec]
  rfl

/-- At a reset edge the step answers the reset state, whether a command runs or not (R320, R321). -/
theorem step_of_reset {s : State} {x : HostInput} {rest : List HostInput} (hhost : s.host = x :: rest)
    (hact : x.act = .reset) (hwhen : x.during = true ∨ s.seq = .idle) :
    step s = .next (State.resetWith s.config s.draws rest) := by
  cases hseq : s.seq with
  | idle => simp [step, hseq, hhost, hact, State.hostAct]
  | run w polls =>
    have hduring : x.during = true := hwhen.resolve_right (by simp [hseq])
    simp [step, hseq, hhost, hact, hduring, State.hostAct]

/-- After reset STATUS reads 0 (R57). -/
theorem status_resetWith (c : Config) (draws : Nat) (host : List HostInput) :
    (State.resetWith c draws host).status = 0 := by
  have hzero : statusWord false false false false false false = 0 := by decide
  exact (status_idle rfl).trans hzero

/-- Settles O1: the reset state has every register and flag 0. -/
theorem resetEdgeGivesTheResetState : Obligations.ResetEdgeGivesTheResetState := by
  intro s x rest hhost hact hwhen
  exact ⟨_, step_of_reset hhost hact hwhen, rfl, status_resetWith _ _ _, rfl, rfl, rfl, rfl, rfl, rfl, rfl, rfl, rfl,
    rfl, rfl, rfl⟩

end Sys2Proof.Machine
